-- ==== Sys2Proof/Word.lean ====
section
/-! DEFINITION. The word types of the machine: what the spec treats as bits. -/

namespace Sys2Proof

/-- A 64-bit value: the register `mstatus`, a general register, `pc` (00_scope.md R7; 10_state.md R70, R71). -/
abbrev Word := BitVec 64

/-- One byte of memory (20_memory.md R84). -/
abbrev Byte := BitVec 8

/-- One instruction word (30_encoding.md R100). -/
abbrev InsnWord := BitVec 32

/-- The number of a general register (30_encoding.md R101). -/
abbrev RegNum := BitVec 5

/-- A CSR number (30_encoding.md R104). -/
abbrev CsrNum := BitVec 12

end Sys2Proof
end

