-- ==== Sys2Proof/Syntax.lean ====
section
/-! DEFINITION. The instructions: one constructor for each row of spec/opcode_table.json, with the operands its format names
(30_encoding.md R101 to R106, R116); the CSRs the source names; why a word is no instruction of the spec. -/

namespace Sys2Proof

/-- An instruction of the spec. Each constructor's operands stand in the assembler's order (30_encoding.md R116). -/
inductive Instr where
  | csrrw (rd : RegNum) (csr : CsrNum) (rs1 : RegNum)
  | csrrs (rd : RegNum) (csr : CsrNum) (rs1 : RegNum)
  | csrrc (rd : RegNum) (csr : CsrNum) (rs1 : RegNum)
  | csrrwi (rd : RegNum) (csr : CsrNum) (uimm : BitVec 5)
  | csrrsi (rd : RegNum) (csr : CsrNum) (uimm : BitVec 5)
  | csrrci (rd : RegNum) (csr : CsrNum) (uimm : BitVec 5)
  | sret
  | mret
  | wfi
  | sfenceVma (rs1 rs2 : RegNum)
  | sinvalVma (rs1 rs2 : RegNum)
  | sfenceWInval
  | sfenceInvalIr
  | hfenceVvma (rs1 rs2 : RegNum)
  | hfenceGvma (rs1 rs2 : RegNum)
  | hinvalGvma (rs1 rs2 : RegNum)
deriving DecidableEq, Repr

/-- The CSRs whose number 30_encoding.md R107 gives: the registers the source names. -/
inductive CsrName where
  | mstatus
  | misa
  | mie
  | mtval
  | sie
  | satp
  | hstatus
  | hgatp
  | vsstatus
  | fcsr
deriving DecidableEq, Repr

/-- Why a word is outside the spec (30_encoding.md R108, R113, D34). -/
inductive DecodeRefusal where
  /-- The major opcode is not 1110011. -/
  | notSystemOpcode
  /-- `funct3` is 100, which selects no CSR access instruction. -/
  | reservedFunct3
  /-- `funct3` is 000 and the word matches no row of 30_encoding.md R106. -/
  | noSystemRow
deriving DecidableEq, Repr

end Sys2Proof
end

