-- ==== Sys2Proof/Machine/CsrNumbers.lean ====
section
/-! DEFINITION. The CSR numbers (30_encoding.md R107) and what their bits say about access. -/

namespace Sys2Proof.Machine

/-- The number of a CSR the source names (30_encoding.md R107). -/
def csrNumber : CsrName → CsrNum
  | .mstatus => 0x300
  | .misa => 0x301
  | .mie => 0x304
  | .mtval => 0x343
  | .sie => 0x104
  | .satp => 0x180
  | .hstatus => 0x600
  | .hgatp => 0x680
  | .vsstatus => 0x200
  | .fcsr => 0x003

/-- The CSR a number names, if the spec defines it (30_encoding.md R107, D34). -/
def csrOfNumber (n : CsrNum) : Option CsrName :=
  if n = 0x300 then some .mstatus
  else if n = 0x301 then some .misa
  else if n = 0x304 then some .mie
  else if n = 0x343 then some .mtval
  else if n = 0x104 then some .sie
  else if n = 0x180 then some .satp
  else if n = 0x600 then some .hstatus
  else if n = 0x680 then some .hgatp
  else if n = 0x200 then some .vsstatus
  else if n = 0x003 then some .fcsr
  else none

/-- Bits 9:8 of a CSR number: the lowest privilege level that may access the register (30_encoding.md R107). -/
def csrLevel (n : CsrNum) : BitVec 2 := n.extractLsb' 8 2

end Sys2Proof.Machine
end

