-- ==== Sys2Proof/Config.lean ====
section
/-! DEFINITION. What an implementation fixes (the parameters of 00_scope.md R8 and the OPEN parameters of
92_eei_decisions.md), the inputs the environment gives (R9), and the free values: constants with no body. -/

namespace Sys2Proof

/-- A nominal privilege level (00_scope.md R17, R18): U (0), S (1), M (3). There is no level 2. -/
inductive Priv where
  | u
  | s
  | m
deriving DecidableEq, Repr, Inhabited

/-- A supported register width (00_scope.md R8; 128-bit is no configuration, U7). -/
inductive Width where
  | w32
  | w64
deriving DecidableEq, Repr, Inhabited

/-- `a.le b`: the width `a` is not wider than `b`. -/
def Width.le : Width → Width → Bool
  | .w32, _ => true
  | .w64, .w64 => true
  | .w64, .w32 => false

/-- The wider of two widths. -/
def Width.max (a b : Width) : Width := if a.le b then b else a

/-- The widest member of a list of supported widths (the empty list is no configuration). -/
def Width.largest : List Width → Width
  | [] => .w32
  | w :: ws => Width.max w (Width.largest ws)

/-- `MPV_AFTER_MRET` (41_trap_return.md R152, D17). -/
inductive MpvAfterMret where
  | unchanged
  | zero
deriving DecidableEq, Repr

/-- `SUM_VIOLATION_EXCEPTION` (20_memory.md R89, D18): the source's value, or the one of general knowledge (GK9). -/
inductive SumViolation where
  | illegalInstruction
  | pageFault
deriving DecidableEq, Repr

/-- `MisalignedAccess` (20_memory.md R91, D10). -/
inductive MisalignedAccess where
  | performed
  | fault
deriving DecidableEq, Repr

/-- A check of one load or store that may fail; `TrapPriority` orders them (60_exceptions.md R212, D20). -/
inductive AccessCheck where
  | alignment
  | sum
  | mxr
deriving DecidableEq, Repr

/-- The parameters of an implementation (00_scope.md R8; the OPEN parameters D2, D10, D20 of 92_eei_decisions.md).
Constant under every step. -/
structure Params where
  /-- Supervisor mode exists. -/
  extS : Bool
  /-- User mode exists (D29). -/
  extU : Bool
  /-- The virtualization mode can be 1 (D27). -/
  extH : Bool
  /-- `implemented?(ExtensionName::F)`. -/
  extF : Bool
  /-- `implemented?(ExtensionName::V)`. -/
  extV : Bool
  /-- The `misa` CSR exists. -/
  misaImplemented : Bool
  /-- The S-mode register widths the hart supports. -/
  sxlen : List Width
  /-- The U-mode register widths the hart supports. -/
  uxlen : List Width
  /-- `MSTATUS_FS_LEGAL_VALUES`. -/
  fsLegalValues : List (BitVec 2)
  /-- `MSTATUS_VS_LEGAL_VALUES`. -/
  vsLegalValues : List (BitVec 2)
  /-- `MPRV_CLEARED_ON_RETURN_TO_M` (D16). -/
  mprvClearedOnReturnToM : Bool
  /-- `MPV_AFTER_MRET` (D17). -/
  mpvAfterMret : MpvAfterMret
  /-- `SUM_VIOLATION_EXCEPTION` (D18). -/
  sumViolation : SumViolation
  /-- Whether a CSR access naming `fcsr` is in the class `is_fp` (43_fp_vector_status.md R190, GK14). -/
  fcsrIsFp : Bool
  /-- `MisalignedAccess` (D10). -/
  misalignedAccess : MisalignedAccess
  /-- `TrapPriority` (D20): the order in which the checks of one access report. -/
  accessCheckOrder : List AccessCheck
  /-- `TrapVector(M)` (D2). -/
  mVector : Word
  /-- `TrapVector((H)S)` (D2). -/
  sVector : Word
  /-- `TrapVector(VS)` (D2). -/
  vsVector : Word
deriving DecidableEq, Repr

/-- The reference configuration REF-A (D26). The spec gives REF-A no value for the last six parameters: DESIGN CHOICE
(unsafe only for a claim about `State.reset`), log 1. -/
def Params.refA : Params where
  extS := true
  extU := true
  extH := true
  extF := true
  extV := true
  misaImplemented := true
  sxlen := [.w64]
  uxlen := [.w64]
  fsLegalValues := [0, 1, 2, 3]
  vsLegalValues := [0, 1, 2, 3]
  mprvClearedOnReturnToM := true
  mpvAfterMret := .unchanged
  sumViolation := .illegalInstruction
  fcsrIsFp := true
  misalignedAccess := .performed
  accessCheckOrder := [.alignment, .sum, .mxr]
  mVector := 0
  sVector := 0
  vsVector := 0

/-- The reference configuration REF-B (D26): both widths in S- and U-mode. -/
def Params.refB : Params := { Params.refA with sxlen := [.w32, .w64], uxlen := [.w32, .w64] }

/-- The reference configuration REF-C (D26): neither S-mode nor U-mode nor the hypervisor feature set. -/
def Params.refC : Params := { Params.refA with extS := false, extU := false, extH := false }

/-- What 00_scope.md R8 requires of the parameters, and `EXT_U` whenever `EXT_S` (PRESUMED: the family has no supervisor mode without
user mode; safe, it only narrows the claims that assume it; log 35). -/
def Params.wellFormed (p : Params) : Bool :=
  (!p.sxlen.isEmpty) && (!p.uxlen.isEmpty) && (!p.fsLegalValues.isEmpty) && (!p.vsLegalValues.isEmpty)
    && (Width.largest p.uxlen).le (Width.largest p.sxlen) && (!p.extS || p.extU)

/-- The target mode of a trap (60_exceptions.md R213). -/
inductive TrapTarget where
  | m
  | s
  | vs
deriving DecidableEq, Repr, Inhabited

/-- The inputs of one trap entry (60_exceptions.md R213, D21): where it goes, whether `mtval` gets a guest virtual address, the
return address the environment stores, and the value it writes into `mtval` (R204: not in the source). -/
structure TrapInput where
  target : TrapTarget
  gva : Bool
  retAddr : Word
  tval : Word
deriving DecidableEq, Repr, Inhabited

/-- The draw one step of `wfi` makes (42_wfi_tvm_fences.md R167, R168, D19): trap (where it may), go on waiting, or complete. -/
inductive WfiDraw where
  | trap
  | stall
  | complete
deriving DecidableEq, Repr, Inhabited

/-- The handler mode of an interrupt (60_exceptions.md R206, R207). -/
inductive IntHandler where
  | m
  | s
deriving DecidableEq, Repr

/-- An interrupt that is pending and individually enabled (60_exceptions.md R210). Its number is the environment's. -/
structure Interrupt where
  handler : IntHandler
  number : Nat
deriving DecidableEq, Repr

/-- `misa`: the three bits the source names and the rest of the register (10_state.md R73). -/
structure Misa where
  s : Bool
  f : Bool
  v : Bool
  rest : Word
deriving DecidableEq, Repr, Inhabited

/-- `hstatus`: the two bits the source names and the rest of the register (10_state.md R73). -/
structure Hstatus where
  vtsr : Bool
  vtvm : Bool
  rest : Word
deriving DecidableEq, Repr, Inhabited

/-- `vsstatus`: the bit the source names and the rest of the register (10_state.md R73). -/
structure Vsstatus where
  spp : Bool
  rest : Word
deriving DecidableEq, Repr, Inhabited

namespace Config

/-- Free value: the inputs of the `n`-th drawn trap entry (U21; log 4). -/
opaque freeTrapInput : Nat → TrapInput

/-- Free value: the `n`-th drawn `WFI_TRAPS` (U11, U13; log 9). -/
opaque freeWfiDraw : Nat → WfiDraw

/-- Free value: whether the `n`-th drawn read of `satp` or `hgatp` under TVM traps (U20, D31; log 4). -/
opaque freeTvmReadTraps : Nat → Bool

/-- Free value: the `n`-th drawn `sret_new_V` (D28; log 32). -/
opaque freeSretNewV : Nat → Bool

/-- Free value: what `misa` reads as; its layout is not in the source (10_state.md R73; log 15). -/
opaque misaWord : Misa → Word

/-- Free value: what `misa` holds after the value is written to it (U27; log 15). -/
opaque misaKeeps : Misa → Word → Misa

/-- Free value: what `hstatus` reads as (10_state.md R73; log 13). -/
opaque hstatusWord : Hstatus → Word

/-- Free value: what `hstatus` holds after the value is written to it (log 13). -/
opaque hstatusKeeps : Hstatus → Word → Hstatus

/-- Free value: the rest of `hstatus` after a trap into (H)S-mode recorded the prior virtualization mode (60_exceptions.md R215,
GK25; log 31). -/
opaque hstatusTrapRecord : Word → Bool → Word

/-- Free value: what `vsstatus` reads as (10_state.md R73; log 13). -/
opaque vsstatusWord : Vsstatus → Word

/-- Free value: what `vsstatus` holds after the value is written to it (log 13). -/
opaque vsstatusKeeps : Vsstatus → Word → Vsstatus

/-- Free value: `vsstatus` after a trap into VS-mode from the given level (60_exceptions.md R216; log 30). -/
opaque vsstatusTrapRecord : Vsstatus → Priv → Vsstatus

/-- Free value: whether the second status field of floating point, in `vsstatus`, is off (43_fp_vector_status.md R191; log 16). -/
opaque vsstatusFsOff : Vsstatus → Bool

/-- Free value: whether the second status field of vector, in `vsstatus`, is off (43_fp_vector_status.md R191, R194; log 16). -/
opaque vsstatusVsOff : Vsstatus → Bool

/-- Free value: `vsstatus` after floating-point state was written with `V = 1` (43_fp_vector_status.md R191, R192; log 16). -/
opaque vsstatusFpWritten : Vsstatus → Vsstatus

/-- Free value: `vsstatus` after vector state was written with `V = 1` (43_fp_vector_status.md R191, R195; log 16). -/
opaque vsstatusVectorWritten : Vsstatus → Vsstatus

/-- Free value: what the CSR of the given number, holding the first value, holds after the second is written to it
(10_state.md R73; log 13). -/
opaque csrKeeps : CsrNum → Word → Word → Word

end Config

end Sys2Proof
end

