-- ==== Sys2Proof/Machine/State.lean ====
section
/-! DEFINITION. The state of the hart, why a step can stop, and reset. State is plain data and holds every piece of state the spec
gives the machine (10_state.md), and the model's own fields: the parameters (log 1) and the environment's inputs (log 4, log 5). -/

namespace Sys2Proof.Machine

/-- The stored fields of `mstatus` (10_state.md R23). SD is computed (R32); MBE, SBE, XS, UBE and the unnamed bits are hardwired 0
(R25, R37, R38, R51, R62). SXL and UXL hold a supported width and MPP a privilege level, so the values R30 calls never legal
cannot be held (log 11). -/
structure Mstatus where
  mpv : Bool
  gva : Bool
  sxl : Width
  uxl : Width
  tsr : Bool
  tw : Bool
  tvm : Bool
  mxr : Bool
  sum : Bool
  mprv : Bool
  fs : BitVec 2
  mpp : Priv
  vs : BitVec 2
  spp : Bool
  mpie : Bool
  spie : Bool
  mie : Bool
  sie : Bool
deriving DecidableEq, Repr

/-- What an access does: fetch, load or store (60_exceptions.md R203). -/
inductive AccessKind where
  | fetch
  | load
  | store
deriving DecidableEq, Repr

/-- A synchronous exception that the source does not name and the environment raises (60_exceptions.md R205). -/
inductive EnvException where
  /-- A misaligned access (20_memory.md R91, D10). -/
  | misaligned (kind : AccessKind)
  /-- An access fault. -/
  | accessFault (kind : AccessKind)
  /-- An environment call. -/
  | environmentCall
  /-- A breakpoint. -/
  | breakpoint
  /-- Any other, by a number of the environment's. -/
  | other (number : Nat)
deriving DecidableEq, Repr

/-- The cause of a trap, by name (60_exceptions.md R200, R203, R205; D23). -/
inductive Cause where
  /-- The value of a cause register before any trap (DESIGN CHOICE, log 8). -/
  | noTrapYet
  /-- Illegal Instruction. -/
  | illegalInstruction
  /-- Page Fault of an access. -/
  | pageFault (kind : AccessKind)
  /-- An exception of the environment (R205). -/
  | environment (exception : EnvException)
  /-- The interrupt of the given number (R208). -/
  | interrupt (number : Nat)
deriving DecidableEq, Repr

/-- What the environment does at an instruction boundary instead of the next instruction (log 5, log 40). -/
inductive EnvEvent where
  /-- It presents an interrupt, pending and individually enabled (60_exceptions.md R208, R210). -/
  | interrupt (i : Interrupt)
  /-- It raises an exception that the source does not name (60_exceptions.md R205). -/
  | exception (e : EnvException)
  /-- It raises a page fault of address translation (60_exceptions.md R202; 20_memory.md R90). -/
  | pageFault (kind : AccessKind)
  /-- It sets, for the software that runs, the exception return address of a mode (60_exceptions.md R223, R226). -/
  | setRetAddr (mode : TrapTarget) (address : Word)
  /-- It sets, for the software that runs, the recorded cause of a mode (60_exceptions.md R223). -/
  | setCause (mode : TrapTarget) (cause : Cause)
deriving DecidableEq, Repr

/-- Memory: (address, byte) pairs, addresses strictly rising; an address not listed has no value (log 23). -/
abbrev Memory := List Host.Cell

/-- The state of the machine. -/
structure State where
  /-- The parameters of the implementation: the model's own field, constant (00_scope.md R8; log 1). -/
  params : Params
  /-- The register `mstatus` (10_state.md R20). -/
  mstatus : Mstatus
  /-- The current nominal privilege level (10_state.md R67). -/
  priv : Priv
  /-- The current virtualization mode (10_state.md R68). -/
  v : Bool
  /-- The program counter (10_state.md R71). -/
  pc : Word
  /-- The general registers (10_state.md R70); the entry of x0 is never read or written. -/
  regs : Vector Word 32
  /-- The environment's memory (20_memory.md R84). -/
  mem : Memory
  /-- The CSR `misa` (10_state.md R73). -/
  misa : Misa
  /-- The CSR `mie` (10_state.md R73); its width, 64 bits, is the model's choice (DESIGN CHOICE, log 41). -/
  mie : Word
  /-- The CSR `mtval` (10_state.md R36, R73); its width, 64 bits, is the model's choice (DESIGN CHOICE, log 41). -/
  mtval : Word
  /-- The CSR `sie` (10_state.md R73); its width, 64 bits, is the model's choice (DESIGN CHOICE, log 41). -/
  sie : Word
  /-- The CSR `satp` (10_state.md R73); its width, 64 bits, is the model's choice (DESIGN CHOICE, log 41). -/
  satp : Word
  /-- The CSR `hstatus` (10_state.md R73). -/
  hstatus : Hstatus
  /-- The CSR `hgatp` (10_state.md R73); its width, 64 bits, is the model's choice (DESIGN CHOICE, log 41). -/
  hgatp : Word
  /-- The CSR `vsstatus` (10_state.md R73). -/
  vsstatus : Vsstatus
  /-- The CSR `fcsr` (10_state.md R73); its width, 64 bits, is the model's choice (DESIGN CHOICE, log 41). -/
  fcsr : Word
  /-- The environment's M-mode exception return address (41_trap_return.md R154). -/
  mRetAddr : Word
  /-- The environment's S-mode exception return address (41_trap_return.md R160). -/
  sRetAddr : Word
  /-- The return address of the last trap into VS-mode (60_exceptions.md R213, R216). -/
  vsRetAddr : Word
  /-- The cause of the last trap into M-mode (60_exceptions.md R213). -/
  mCause : Cause
  /-- The cause of the last trap into (H)S-mode (60_exceptions.md R213). -/
  sCause : Cause
  /-- The cause of the last trap into VS-mode (60_exceptions.md R213). -/
  vsCause : Cause
  /-- The environment's translation state, an uninterpreted token (20_memory.md R95; log 21). -/
  translation : Word
  /-- A `wfi` is waiting (10_state.md R69). -/
  wfiWaiting : Bool
  /-- The model's own field: the inputs of the traps to come (60_exceptions.md R213; log 4). -/
  trapInputs : List TrapInput
  /-- The model's own field: the draws of the `wfi` steps to come (42_wfi_tvm_fences.md R167; log 4). -/
  wfiInputs : List WfiDraw
  /-- The model's own field: the draws of the reads under TVM to come (42_wfi_tvm_fences.md R177; log 4). -/
  tvmReadInputs : List Bool
  /-- The model's own field: the inputs `sret_new_V` to come (41_trap_return.md R159; log 4). -/
  sretVInputs : List Bool
  /-- The model's own field: what the environment does at the instruction boundaries to come (60_exceptions.md R205, R208, R210, R226;
  log 5, log 40). -/
  envEvents : List (Option EnvEvent)
  /-- The model's own field: how many free values have been drawn (log 4). -/
  drawCount : Nat
deriving DecidableEq, Repr

/-- Why the machine stops with a fault. -/
inductive Fault where
  /-- Raised by a fetch or a data access of a byte of memory that has no value: nothing has written it and the spec gives the
  environment's memory no contents (20_memory.md R84, R93). Safe: the model stops where the hardware reads some byte. -/
  | unspecifiedMemory (address : Nat)
deriving DecidableEq, Repr

/-- Why an instruction is given no meaning. Each is safe: the model stops where the hardware goes on. -/
inductive Refusal where
  /-- Raised by an arm of `exec` for an instruction that has no meaning yet; no arm does. -/
  | notModelled (mnemonic : String)
  /-- Raised by a step at a word of no row of the opcode table (30_encoding.md R113, D34, U24). -/
  | outsideSpec (why : DecodeRefusal)
  /-- Raised by a CSR access instruction naming a number the spec does not define (D34, U24). -/
  | undefinedCsr (csr : CsrNum)
  /-- Raised by a CSR access instruction naming `misa` where the CSR does not exist (10_state.md R73; log 15). -/
  | misaAbsent
  /-- Raised by `sret` in VS-mode (41_trap_return.md R157, D30, U23). -/
  | sretInVsMode
  /-- Raised by an operation of 42_wfi_tvm_fences.md R170 to R178 in VS-mode where `hstatus.VTVM` traps it: the spec names that
  control and does not describe the trap (R179, U23). -/
  | vtvmTrapUndescribed
deriving DecidableEq, Repr

/-- The values the reset draws give the fields whose reset value is `UNDEFINED_LEGAL` (70_reset_and_hazards.md R241). -/
structure ResetDraws where
  mpv : Bool
  sxl : Width
  uxl : Width
  tsr : Bool
  tw : Bool
  tvm : Bool
  mxr : Bool
  sum : Bool
  fs : BitVec 2
  vs : BitVec 2
  spp : Bool
  mpie : Bool
  spie : Bool
  sie : Bool
deriving DecidableEq, Repr

/-- Every free draw 0 and both widths 64 bits: the draws of `State.reset` (DESIGN CHOICE, unsafe; log 2). -/
def ResetDraws.zero : ResetDraws where
  mpv := false
  sxl := .w64
  uxl := .w64
  tsr := false
  tw := false
  tvm := false
  mxr := false
  sum := false
  fs := 0
  vs := 0
  spp := false
  mpie := false
  spie := false
  sie := false

/-- `mstatus` right after reset: the fixed values of 70_reset_and_hazards.md R241 and the draws. -/
def Mstatus.atReset (d : ResetDraws) : Mstatus where
  mpv := d.mpv
  gva := false
  sxl := d.sxl
  uxl := d.uxl
  tsr := d.tsr
  tw := d.tw
  tvm := d.tvm
  mxr := d.mxr
  sum := d.sum
  mprv := false
  fs := d.fs
  mpp := .m
  vs := d.vs
  spp := d.spp
  mpie := d.mpie
  spie := d.spie
  mie := false
  sie := d.sie

/-- The machine right after reset, in the configuration `p`, with the draws `d` and the reset vector `vector`
(70_reset_and_hazards.md R240 to R246). Registers outside `mstatus` that the spec gives no reset value hold 0 (log 3). There is one kind
of reset, and it is the initial state alone: no step and no input of the environment re-enters it (R240 and D24 leave the kinds and
the triggers of a reset open; DESIGN CHOICE, unsafe; log 43). The script `envEvents` starts exhausted, so in a run from here no interrupt
is ever presented, although R246 leaves a pending interrupt to the environment (DESIGN CHOICE, unsafe; log 44). -/
def State.resetWith (p : Params) (d : ResetDraws) (vector : Word) : State where
  params := p
  mstatus := Mstatus.atReset d
  priv := .m
  v := false
  pc := vector
  regs := Vector.replicate 32 0
  mem := []
  misa := { s := p.extS, f := p.extF, v := p.extV, rest := 0 }
  mie := 0
  mtval := 0
  sie := 0
  satp := 0
  hstatus := { vtsr := false, vtvm := false, rest := 0 }
  hgatp := 0
  vsstatus := { spp := false, rest := 0 }
  fcsr := 0
  mRetAddr := 0
  sRetAddr := 0
  vsRetAddr := 0
  mCause := .noTrapYet
  sCause := .noTrapYet
  vsCause := .noTrapYet
  translation := 0
  wfiWaiting := false
  trapInputs := []
  wfiInputs := []
  tvmReadInputs := []
  sretVInputs := []
  envEvents := []
  drawCount := 0

/-- The machine right after reset: configuration REF-A (log 1), every free draw 0 (log 2), reset vector 0 (log 3). -/
def State.reset : State := State.resetWith Params.refA ResetDraws.zero 0

end Sys2Proof.Machine
end

