-- ==== Sys2Proof/Machine/FreeValues.lean ====
section
/-! DEFINITION. The free values that depend on the whole state of the hart: `UNDEFINED_LEGAL_DETERMINISTIC` (00_scope.md R16, D15) and
the effect of a fence on translation state (D13). Constants with no body: a claim about them holds for every value. -/

namespace Sys2Proof

/-- The fences of 42_wfi_tvm_fences.md R170 to R176. -/
inductive Fence where
  | sfenceVma
  | sinvalVma
  | hfenceGvma
  | hinvalGvma
  | hfenceVvma
  | sfenceWInval
  | sfenceInvalIr
deriving DecidableEq, Repr

namespace Config

open Sys2Proof.Machine

/-- Free value: which legal value `LegalDet_MPP(old, csr_value)` is, as an index into the legal set (40_csr_access.md R127; log 10). -/
opaque legalDetMpp : State → Word → Nat

/-- Free value: which legal pair `LegalDet_XL(old, csr_value)` is, as an index into the legal pairs (40_csr_access.md R128; log 10). -/
opaque legalDetXl : State → Word → Nat

/-- Free value: which legal value `LegalDet_FS(old, csr_value)` is, as an index into the legal set (40_csr_access.md R131; log 10). -/
opaque legalDetFs : State → Word → Nat

/-- Free value: which legal value `LegalDet_VS(old, csr_value)` is, as an index into the legal set (40_csr_access.md R132; log 10). -/
opaque legalDetVs : State → Word → Nat

/-- Free value: the translation state after a fence that named the given registers, in the given state (20_memory.md R95, D13; log 21). -/
opaque fenceEffect : Fence → RegNum → RegNum → State → Word

end Config

namespace Machine

/-- The hart's state with the model's own bookkeeping (the scripts of inputs, the count of draws) erased: what a deterministic
free value may depend on (00_scope.md R16; log 10). -/
def State.architectural (s : State) : State :=
  { s with
    trapInputs := []
    wfiInputs := []
    tvmReadInputs := []
    sretVInputs := []
    envEvents := []
    drawCount := 0 }

end Machine

end Sys2Proof
end

