-- ==== Sys2Proof/Machine/Flags.lean ====
section
/-! DEFINITION. The fields of `mstatus`: how they read (10_state.md R28), their types and legal sets (R23, R30, R39 to R57), the
software write (40_csr_access.md R120 to R132), and the hardware update of FS and VS (43_fp_vector_status.md R192, R195). -/

namespace Sys2Proof.Machine

/-- The encoding of a privilege level: U 0, S 1, M 3 (00_scope.md R17). -/
def privBits : Priv → BitVec 2
  | .u => 0
  | .s => 1
  | .m => 3

/-- The privilege level an MPP value encodes; 2 encodes none (10_state.md R54). -/
def privOfBits (b : BitVec 2) : Option Priv :=
  if b = 0 then some .u else if b = 1 then some .s else if b = 3 then some .m else none

/-- `enc(w)`, the encoding of a width in SXL and UXL: 1 = 32-bit, 2 = 64-bit (10_state.md R40, R42; 90_conflicts.md C3). -/
def widthBits : Width → BitVec 2
  | .w32 => 1
  | .w64 => 2

/-- The width an SXL or UXL value encodes; 0 and 3 encode none (10_state.md R40). -/
def widthOfBits (b : BitVec 2) : Option Width :=
  if b = 1 then some .w32 else if b = 2 then some .w64 else none

/-! ### Hardwired and computed fields -/

/-- MBE is hardwired to 0 (10_state.md R37). -/
def mbeBit : Bool := false

/-- SBE is hardwired to 0 (10_state.md R38). -/
def sbeBit : Bool := false

/-- UBE is hardwired to 0 (10_state.md R62). -/
def ubeBit : Bool := false

/-- XS is hardwired to 0 (10_state.md R51). -/
def xsBits : BitVec 2 := 0

/-- SD summarizes dirty state: FS, XS or VS is 3 (10_state.md R32). -/
def sdBit (m : Mstatus) : Bool := m.fs == 3 || xsBits == 3 || m.vs == 3

/-- One bit of a register value, as a bit vector. -/
def bit (b : Bool) : BitVec 1 := BitVec.ofBool b

/-- `ReadMstatus()`: each field at its location, zero elsewhere (10_state.md R25, R28). -/
def readMstatus (m : Mstatus) : Word :=
  bit (sdBit m) ++ (0 : BitVec 23) ++ bit m.mpv ++ bit m.gva ++ bit mbeBit ++ bit sbeBit ++ widthBits m.sxl ++ widthBits m.uxl
    ++ (0 : BitVec 9) ++ bit m.tsr ++ bit m.tw ++ bit m.tvm ++ bit m.mxr ++ bit m.sum ++ bit m.mprv ++ xsBits ++ m.fs
    ++ privBits m.mpp ++ m.vs ++ bit m.spp ++ bit m.mpie ++ bit ubeBit ++ bit m.spie ++ (0 : BitVec 1) ++ bit m.mie
    ++ (0 : BitVec 1) ++ bit m.sie ++ (0 : BitVec 1)

/-! ### Types and legal sets -/

/-- The access type of a field (00_scope.md R14). -/
inductive AccessType where
  | ro
  | rw
  | rwH
deriving DecidableEq, Repr

/-- `CSR[misa].S`, or `EXT_S` where there is no `misa` (10_state.md R26, D9). -/
def misaS (s : State) : Bool := if s.params.misaImplemented then s.misa.s else s.params.extS

/-- `CSR[misa].F`, or `EXT_F` where there is no `misa` (10_state.md R26, D9). -/
def misaF (s : State) : Bool := if s.params.misaImplemented then s.misa.f else s.params.extF

/-- `CSR[misa].V`, or `EXT_V` where there is no `misa` (10_state.md R26, D9). -/
def misaV (s : State) : Bool := if s.params.misaImplemented then s.misa.v else s.params.extV

/-- The type of SXL (10_state.md R39). -/
def sxlType (p : Params) : AccessType := if p.extS && decide (p.sxlen.length > 1) then .rw else .ro

/-- The type of UXL (10_state.md R42). -/
def uxlType (p : Params) : AccessType := if p.uxlen.length > 1 then .rw else .ro

/-- The type of TVM (10_state.md R46). -/
def tvmType (s : State) : AccessType := if misaS s then .rw else .ro

/-- The case of 10_state.md R52 or R57 that a context-status field is in. -/
inductive ContextKind where
  /-- RW-H: every value is legal, and hardware sets 3. -/
  | rwH
  /-- RO by the `misa` clause: hardwired to 0 (D9). -/
  | roZero
  /-- RO by the list clause: hardwired to the single legal value. -/
  | roSingle (value : BitVec 2)
  /-- RW: the legal values, and no hardware update. -/
  | rw (legal : List (BitVec 2))
deriving DecidableEq, Repr

/-- The type conditions of 10_state.md R52 and R57, in their order. -/
def contextKind (ext misaImplemented bitS bitX : Bool) (legal : List (BitVec 2)) : ContextKind :=
  if ext && (!misaImplemented || bitX) then .rwH
  else if misaImplemented && !bitS && !bitX then .roZero
  else
    match legal with
    | [value] => .roSingle value
    | values => .rw values

/-- The case FS is in (10_state.md R52). -/
def fsKind (s : State) : ContextKind :=
  contextKind s.params.extF s.params.misaImplemented (misaS s) (misaF s) s.params.fsLegalValues

/-- The case VS is in (10_state.md R57). -/
def vsKind (s : State) : ContextKind :=
  contextKind s.params.extV s.params.misaImplemented (misaS s) (misaV s) s.params.vsLegalValues

/-- The legal set of a context-status field (10_state.md R30). -/
def contextLegal : ContextKind → List (BitVec 2)
  | .rwH => [0, 1, 2, 3]
  | .roZero => [0]
  | .roSingle value => [value]
  | .rw legal => legal

/-- The legal set of MPP (10_state.md R30, D29). -/
def mppLegal (p : Params) : List Priv :=
  (if p.extU then [.u] else []) ++ (if p.extS then [.s] else []) ++ [.m]

/-- The widths SXL may take from the state `old`: all supported ones when it is RW, the held one when it is RO. -/
def sxlChoices (p : Params) (old : Mstatus) : List Width := if sxlType p = .rw then p.sxlen else [old.sxl]

/-- The widths UXL may take from the state `old`. -/
def uxlChoices (p : Params) (old : Mstatus) : List Width := if uxlType p = .rw then p.uxlen else [old.uxl]

/-- The legal pairs (SXL, UXL) that keep every RO member (10_state.md R30, R41; 40_csr_access.md R128). -/
def xlPairs (p : Params) (old : Mstatus) : List (Width × Width) :=
  (sxlChoices p old).flatMap fun sx => ((uxlChoices p old).filter fun ux => ux.le sx).map fun ux => (sx, ux)

/-- The member of a list that a free value selects; the default where the list is empty. -/
def pick {α : Type} (choices : List α) (index : Nat) (default : α) : α := choices.getD (index % choices.length) default

/-! ### The software write -/

/-- `sw_write_MPP` (40_csr_access.md R127). -/
def swWriteMpp (old : State) (csrValue : Word) : Priv :=
  match privOfBits (csrValue.extractLsb' 11 2) with
  | some p =>
    if p ∈ mppLegal old.params then p
    else pick (mppLegal old.params) (Config.legalDetMpp old.architectural csrValue) .m
  | none => pick (mppLegal old.params) (Config.legalDetMpp old.architectural csrValue) .m

/-- The width a field presents to R128: the written one when the field is RW, the held one when it is RO. -/
def presentedWidth (type : AccessType) (written : BitVec 2) (held : Width) : Option Width :=
  if type = .rw then widthOfBits written else some held

/-- `sw_write_XL` (40_csr_access.md R128): the pair (SXL, UXL). -/
def swWriteXl (old : State) (csrValue : Word) : Width × Width :=
  let p := old.params
  let m := old.mstatus
  let chosen := pick (xlPairs p m) (Config.legalDetXl old.architectural csrValue) (m.sxl, m.uxl)
  match presentedWidth (sxlType p) (csrValue.extractLsb' 34 2) m.sxl,
      presentedWidth (uxlType p) (csrValue.extractLsb' 32 2) m.uxl with
  | some sx, some ux => if sx ∈ p.sxlen ∧ ux ∈ p.uxlen ∧ ux.le sx then (sx, ux) else chosen
  | _, _ => chosen

/-- `sw_write_SPP` (40_csr_access.md R129): always bit 8. -/
def swWriteSpp (csrValue : Word) : Bool := csrValue.getLsbD 8

/-- `sw_write_TVM` (40_csr_access.md R130). -/
def swWriteTvm (old : State) (csrValue : Word) : Bool :=
  if tvmType old = .rw then csrValue.getLsbD 20 else old.mstatus.tvm

/-- `sw_write_FS` and `sw_write_VS` (40_csr_access.md R131, R132), given the field's case, held and written value. -/
def swWriteContext (kind : ContextKind) (held written : BitVec 2) (index : Nat) : BitVec 2 :=
  match kind with
  | .rwH => written
  | .roZero => held
  | .roSingle _ => held
  | .rw legal => if written ∈ legal then written else pick legal index held

/-- `sw_write_FS` (40_csr_access.md R131). -/
def swWriteFs (old : State) (csrValue : Word) : BitVec 2 :=
  swWriteContext (fsKind old) old.mstatus.fs (csrValue.extractLsb' 13 2) (Config.legalDetFs old.architectural csrValue)

/-- `sw_write_VS` (40_csr_access.md R132). -/
def swWriteVs (old : State) (csrValue : Word) : BitVec 2 :=
  swWriteContext (vsKind old) old.mstatus.vs (csrValue.extractLsb' 9 2) (Config.legalDetVs old.architectural csrValue)

/-- `WriteMstatus(csr_value)` (40_csr_access.md R126): every field is computed from the value and the state before the write
(R123); SD, MBE, SBE, XS, UBE and the unnamed bits ignore it (R120, R125). -/
def writeMstatus (old : State) (csrValue : Word) : Mstatus where
  mpv := csrValue.getLsbD 39
  gva := csrValue.getLsbD 38
  sxl := (swWriteXl old csrValue).1
  uxl := (swWriteXl old csrValue).2
  tsr := csrValue.getLsbD 22
  tw := csrValue.getLsbD 21
  tvm := swWriteTvm old csrValue
  mxr := csrValue.getLsbD 19
  sum := csrValue.getLsbD 18
  mprv := csrValue.getLsbD 17
  fs := swWriteFs old csrValue
  mpp := swWriteMpp old csrValue
  vs := swWriteVs old csrValue
  spp := swWriteSpp csrValue
  mpie := csrValue.getLsbD 7
  spie := csrValue.getLsbD 5
  mie := csrValue.getLsbD 3
  sie := csrValue.getLsbD 1

/-! ### Hardware updates of FS and VS -/

/-- A context-status field after its state was written: 3 when it is not 0 and its type is RW-H (43_fp_vector_status.md R192,
R195). -/
def dirtied (kind : ContextKind) (held : BitVec 2) : BitVec 2 := if kind = .rwH ∧ held ≠ 0 then 3 else held

/-- FS after floating-point state was written (43_fp_vector_status.md R192). -/
def fsDirtied (s : State) : BitVec 2 := dirtied (fsKind s) s.mstatus.fs

/-- VS after vector state was written (43_fp_vector_status.md R195). -/
def vsDirtied (s : State) : BitVec 2 := dirtied (vsKind s) s.mstatus.vs

/-- Floating point is disabled: FS is 0 (43_fp_vector_status.md R191), or, with `V = 1`, the second status field in `vsstatus` is
off (R191; log 16). -/
def fpDisabled (s : State) : Bool := s.mstatus.fs == 0 || (s.v && Config.vsstatusFsOff s.vsstatus)

/-- Vector is disabled: VS is 0 (43_fp_vector_status.md R194), or, with `V = 1`, the second status field in `vsstatus` is off
(log 16). -/
def vectorDisabled (s : State) : Bool := s.mstatus.vs == 0 || (s.v && Config.vsstatusVsOff s.vsstatus)

/-- The state after floating-point state was written (43_fp_vector_status.md R192); with `V = 1`, `vsstatus` records it as well
(log 16). -/
def State.fpWritten (s : State) : State :=
  { s with
    mstatus := { s.mstatus with fs := fsDirtied s }
    vsstatus := if s.v then Config.vsstatusFpWritten s.vsstatus else s.vsstatus }

/-- The state after vector state was written (43_fp_vector_status.md R195); with `V = 1`, `vsstatus` records it as well (log 16). -/
def State.vectorWritten (s : State) : State :=
  { s with
    mstatus := { s.mstatus with vs := vsDirtied s }
    vsstatus := if s.v then Config.vsstatusVectorWritten s.vsstatus else s.vsstatus }

/-- A context-status field after a change of `misa`: the RO value at once, a legal value kept (10_state.md R26, D9, U27; log 15). -/
def settledContext (kind : ContextKind) (held : BitVec 2) (index : Nat) : BitVec 2 :=
  match kind with
  | .rwH => held
  | .roZero => 0
  | .roSingle value => value
  | .rw legal => if held ∈ legal then held else pick legal index held

/-- `mstatus` after a change of `misa` left the state `s`: each field whose type turned RO holds its RO value (D9, U27; log 15). -/
def settledMstatus (s : State) : Mstatus :=
  { s.mstatus with
    tvm := if tvmType s = .rw then s.mstatus.tvm else false
    fs := settledContext (fsKind s) s.mstatus.fs (Config.legalDetFs s.architectural (readMstatus s.mstatus))
    vs := settledContext (vsKind s) s.mstatus.vs (Config.legalDetVs s.architectural (readMstatus s.mstatus)) }

end Sys2Proof.Machine
end

