-- ==== Sys2Proof/Machine/Operands.lean ====
section
/-! DEFINITION. General registers and the operand forms of the instructions (10_state.md R70; 30_encoding.md R101, R102, R104;
40_csr_access.md R133 to R138, R140). -/

namespace Sys2Proof.Machine

/-- `x[r]`: the register x0 reads as zero (10_state.md R70). -/
def State.readReg (s : State) (r : RegNum) : Word := if r = 0 then 0 else s.regs[r.toNat]

/-- `x[r] <- value`: a write to x0 is ignored (10_state.md R70). -/
def State.writeReg (s : State) (r : RegNum) (value : Word) : State :=
  if r = 0 then s else { s with regs := s.regs.set r.toNat value }

/-- What a CSR access instruction does with the CSR (40_csr_access.md R133 to R135). -/
inductive CsrOp where
  | write
  | set
  | clear
deriving DecidableEq, Repr

/-- The source operand of a CSR access instruction: a register (R101) or an immediate (R102). -/
inductive CsrSource where
  | reg (r : RegNum)
  | imm (uimm : BitVec 5)
deriving DecidableEq, Repr

/-- The value of a source operand; an immediate is zero-extended (30_encoding.md R104). -/
def sourceValue (s : State) : CsrSource → Word
  | .reg r => s.readReg r
  | .imm uimm => uimm.setWidth 64

/-- The 5-bit field of a source operand: the NUMBER of the register, or the immediate. -/
def sourceField : CsrSource → BitVec 5
  | .reg r => r
  | .imm uimm => uimm

/-- Whether the instruction writes the CSR: the set and clear forms do not when the source field is 0 (40_csr_access.md R134,
R135, R137, R138). -/
def performsWrite (op : CsrOp) (source : CsrSource) : Bool := op == .write || sourceField source != 0

/-- The value presented to the CSR, from its old value and the source (40_csr_access.md R140). -/
def presentedValue (op : CsrOp) (old source : Word) : Word :=
  match op with
  | .write => source
  | .set => old ||| source
  | .clear => old &&& ~~~source

end Sys2Proof.Machine
end

