-- ==== Sys2Proof/Machine/Ops.lean ====
section
/-! DEFINITION. The shared operations: advancing `pc`, drawing an input of the environment, taking a trap (60_exceptions.md R213 to
R216) and returning from one (41_trap_return.md R150, R155), and the checks the instructions share. -/

namespace Sys2Proof.Machine

/-- `pc <- pc + 4` (10_state.md R71); it wraps at 64 bits (DESIGN CHOICE, unsafe; log 24). -/
def State.advance (s : State) : State := { s with pc := s.pc + 4 }

/-! ### Inputs of the environment (00_scope.md R9; log 4) -/

/-- The inputs of the next trap: the head of the script, or a free value. -/
def State.nextTrapInput (s : State) : TrapInput := s.trapInputs.headD (Config.freeTrapInput s.drawCount)

/-- The state after the inputs of a trap were drawn. -/
def State.dropTrapInput (s : State) : State :=
  { s with
    trapInputs := s.trapInputs.tail
    drawCount := if s.trapInputs.isEmpty then s.drawCount + 1 else s.drawCount }

/-- The draw of the next step of `wfi`. -/
def State.nextWfiDraw (s : State) : WfiDraw := s.wfiInputs.headD (Config.freeWfiDraw s.drawCount)

/-- The state after a step of `wfi` made its draw. -/
def State.dropWfiDraw (s : State) : State :=
  { s with
    wfiInputs := s.wfiInputs.tail
    drawCount := if s.wfiInputs.isEmpty then s.drawCount + 1 else s.drawCount }

/-- Whether the next read of `satp` or `hgatp` under TVM traps (D31). -/
def State.nextTvmReadTraps (s : State) : Bool := s.tvmReadInputs.headD (Config.freeTvmReadTraps s.drawCount)

/-- The state after a read under TVM made its draw. -/
def State.dropTvmRead (s : State) : State :=
  { s with
    tvmReadInputs := s.tvmReadInputs.tail
    drawCount := if s.tvmReadInputs.isEmpty then s.drawCount + 1 else s.drawCount }

/-- The input `sret_new_V` of the next `sret` (D28). -/
def State.nextSretV (s : State) : Bool := s.sretVInputs.headD (Config.freeSretNewV s.drawCount)

/-- The state after an `sret` drew its input. -/
def State.dropSretV (s : State) : State :=
  { s with
    sretVInputs := s.sretVInputs.tail
    drawCount := if s.sretVInputs.isEmpty then s.drawCount + 1 else s.drawCount }

/-! ### Trap entry -/

/-- The cause code of an exception the spec names (60_exceptions.md R203, D23): the spec gives none for an exception of the
environment or an interrupt (log 8). -/
def causeCode : Cause → Option Nat
  | .noTrapYet => none
  | .illegalInstruction => some 2
  | .pageFault .fetch => some 12
  | .pageFault .load => some 13
  | .pageFault .store => some 15
  | .environment _ => none
  | .interrupt _ => none

/-- The target of a trap from the state `s` when the environment names `target`: a trap from M-mode goes to M-mode, none goes to
an absent mode or below the one it came from, and only a trap from `V = 1` goes to VS-mode (60_exceptions.md R213, R215, R216,
R227). What is not admissible is taken as M (log 6). -/
def admissibleTarget (s : State) (target : TrapTarget) : TrapTarget :=
  if s.priv = .m then .m
  else
    match target with
    | .m => .m
    | .s => if s.params.extS then .s else .m
    | .vs => if s.params.extS && s.params.extH && s.v then .vs else .m

/-- Trap entry into M-mode (60_exceptions.md R214); GVA is 0 without the hypervisor feature set (D27; log 37); `mtval` takes the
environment's value (R204; log 36), the return address and the cause are stored beside `mstatus` (R213; log 7, log 8). -/
def trapEntryM (input : TrapInput) (cause : Cause) (s : State) : State :=
  { s with
    mstatus := { s.mstatus with
      mpv := s.v
      gva := input.gva && s.params.extH
      mpp := s.priv
      mpie := s.mstatus.mie
      mie := false }
    priv := .m
    v := false
    pc := s.params.mVector
    mtval := input.tval
    mRetAddr := input.retAddr
    mCause := cause
    wfiWaiting := false }

/-- Trap entry into (H)S-mode (60_exceptions.md R215); `hstatus` records the prior virtualization mode where it exists (log 31). -/
def trapEntryS (input : TrapInput) (cause : Cause) (s : State) : State :=
  { s with
    mstatus := { s.mstatus with
      spp := s.priv == .s
      spie := s.mstatus.sie
      sie := false }
    priv := .s
    v := false
    pc := s.params.sVector
    hstatus := if s.params.extH then { s.hstatus with rest := Config.hstatusTrapRecord s.hstatus.rest s.v } else s.hstatus
    sRetAddr := input.retAddr
    sCause := cause
    wfiWaiting := false }

/-- Trap entry into VS-mode (60_exceptions.md R216): no field of `mstatus` changes; it uses `vsstatus` (log 30). -/
def trapEntryVs (input : TrapInput) (cause : Cause) (s : State) : State :=
  { s with
    priv := .s
    v := true
    pc := s.params.vsVector
    vsstatus := Config.vsstatusTrapRecord s.vsstatus s.priv
    vsRetAddr := input.retAddr
    vsCause := cause
    wfiWaiting := false }

/-- Trap entry into a given target mode (60_exceptions.md R214 to R216). -/
def trapEntryInto (target : TrapTarget) (input : TrapInput) (cause : Cause) (s : State) : State :=
  match target with
  | .m => trapEntryM input cause s
  | .s => trapEntryS input cause s
  | .vs => trapEntryVs input cause s

/-- Taking an exception (60_exceptions.md R213): the inputs are drawn, the target is admissible, the raising instruction has
written nothing. -/
def takeTrap (cause : Cause) (s : State) : State :=
  trapEntryInto (admissibleTarget s s.nextTrapInput.target) s.nextTrapInput cause s.dropTrapInput

/-- `raise <Exception>` (00_scope.md R17). -/
def raise (cause : Cause) (s : State) : Host.Outcome State Fault Refusal := .next (takeTrap cause s)

/-- Taking an interrupt (60_exceptions.md R208): trap entry into its handler mode. -/
def takeInterrupt (i : Interrupt) (s : State) : State :=
  match i.handler with
  | .m => trapEntryInto .m s.nextTrapInput (.interrupt i.number) s.dropTrapInput
  | .s => trapEntryInto .s s.nextTrapInput (.interrupt i.number) s.dropTrapInput

/-! ### Trap return -/

/-- What `mret` does in M-mode (41_trap_return.md R150, R152, R153): every right-hand side uses the values before it. -/
def returnFromM (s : State) : State :=
  { s with
    mstatus := { s.mstatus with
      mie := s.mstatus.mpie
      mpie := true
      mpp := if s.params.extU then .u else .m
      mprv := if s.mstatus.mpp = .m ∧ s.params.mprvClearedOnReturnToM = false then s.mstatus.mprv else false
      mpv := match s.params.mpvAfterMret with
        | .unchanged => s.mstatus.mpv
        | .zero => false }
    priv := s.mstatus.mpp
    v := if s.mstatus.mpp = .m ∨ s.params.extH = false then false else s.mstatus.mpv
    pc := s.mRetAddr }

/-- What `sret` does where it executes (41_trap_return.md R155, R153), given the virtualization mode it enters (R159). -/
def returnFromS (newV : Bool) (s : State) : State :=
  { s with
    mstatus := { s.mstatus with
      sie := s.mstatus.spie
      spie := true
      spp := false
      mprv := false }
    priv := if s.mstatus.spp then .s else .u
    v := newV
    pc := s.sRetAddr }

/-! ### Shared checks -/

/-- `tvm_trap` (42_wfi_tvm_fences.md R169). -/
def tvmTrap (s : State) : Bool := s.mstatus.tvm && s.priv == .s && !s.v

/-- The hart is in VS-mode (60_exceptions.md R229). -/
def inVsMode (s : State) : Bool := s.priv == .s && s.v

end Sys2Proof.Machine
end

