-- ==== Sys2Proof/Machine/CsrAccess.lean ====
section
/-! DEFINITION. The six CSR access instructions (40_csr_access.md R121, R122, R133 to R138) on every CSR the spec defines: `mstatus`;
`satp` and `hgatp` under TVM (42_wfi_tvm_fences.md R177, R178); `fcsr` under FS (43_fp_vector_status.md R190 to R192); the others
of 30_encoding.md R107 (log 13). -/

namespace Sys2Proof.Machine

/-- The value a read of a CSR returns (40_csr_access.md R122; log 13). A read changes nothing. -/
def csrRead (s : State) : CsrName → Word
  | .mstatus => readMstatus s.mstatus
  | .misa => Config.misaWord s.misa
  | .mie => s.mie
  | .mtval => s.mtval
  | .sie => s.sie
  | .satp => s.satp
  | .hstatus => Config.hstatusWord s.hstatus
  | .hgatp => s.hgatp
  | .vsstatus => Config.vsstatusWord s.vsstatus
  | .fcsr => s.fcsr

/-- A write of `misa`: what it keeps is free, and a field of `mstatus` whose type turns RO holds its RO value at once (10_state.md
R26, D9, U27; log 15). -/
def writeMisa (s : State) (value : Word) : State :=
  let changed := { s with misa := Config.misaKeeps s.misa value }
  { changed with mstatus := settledMstatus changed }

/-- A write of `fcsr`: what it keeps is free (log 16), and FS obtains the value 3 (43_fp_vector_status.md R192). -/
def writeFcsr (s : State) (value : Word) : State :=
  { s with fcsr := Config.csrKeeps (csrNumber .fcsr) s.fcsr value }.fpWritten

/-- A write of a CSR: of `mstatus`, the software write of 40_csr_access.md R126; of another, what it keeps is free (log 13). -/
def csrWrite (s : State) (name : CsrName) (value : Word) : State :=
  match name with
  | .mstatus => { s with mstatus := writeMstatus s value }
  | .misa => writeMisa s value
  | .mie => { s with mie := Config.csrKeeps (csrNumber .mie) s.mie value }
  | .mtval => { s with mtval := Config.csrKeeps (csrNumber .mtval) s.mtval value }
  | .sie => { s with sie := Config.csrKeeps (csrNumber .sie) s.sie value }
  | .satp => { s with satp := Config.csrKeeps (csrNumber .satp) s.satp value }
  | .hstatus => { s with hstatus := Config.hstatusKeeps s.hstatus value }
  | .hgatp => { s with hgatp := Config.csrKeeps (csrNumber .hgatp) s.hgatp value }
  | .vsstatus => { s with vsstatus := Config.vsstatusKeeps s.vsstatus value }
  | .fcsr => writeFcsr s value

/-- The privilege a CSR number asks for (30_encoding.md R107, 40_csr_access.md R121, D22): level 3 is M-mode, level 1 (H)S-mode or
VS-mode, level 2 (H)S-mode with `V = 0`, level 0 any mode; M-mode reaches every one (log 14). -/
def csrAccessible (s : State) (csr : CsrNum) : Bool :=
  s.priv == .m
    || csrLevel csr == 0
    || (csrLevel csr == 1 && s.priv == .s)
    || (csrLevel csr == 2 && s.priv == .s && !s.v)

/-- The CSR is one whose access TVM may trap (42_wfi_tvm_fences.md R177, R178). -/
def tvmGuarded : CsrName → Bool
  | .satp => true
  | .hgatp => true
  | _ => false

/-- An access of `fcsr` that is in the class `is_fp` while floating point is disabled (43_fp_vector_status.md R190, R191, GK14;
log 16). -/
def fcsrDisabled (s : State) (name : CsrName) : Bool := name == .fcsr && s.params.fcsrIsFp && fpDisabled s

/-- The read and write of a CSR access instruction that executes, one indivisible step (20_memory.md R92; 40_csr_access.md R133 to
R138): `rd` gets the old value. -/
def csrExecute (op : CsrOp) (rd : RegNum) (name : CsrName) (source : CsrSource) (s : State) : State :=
  let old := csrRead s name
  let written :=
    if performsWrite op source then csrWrite s name (presentedValue op old (sourceValue s source)) else s
  (written.writeReg rd old).advance

/-- A CSR access instruction: the privilege check (40_csr_access.md R121), the checks TVM and FS control (60_exceptions.md R212),
then execution. A read under TVM is a draw (D31). -/
def csrAccess (op : CsrOp) (rd : RegNum) (csr : CsrNum) (source : CsrSource) (s : State) : Host.Outcome State Fault Refusal :=
  match csrOfNumber csr with
  | none => .refused (.undefinedCsr csr)
  | some name =>
    if name = .misa ∧ s.params.misaImplemented = false then .refused .misaAbsent
    else if csrAccessible s csr = false then raise .illegalInstruction s
    else if tvmGuarded name ∧ tvmTrap s then
      if performsWrite op source then raise .illegalInstruction s
      else if s.nextTvmReadTraps then raise .illegalInstruction s.dropTvmRead
      else .next (csrExecute op rd name source s.dropTvmRead)
    else if tvmGuarded name ∧ inVsMode s ∧ s.hstatus.vtvm then .refused .vtvmTrapUndescribed
    else if fcsrDisabled s name then raise .illegalInstruction s
    else .next (csrExecute op rd name source s)

/-- `csrrw rd, csr, rs1` (40_csr_access.md R133). -/
def execCsrrw (rd : RegNum) (csr : CsrNum) (rs1 : RegNum) (s : State) : Host.Outcome State Fault Refusal :=
  csrAccess .write rd csr (.reg rs1) s

/-- `csrrs rd, csr, rs1` (40_csr_access.md R134). -/
def execCsrrs (rd : RegNum) (csr : CsrNum) (rs1 : RegNum) (s : State) : Host.Outcome State Fault Refusal :=
  csrAccess .set rd csr (.reg rs1) s

/-- `csrrc rd, csr, rs1` (40_csr_access.md R135). -/
def execCsrrc (rd : RegNum) (csr : CsrNum) (rs1 : RegNum) (s : State) : Host.Outcome State Fault Refusal :=
  csrAccess .clear rd csr (.reg rs1) s

/-- `csrrwi rd, csr, uimm` (40_csr_access.md R136). -/
def execCsrrwi (rd : RegNum) (csr : CsrNum) (uimm : BitVec 5) (s : State) : Host.Outcome State Fault Refusal :=
  csrAccess .write rd csr (.imm uimm) s

/-- `csrrsi rd, csr, uimm` (40_csr_access.md R137). -/
def execCsrrsi (rd : RegNum) (csr : CsrNum) (uimm : BitVec 5) (s : State) : Host.Outcome State Fault Refusal :=
  csrAccess .set rd csr (.imm uimm) s

/-- `csrrci rd, csr, uimm` (40_csr_access.md R138). -/
def execCsrrci (rd : RegNum) (csr : CsrNum) (uimm : BitVec 5) (s : State) : Host.Outcome State Fault Refusal :=
  csrAccess .clear rd csr (.imm uimm) s

end Sys2Proof.Machine
end

