-- ==== Sys2Proof/Machine/Fences.lean ====
section
/-! DEFINITION. The translation fences (42_wfi_tvm_fences.md R170 to R176, R179, R180). A fence that executes changes no field of
`mstatus` and has the environment's effect on translation state (20_memory.md R95, D13; log 21). -/

namespace Sys2Proof.Machine

/-- The effect of a fence that executes, and `pc <- pc + 4`. -/
def fenceExecute (fence : Fence) (rs1 rs2 : RegNum) (s : State) : State :=
  { s with translation := Config.fenceEffect fence rs1 rs2 s.architectural }.advance

/-- A fence of the supervisor: Illegal Instruction in U-mode (R180), TVM where it traps this fence (R169), `hstatus.VTVM` in VS-mode
where TVM would trap it in (H)S-mode (R179, 10_state.md R73; log 18), then its effect. -/
def supervisorFence (fence : Fence) (underTvm : Bool) (rs1 rs2 : RegNum) (s : State) : Host.Outcome State Fault Refusal :=
  if s.priv = .u then raise .illegalInstruction s
  else if underTvm && tvmTrap s then raise .illegalInstruction s
  else if underTvm && inVsMode s && s.hstatus.vtvm then .refused .vtvmTrapUndescribed
  else .next (fenceExecute fence rs1 rs2 s)

/-- A fence of the hypervisor: it needs (H)S-mode with `V = 0` or M-mode (D22; log 17), then TVM where it traps this fence. -/
def hypervisorFence (fence : Fence) (underTvm : Bool) (rs1 rs2 : RegNum) (s : State) : Host.Outcome State Fault Refusal :=
  if s.priv = .u ∨ inVsMode s then raise .illegalInstruction s
  else if underTvm && tvmTrap s then raise .illegalInstruction s
  else .next (fenceExecute fence rs1 rs2 s)

/-- `sfence.vma rs1, rs2` (42_wfi_tvm_fences.md R170). -/
def execSfenceVma (rs1 rs2 : RegNum) (s : State) : Host.Outcome State Fault Refusal :=
  supervisorFence .sfenceVma true rs1 rs2 s

/-- `sinval.vma rs1, rs2` (42_wfi_tvm_fences.md R171). -/
def execSinvalVma (rs1 rs2 : RegNum) (s : State) : Host.Outcome State Fault Refusal :=
  supervisorFence .sinvalVma true rs1 rs2 s

/-- `hfence.gvma rs1, rs2` (42_wfi_tvm_fences.md R172). -/
def execHfenceGvma (rs1 rs2 : RegNum) (s : State) : Host.Outcome State Fault Refusal :=
  hypervisorFence .hfenceGvma true rs1 rs2 s

/-- `hinval.gvma rs1, rs2` (42_wfi_tvm_fences.md R173). -/
def execHinvalGvma (rs1 rs2 : RegNum) (s : State) : Host.Outcome State Fault Refusal :=
  hypervisorFence .hinvalGvma true rs1 rs2 s

/-- `hfence.vvma rs1, rs2` (42_wfi_tvm_fences.md R174): TVM does not trap it. -/
def execHfenceVvma (rs1 rs2 : RegNum) (s : State) : Host.Outcome State Fault Refusal :=
  hypervisorFence .hfenceVvma false rs1 rs2 s

/-- `sfence.w.inval` (42_wfi_tvm_fences.md R175): TVM does not trap it. -/
def execSfenceWInval (s : State) : Host.Outcome State Fault Refusal :=
  supervisorFence .sfenceWInval false 0 0 s

/-- `sfence.inval.ir` (42_wfi_tvm_fences.md R176): TVM does not trap it. -/
def execSfenceInvalIr (s : State) : Host.Outcome State Fault Refusal :=
  supervisorFence .sfenceInvalIr false 0 0 s

end Sys2Proof.Machine
end

