-- ==== Sys2Proof/Machine/TrapReturn.lean ====
section
/-! DEFINITION. The trap return instructions (41_trap_return.md). -/

namespace Sys2Proof.Machine

/-- `mret` (41_trap_return.md R150, R151): M-mode only. -/
def execMret (s : State) : Host.Outcome State Fault Refusal :=
  if s.priv ≠ .m then raise .illegalInstruction s else .next (returnFromM s)

/-- `sret` (41_trap_return.md R155 to R159): not in U-mode, not without S-mode; in VS-mode outside the subset (R157); trapped by
TSR in (H)S-mode. The virtualization mode it enters is an input, 0 without the hypervisor feature set (D28; log 32). -/
def execSret (s : State) : Host.Outcome State Fault Refusal :=
  if s.params.extS = false ∨ s.priv = .u then raise .illegalInstruction s
  else if inVsMode s then .refused .sretInVsMode
  else if s.priv = .s ∧ s.mstatus.tsr then raise .illegalInstruction s
  else if s.params.extH then .next (returnFromS s.nextSretV s.dropSretV)
  else .next (returnFromS false s)

end Sys2Proof.Machine
end

