-- ==== Sys2Proof/Machine/Wfi.lean ====
section
/-! DEFINITION. `wfi` (42_wfi_tvm_fences.md R165 to R168). -/

namespace Sys2Proof.Machine

/-- `wfi_may_trap` (42_wfi_tvm_fences.md R166). -/
def wfiMayTrap (s : State) : Bool := s.priv != .m && (s.mstatus.tw || s.priv == .u || s.v)

/-- One step of `wfi`: it raises Illegal Instruction where it may and the draw says so (R167), or goes on waiting, or completes
(R168). A draw of a trap where it may not trap completes it (log 9). -/
def wfiStep (s : State) : State :=
  if wfiMayTrap s && s.nextWfiDraw == .trap then takeTrap .illegalInstruction s.dropWfiDraw
  else if s.nextWfiDraw == .stall then { s.dropWfiDraw with wfiWaiting := true }
  else { s.dropWfiDraw with wfiWaiting := false }.advance

/-- `wfi` (42_wfi_tvm_fences.md R165). -/
def execWfi (s : State) : Host.Outcome State Fault Refusal := .next (wfiStep s)

end Sys2Proof.Machine
end

