-- ==== Sys2Proof/Machine/Dispatch.lean ====
section
/-! DEFINITION. One arm per instruction: its meaning. -/

namespace Sys2Proof.Machine

def exec (i : Instr) (s : State) : Host.Outcome State Fault Refusal :=
  match i with
  | .csrrw rd csr rs1 => Sys2Proof.Machine.execCsrrw rd csr rs1 s
  | .csrrs rd csr rs1 => Sys2Proof.Machine.execCsrrs rd csr rs1 s
  | .csrrc rd csr rs1 => Sys2Proof.Machine.execCsrrc rd csr rs1 s
  | .csrrwi rd csr uimm => Sys2Proof.Machine.execCsrrwi rd csr uimm s
  | .csrrsi rd csr uimm => Sys2Proof.Machine.execCsrrsi rd csr uimm s
  | .csrrci rd csr uimm => Sys2Proof.Machine.execCsrrci rd csr uimm s
  | .sret => Sys2Proof.Machine.execSret s
  | .mret => Sys2Proof.Machine.execMret s
  | .wfi => Sys2Proof.Machine.execWfi s
  | .sfenceVma rs1 rs2 => Sys2Proof.Machine.execSfenceVma rs1 rs2 s
  | .sinvalVma rs1 rs2 => Sys2Proof.Machine.execSinvalVma rs1 rs2 s
  | .sfenceWInval => Sys2Proof.Machine.execSfenceWInval s
  | .sfenceInvalIr => Sys2Proof.Machine.execSfenceInvalIr s
  | .hfenceVvma rs1 rs2 => Sys2Proof.Machine.execHfenceVvma rs1 rs2 s
  | .hfenceGvma rs1 rs2 => Sys2Proof.Machine.execHfenceGvma rs1 rs2 s
  | .hinvalGvma rs1 rs2 => Sys2Proof.Machine.execHinvalGvma rs1 rs2 s

end Sys2Proof.Machine
end

