-- ==== Sys2Proof/Machine/Interrupts.lean ====
section
/-! DEFINITION. The gates of MIE and SIE: when an interrupt is enabled (60_exceptions.md R206, R207). -/

namespace Sys2Proof.Machine

/-- `m_interrupts_enabled` (60_exceptions.md R206). -/
def mInterruptsEnabled (s : State) : Bool := s.priv != .m || s.mstatus.mie

/-- `s_interrupts_enabled`, and never while `priv = M` (60_exceptions.md R207). -/
def sInterruptsEnabled (s : State) : Bool := s.priv != .m && (s.priv == .u || s.v || s.mstatus.sie)

/-- The global enable of an interrupt's handler mode; there is no (H)S-mode handler without S-mode (60_exceptions.md R206, R207,
R233). -/
def interruptEnabled (s : State) (i : Interrupt) : Bool :=
  match i.handler with
  | .m => mInterruptsEnabled s
  | .s => s.params.extS && sInterruptsEnabled s

end Sys2Proof.Machine
end

