-- ==== Sys2Proof/Machine/Environment.lean ====
section
/-! DEFINITION. What the environment does at an instruction boundary: it presents an interrupt (60_exceptions.md R208), raises an
exception (R202, R205), or sets a return address or a recorded cause for the software that runs (R223, R226). -/

namespace Sys2Proof.Machine

/-- The state with the exception return address of a mode set (60_exceptions.md R226; log 7). -/
def State.withRetAddr (s : State) (mode : TrapTarget) (address : Word) : State :=
  match mode with
  | .m => { s with mRetAddr := address }
  | .s => { s with sRetAddr := address }
  | .vs => { s with vsRetAddr := address }

/-- The state with the recorded cause of a mode set (60_exceptions.md R223; log 8). -/
def State.withCause (s : State) (mode : TrapTarget) (cause : Cause) : State :=
  match mode with
  | .m => { s with mCause := cause }
  | .s => { s with sCause := cause }
  | .vs => { s with vsCause := cause }

/-- The software that runs is that of the mode or of one above it: it may have the mode's return address and cause set
(60_exceptions.md R223, R226: "M-mode code" for those of M-mode; log 40). -/
def recordReachable (s : State) : TrapTarget → Bool
  | .m => s.priv == .m
  | .s => s.priv == .m || (s.priv == .s && !s.v)
  | .vs => s.priv == .m || s.priv == .s

/-- What an event of the environment makes of the state, if it acts there: an interrupt where its gate is open (60_exceptions.md R208),
an exception through trap entry (R205, R213), a return address or a cause where the software may set it (R223, R226). -/
def eventEffect (event : EnvEvent) (s : State) : Option State :=
  match event with
  | .interrupt i => if interruptEnabled s i then some (takeInterrupt i s) else none
  | .exception e => some (takeTrap (.environment e) s)
  | .pageFault kind => some (takeTrap (.pageFault kind) s)
  | .setRetAddr mode address => if recordReachable s mode then some (s.withRetAddr mode address) else none
  | .setCause mode cause => if recordReachable s mode then some (s.withCause mode cause) else none

/-- The state after an instruction boundary: what the environment did there is past (log 5). -/
def State.pastBoundary (s : State) : State := { s with envEvents := s.envEvents.tail }

/-- The state the environment's event at this boundary leads to, with the values the previous instruction left (60_exceptions.md
R208), or none where it does nothing. An exhausted script does nothing (log 5). -/
def boundaryEffect (s : State) : Option State :=
  match s.envEvents with
  | some event :: _ => eventEffect event s.pastBoundary
  | _ => none

end Sys2Proof.Machine
end

