-- ==== Sys2Proof/WellFormed.lean ====
section
/-! DEFINITION. Which instructions are well-formed: the CSR number of a CSR access instruction is one the spec defines
(30_encoding.md R107, D34). Every other operand is bounded by its type. -/

namespace Sys2Proof

/-- The spec defines the CSR number. -/
def CsrNum.defined (n : CsrNum) : Bool := (Machine.csrOfNumber n).isSome

/-- The check on an instruction's operands. -/
def Instr.wellFormed : Instr → Bool
  | .csrrw _ csr _ => CsrNum.defined csr
  | .csrrs _ csr _ => CsrNum.defined csr
  | .csrrc _ csr _ => CsrNum.defined csr
  | .csrrwi _ csr _ => CsrNum.defined csr
  | .csrrsi _ csr _ => CsrNum.defined csr
  | .csrrci _ csr _ => CsrNum.defined csr
  | .sret => true
  | .mret => true
  | .wfi => true
  | .sfenceVma _ _ => true
  | .sinvalVma _ _ => true
  | .sfenceWInval => true
  | .sfenceInvalIr => true
  | .hfenceVvma _ _ => true
  | .hfenceGvma _ _ => true
  | .hinvalGvma _ _ => true

end Sys2Proof
end

