-- ==== Sys2Proof/Decode.lean ====
section
/-! DEFINITION. The decoder (30_encoding.md R100 to R108), total on any word and any bytes, refusing by name, and the encoder
written from the same formats. A CSR access instruction is decoded for EVERY CSR number, as R105 has it ("select the instruction
for any CSR"); a number the spec does not define is refused by name when it is executed (log 12). -/

namespace Sys2Proof

/-- The major opcode all rows share (30_encoding.md R100). -/
def systemOpcode : BitVec 7 := 0b1110011

/-- Bits 6:0. -/
def fieldOpcode (w : InsnWord) : BitVec 7 := w.extractLsb' 0 7

/-- Bits 11:7, `rd`. -/
def fieldRd (w : InsnWord) : RegNum := w.extractLsb' 7 5

/-- Bits 14:12, `funct3`. -/
def fieldFunct3 (w : InsnWord) : BitVec 3 := w.extractLsb' 12 3

/-- Bits 19:15, `rs1` or `uimm`. -/
def fieldRs1 (w : InsnWord) : RegNum := w.extractLsb' 15 5

/-- Bits 24:20, `rs2`. -/
def fieldRs2 (w : InsnWord) : RegNum := w.extractLsb' 20 5

/-- Bits 31:25, `funct7`. -/
def fieldFunct7 (w : InsnWord) : BitVec 7 := w.extractLsb' 25 7

/-- Bits 31:20, `csr`. -/
def fieldCsr (w : InsnWord) : CsrNum := w.extractLsb' 20 12

/-- The CSR access instructions, selected by `funct3` (30_encoding.md R105). -/
def decodeCsr (w : InsnWord) : Except DecodeRefusal Instr :=
  let rd := fieldRd w
  let csr := fieldCsr w
  let src := fieldRs1 w
  if fieldFunct3 w = 0b001 then .ok (.csrrw rd csr src)
  else if fieldFunct3 w = 0b010 then .ok (.csrrs rd csr src)
  else if fieldFunct3 w = 0b011 then .ok (.csrrc rd csr src)
  else if fieldFunct3 w = 0b101 then .ok (.csrrwi rd csr src)
  else if fieldFunct3 w = 0b110 then .ok (.csrrsi rd csr src)
  else if fieldFunct3 w = 0b111 then .ok (.csrrci rd csr src)
  else .error .reservedFunct3

/-- Returns, wait and fences (30_encoding.md R103, R106): `funct3` is 000 and `rd` must be 00000; the returns, `wfi` and two of
the fences fix `rs1` and `rs2` as well. -/
def decodeSys (w : InsnWord) : Except DecodeRefusal Instr :=
  let f7 := fieldFunct7 w
  let rs1 := fieldRs1 w
  let rs2 := fieldRs2 w
  if fieldRd w ≠ 0 then .error .noSystemRow
  else if f7 = 0b0001000 ∧ rs2 = 0b00010 ∧ rs1 = 0 then .ok .sret
  else if f7 = 0b0011000 ∧ rs2 = 0b00010 ∧ rs1 = 0 then .ok .mret
  else if f7 = 0b0001000 ∧ rs2 = 0b00101 ∧ rs1 = 0 then .ok .wfi
  else if f7 = 0b0001001 then .ok (.sfenceVma rs1 rs2)
  else if f7 = 0b0001011 then .ok (.sinvalVma rs1 rs2)
  else if f7 = 0b0001100 ∧ rs2 = 0b00000 ∧ rs1 = 0 then .ok .sfenceWInval
  else if f7 = 0b0001100 ∧ rs2 = 0b00001 ∧ rs1 = 0 then .ok .sfenceInvalIr
  else if f7 = 0b0010001 then .ok (.hfenceVvma rs1 rs2)
  else if f7 = 0b0110001 then .ok (.hfenceGvma rs1 rs2)
  else if f7 = 0b0110011 then .ok (.hinvalGvma rs1 rs2)
  else .error .noSystemRow

/-- The decoder, in the order of 30_encoding.md R108. -/
def decode (w : InsnWord) : Except DecodeRefusal Instr :=
  if fieldOpcode w ≠ systemOpcode then .error .notSystemOpcode
  else if fieldFunct3 w ≠ 0 then decodeCsr w
  else decodeSys w

/-- The instruction word four bytes hold, the byte at the lowest address first: little-endian always (20_memory.md R81). -/
def wordOfBytes (b0 b1 b2 b3 : Byte) : InsnWord := b3 ++ b2 ++ b1 ++ b0

/-- The four bytes of an instruction word, the byte at the lowest address first (20_memory.md R81). -/
def bytesOfWord (w : InsnWord) : List Byte :=
  [w.extractLsb' 0 8, w.extractLsb' 8 8, w.extractLsb' 16 8, w.extractLsb' 24 8]

/-- The decoder on bytes: the instruction the first four hold; fewer hold none. -/
def decodeBytes : List Byte → Option (Except DecodeRefusal Instr × List Byte)
  | b0 :: b1 :: b2 :: b3 :: rest => some (decode (wordOfBytes b0 b1 b2 b3), rest)
  | _ => none

/-- Format CSR-R and CSR-I (30_encoding.md R101, R102). -/
def encodeCsr (funct3 : BitVec 3) (rd : RegNum) (csr : CsrNum) (src : BitVec 5) : InsnWord :=
  csr ++ src ++ funct3 ++ rd ++ systemOpcode

/-- Format SYS-R (30_encoding.md R103). -/
def encodeSys (funct7 : BitVec 7) (rs2 rs1 : BitVec 5) : InsnWord :=
  funct7 ++ rs2 ++ rs1 ++ (0 : BitVec 3) ++ (0 : BitVec 5) ++ systemOpcode

/-- The encoder: the word of an instruction (30_encoding.md R105, R106). -/
def encode : Instr → InsnWord
  | .csrrw rd csr rs1 => encodeCsr 0b001 rd csr rs1
  | .csrrs rd csr rs1 => encodeCsr 0b010 rd csr rs1
  | .csrrc rd csr rs1 => encodeCsr 0b011 rd csr rs1
  | .csrrwi rd csr uimm => encodeCsr 0b101 rd csr uimm
  | .csrrsi rd csr uimm => encodeCsr 0b110 rd csr uimm
  | .csrrci rd csr uimm => encodeCsr 0b111 rd csr uimm
  | .sret => encodeSys 0b0001000 0b00010 0
  | .mret => encodeSys 0b0011000 0b00010 0
  | .wfi => encodeSys 0b0001000 0b00101 0
  | .sfenceVma rs1 rs2 => encodeSys 0b0001001 rs2 rs1
  | .sinvalVma rs1 rs2 => encodeSys 0b0001011 rs2 rs1
  | .sfenceWInval => encodeSys 0b0001100 0 0
  | .sfenceInvalIr => encodeSys 0b0001100 1 0
  | .hfenceVvma rs1 rs2 => encodeSys 0b0010001 rs2 rs1
  | .hfenceGvma rs1 rs2 => encodeSys 0b0110001 rs2 rs1
  | .hinvalGvma rs1 rs2 => encodeSys 0b0110011 rs2 rs1

/-- The `match` and `mask` columns of 30_encoding.md R105 and R106 (spec/opcode_table.json), in the table's order. -/
def opcodeRows : List (String × InsnWord × InsnWord) :=
  [("csrrw", 0x00001073, 0x0000707F), ("csrrs", 0x00002073, 0x0000707F), ("csrrc", 0x00003073, 0x0000707F),
    ("csrrwi", 0x00005073, 0x0000707F), ("csrrsi", 0x00006073, 0x0000707F), ("csrrci", 0x00007073, 0x0000707F),
    ("sret", 0x10200073, 0xFFFFFFFF), ("mret", 0x30200073, 0xFFFFFFFF), ("wfi", 0x10500073, 0xFFFFFFFF),
    ("sfence.vma", 0x12000073, 0xFE007FFF), ("sinval.vma", 0x16000073, 0xFE007FFF),
    ("sfence.w.inval", 0x18000073, 0xFFFFFFFF), ("sfence.inval.ir", 0x18100073, 0xFFFFFFFF),
    ("hfence.vvma", 0x22000073, 0xFE007FFF), ("hfence.gvma", 0x62000073, 0xFE007FFF),
    ("hinval.gvma", 0x66000073, 0xFE007FFF)]

/-- The mnemonic of an instruction as the opcode table has it (30_encoding.md R115). -/
def Instr.mnemonic : Instr → String
  | .csrrw _ _ _ => "csrrw"
  | .csrrs _ _ _ => "csrrs"
  | .csrrc _ _ _ => "csrrc"
  | .csrrwi _ _ _ => "csrrwi"
  | .csrrsi _ _ _ => "csrrsi"
  | .csrrci _ _ _ => "csrrci"
  | .sret => "sret"
  | .mret => "mret"
  | .wfi => "wfi"
  | .sfenceVma _ _ => "sfence.vma"
  | .sinvalVma _ _ => "sinval.vma"
  | .sfenceWInval => "sfence.w.inval"
  | .sfenceInvalIr => "sfence.inval.ir"
  | .hfenceVvma _ _ => "hfence.vvma"
  | .hfenceGvma _ _ => "hfence.gvma"
  | .hinvalGvma _ _ => "hinval.gvma"

/-- The low 32 bits of `w`, every bit from `nbits` up taken as 0. -/
def tableWord (nbits w : Nat) : InsnWord := BitVec.ofNat 32 (w % 2 ^ nbits)

/-- The instruction the decoder reads from an instruction whose bits are `w`, numbered as spec/opcode_table.json numbers them:
its word is laid out as bytes and given to the decoder. -/
def decodeTableWord (nbits w : Nat) : Option Instr :=
  match decodeBytes (bytesOfWord (tableWord nbits w)) with
  | some (.ok i, _) => some i
  | _ => none

end Sys2Proof
end

