-- ==== Sys2Proof/Machine/Memory.lean ====
section
/-! DEFINITION. Memory: reading and writing bytes, and multi-byte little-endian accesses (20_memory.md R80, R84). Addresses are 64
bits and wrap (DESIGN CHOICE, unsafe; log 24); a byte nothing has written has no value (log 23). -/

namespace Sys2Proof.Machine

/-- The byte at an address, if it has a value. -/
def readByte : Memory → Nat → Option Byte
  | [], _ => none
  | (k, b) :: rest, a => if k = a then some b else readByte rest a

/-- Memory with the byte at an address written; the form stays canonical. -/
def writeByte : Memory → Nat → Byte → Memory
  | [], a, b => [(a, b)]
  | (k, c) :: rest, a, b =>
    if a < k then (a, b) :: (k, c) :: rest
    else if a = k then (a, b) :: rest
    else (k, c) :: writeByte rest a b

/-- Every address of the list is above `low`, and the addresses rise strictly. -/
def risingFrom : Nat → Memory → Bool
  | _, [] => true
  | low, (k, _) :: rest => decide (low ≤ k) && risingFrom (k + 1) rest

/-- The canonical form: addresses rise strictly and lie in the 64-bit address space. -/
def Memory.wf (m : Memory) : Bool := risingFrom 0 m && m.all (fun c => decide (c.1 < 2 ^ 64))

/-- The `n` bytes from an address up, or the first address that has no value. -/
def readBytes (m : Memory) (a : Word) : Nat → Except Nat (List Byte)
  | 0 => .ok []
  | n + 1 =>
    match readByte m a.toNat with
    | none => .error a.toNat
    | some b =>
      match readBytes m (a + 1) n with
      | .error e => .error e
      | .ok bs => .ok (b :: bs)

/-- Memory with bytes written from an address up. -/
def writeBytes (m : Memory) (a : Word) : List Byte → Memory
  | [] => m
  | b :: bs => writeBytes (writeByte m a.toNat b) (a + 1) bs

/-- The value of bytes, the first the least significant: little-endian (20_memory.md R80). -/
def leValue : List Byte → Nat
  | [] => 0
  | b :: bs => b.toNat + 256 * leValue bs

/-- The `n` bytes of a value, the least significant first: little-endian (20_memory.md R80). -/
def leBytes (v : Nat) : Nat → List Byte
  | 0 => []
  | n + 1 => BitVec.ofNat 8 v :: leBytes (v / 256) n

end Sys2Proof.Machine
end

