-- ==== Sys2Proof/Machine/Fetch.lean ====
section
/-! DEFINITION. Fetching an instruction word: four bytes at `pc`, little-endian (20_memory.md R81), and placing one there. -/

namespace Sys2Proof.Machine

/-- What a fetch answers. -/
inductive Fetched where
  | word (w : InsnWord)
  | raised (cause : Cause)
  | fault (why : Fault)
deriving DecidableEq, Repr

/-- The fetch is misaligned and the implementation faults misaligned accesses (20_memory.md R91, D10; log 25). -/
def fetchMisaligned (s : State) : Bool := s.params.misalignedAccess == .fault && s.pc.toNat % 4 != 0

/-- The instruction word of four bytes, the lowest address first (20_memory.md R81). -/
def fetchedWord : List Byte → InsnWord
  | [b0, b1, b2, b3] => wordOfBytes b0 b1 b2 b3
  | _ => 0

/-- The fetch at `pc` (20_memory.md R81; 30_encoding.md R100). It reads the memory that every store so far left: `FetchCoherence`, an
OPEN parameter (20_memory.md R97, D14), is fixed so (DESIGN CHOICE, unsafe; log 42). -/
def fetch (s : State) : Fetched :=
  if fetchMisaligned s then .raised (.environment (.misaligned .fetch))
  else
    match readBytes s.mem s.pc 4 with
    | .error a => .fault (.unspecifiedMemory a)
    | .ok bytes => .word (fetchedWord bytes)

/-- The state with an instruction word stored at `pc`, so that the next step fetches it: the environment does nothing at the
boundary before it and no `wfi` is waiting (log 33). -/
def placeAtPc (s : State) (w : InsnWord) : State :=
  { s with
    mem := writeBytes s.mem s.pc (bytesOfWord w)
    envEvents := []
    wfiWaiting := false }

end Sys2Proof.Machine
end

