-- ==== Sys2Proof/Machine/Step.lean ====
section
/-! DEFINITION. One step of the hart (00_scope.md R19): what the environment does at the instruction boundary instead of the next
instruction (60_exceptions.md R205, R208, R212, R226), or a step of the `wfi` that is waiting, or the instruction at `pc`. -/

namespace Sys2Proof.Machine

/-- Fetch, decode and execute the instruction at `pc` (30_encoding.md R108). -/
def runInstruction (s : State) : Host.Outcome State Fault Refusal :=
  match fetch s with
  | .fault why => .fault why
  | .raised cause => raise cause s
  | .word w =>
    match decode w with
    | .error why => .refused (.outsideSpec why)
    | .ok i => exec i s

/-- One step of the machine. -/
def step (s : State) : Host.Outcome State Fault Refusal :=
  match boundaryEffect s with
  | some t => .next t
  | none => if s.wfiWaiting then execWfi s.pastBoundary else runInstruction s.pastBoundary

/-- The state with the instruction whose bits are `w` stored where the next step fetches (log 33). -/
def State.withFetchWord (s : State) (nbits w : Nat) : State := placeAtPc s (tableWord nbits w)

end Sys2Proof.Machine
end

