-- ==== Sys2Proof/Machine/Context.lean ====
section
/-! DEFINITION. The classes of floating-point and vector instructions (43_fp_vector_status.md R190 to R198): what FS and VS do to an
instruction outside the opcode table, given its class. No row of the table is of these classes, so `exec` does not call this
file (log 27). -/

namespace Sys2Proof.Machine

/-- The class predicates of an instruction outside the spec (43_fp_vector_status.md R190). -/
structure InsnClass where
  isFp : Bool
  isVector : Bool
  writesFpState : Bool
  writesVectorState : Bool
deriving DecidableEq, Repr

/-- FS or VS disables the instruction (43_fp_vector_status.md R191, R194, R198). -/
def classDisabled (c : InsnClass) (s : State) : Bool := (c.isFp && fpDisabled s) || (c.isVector && vectorDisabled s)

/-- The state with FS and VS after the instruction wrote the state of its class (43_fp_vector_status.md R192, R195, R198). -/
def classWritten (c : InsnClass) (s : State) : State :=
  let afterFp := if c.writesFpState then s.fpWritten else s
  if c.writesVectorState then afterFp.vectorWritten else afterFp

/-- What `mstatus` makes of an instruction of a class: Illegal Instruction, or the record in FS and VS and `pc <- pc + 4`
(43_fp_vector_status.md R198). What the instruction computes is outside the spec (00_scope.md R6). -/
def classStep (c : InsnClass) (s : State) : State :=
  if classDisabled c s then takeTrap .illegalInstruction s else (classWritten c s).advance

end Sys2Proof.Machine
end

