-- ==== Sys2Proof/Machine/DataAccess.lean ====
section
/-! DEFINITION. Loads and stores as `mstatus` modifies them (20_memory.md R80 to R91): byte order, effective privilege, the page
permissions of MXR and SUM, alignment. They are the primitives `MemRead` and `MemWrite` of R84; no row of the opcode table makes
a data access, so `exec` does not call this file (log 27). -/

namespace Sys2Proof.Machine

/-- The marks of the page an access is translated to: inputs of the access (20_memory.md R90). -/
structure Page where
  readable : Bool
  executable : Bool
  user : Bool
deriving DecidableEq, Repr

/-- The virtualization mode and privilege level of a load or store (20_memory.md R86). -/
def effectiveMode (s : State) : Bool × Priv :=
  if s.mstatus.mprv then (if s.mstatus.mpp = .m then false else s.mstatus.mpv, s.mstatus.mpp) else (s.v, s.priv)

/-- The virtualization mode and privilege level of an instruction fetch (20_memory.md R87). -/
def fetchMode (s : State) : Bool × Priv := (s.v, s.priv)

/-- Data of a privilege level is big-endian (20_memory.md R80): never, the three bits being hardwired (R82). -/
def bigEndian : Priv → Bool
  | .m => mbeBit
  | .s => sbeBit
  | .u => ubeBit

/-- Bytes of an access, lowest address first, put in the order least significant first (20_memory.md R80). -/
def inDataOrder (s : State) (bytes : List Byte) : List Byte := if bigEndian (effectiveMode s).2 then bytes.reverse else bytes

/-- A load is permitted by the marks R and X of its page (20_memory.md R88). -/
def loadPermitted (mxr : Bool) (page : Page) : Bool := if mxr then page.readable || page.executable else page.readable

/-- A load breaks the rule of SUM (20_memory.md R89). -/
def sumViolated (s : State) (page : Page) : Bool := (effectiveMode s).2 == .s && page.user && !s.mstatus.sum

/-- Whether a check of an access fails. MXR does not act on stores (20_memory.md R88); the rule of SUM acts on loads, and on stores
as well where `SUM_VIOLATION_EXCEPTION` is the page fault (R89, D18, GK9; log 28). With no page, neither fires. -/
def checkFails (s : State) (kind : AccessKind) (address : Word) (n : Nat) (page : Option Page) : AccessCheck → Bool
  | .alignment => s.params.misalignedAccess == .fault && address.toNat % n != 0
  | .sum =>
    match page with
    | none => false
    | some pg => sumViolated s pg && (kind == .load || s.params.sumViolation == .pageFault)
  | .mxr =>
    match page with
    | none => false
    | some pg => kind == .load && !loadPermitted s.mstatus.mxr pg

/-- The exception a failing check raises (20_memory.md R88, R89, R91). -/
def checkCause (s : State) (kind : AccessKind) : AccessCheck → Cause
  | .alignment => .environment (.misaligned kind)
  | .sum =>
    match s.params.sumViolation with
    | .illegalInstruction => .illegalInstruction
    | .pageFault => .pageFault kind
  | .mxr => .pageFault kind

/-- Every check of an access: what the implementation's order leaves out comes last. -/
def allAccessChecks : List AccessCheck := [.alignment, .sum, .mxr]

/-- The exception an access raises, if any check fails: the first in the implementation's order (60_exceptions.md R212, D20; log
29). -/
def accessException (s : State) (kind : AccessKind) (address : Word) (n : Nat) (page : Option Page) : Option Cause :=
  ((s.params.accessCheckOrder ++ allAccessChecks).find? (checkFails s kind address n page)).map (checkCause s kind)

/-- What an access answers: its result, the exception it raises, or a fault. -/
inductive AccessResult (α : Type) where
  | done (result : α)
  | raised (cause : Cause)
  | fault (why : Fault)
deriving DecidableEq, Repr

/-- `MemRead(address, n)` of a load (20_memory.md R84, R86, R88, R89). -/
def memRead (s : State) (address : Word) (n : Nat) (page : Option Page) : AccessResult Nat :=
  match accessException s .load address n page with
  | some cause => .raised cause
  | none =>
    match readBytes s.mem address n with
    | .error a => .fault (.unspecifiedMemory a)
    | .ok bytes => .done (leValue (inDataOrder s bytes))

/-- `MemWrite(address, n, value)` of a store (20_memory.md R84, R86, R89). -/
def memWrite (s : State) (address : Word) (n : Nat) (page : Option Page) (value : Nat) : AccessResult State :=
  match accessException s .store address n page with
  | some cause => .raised cause
  | none => .done { s with mem := writeBytes s.mem address (inDataOrder s (leBytes value n)) }

/-- What an access makes of the state: what its result completes to, or the trap its exception takes from the state before it
(`raise`, 00_scope.md R17, 60_exceptions.md R213), or the fault. -/
def accessOutcome {α : Type} (s : State) (complete : α → State) : AccessResult α → Host.Outcome State Fault Refusal
  | .done result => .next (complete result)
  | .raised cause => raise cause s
  | .fault why => .fault why

/-- A load instruction: the page fault of MXR (20_memory.md R88), the exception of SUM (R89) and a misaligned access (R91) are taken as
traps, and otherwise `use` says what the instruction does with the value, which is outside the spec (00_scope.md R6; log 27), and
`pc` advances. -/
def loadStep (use : Nat → State → State) (address : Word) (n : Nat) (page : Option Page) (s : State) :
    Host.Outcome State Fault Refusal :=
  accessOutcome s (fun value => (use value s).advance) (memRead s address n page)

/-- A store instruction: its exceptions are taken as traps (20_memory.md R89, R91), and otherwise the value is stored and `pc`
advances. -/
def storeStep (value : Nat) (address : Word) (n : Nat) (page : Option Page) (s : State) : Host.Outcome State Fault Refusal :=
  accessOutcome s State.advance (memWrite s address n page value)

end Sys2Proof.Machine
end

