-- ==== Sys2Proof/Safety.lean ====
section
/-! DEFINITION. The terms claims are stated in: the legal states (10_state.md R30, R31, R67, R68; 20_memory.md R86), the draws a reset
may make (70_reset_and_hazards.md R241), how an instruction changes the general registers, and the six CSR access instructions as
one family. -/

namespace Sys2Proof.Machine

/-! ### Legal states -/

/-- SXL and UXL hold supported widths, `SXL >= UXL`, and an RO SXL holds its hardwired width (10_state.md R30, R39, R41). -/
def xlLegal (p : Params) (sxl uxl : Width) : Bool :=
  decide (sxl ∈ p.sxlen) && decide (uxl ∈ p.uxlen) && uxl.le sxl
    && (sxlType p == .rw || sxl == Width.largest p.sxlen)

/-- Every field of `mstatus` holds a value of its legal set (10_state.md R30). -/
def mstatusLegal (s : State) : Bool :=
  decide (s.mstatus.mpp ∈ mppLegal s.params)
    && xlLegal s.params s.mstatus.sxl s.mstatus.uxl
    && (tvmType s == .rw || !s.mstatus.tvm)
    && decide (s.mstatus.fs ∈ contextLegal (fsKind s))
    && decide (s.mstatus.vs ∈ contextLegal (vsKind s))

/-- The hart is in a mode that exists: an implemented privilege level, and `V = 1` only below M-mode and with the hypervisor
feature set (10_state.md R68; 60_exceptions.md R233, R234). -/
def modeLegal (s : State) : Bool :=
  decide (s.priv ∈ mppLegal s.params) && (!s.v || (s.params.extH && s.priv != .m))

/-- MPRV is 1 in M-mode only (20_memory.md R86). -/
def mprvLegal (s : State) : Bool := !s.mstatus.mprv || s.priv == .m

/-- The legal states: what holds in every reachable state of a well-formed configuration. -/
def State.legal (s : State) : Bool :=
  s.params.wellFormed && mstatusLegal s && modeLegal s && mprvLegal s && Memory.wf s.mem && s.regs[0] == 0

/-- The draws a reset may make in a configuration, row by row of 70_reset_and_hazards.md R241: the pair (SXL, UXL) legal (R242), TVM 0
where `misa.S` is 0, FS and VS members of the legal set of the case that the configuration and the bits of `misa` at reset put them
in (R52, R57; D9); every value of the other fields. -/
def ResetDraws.legal (p : Params) (d : ResetDraws) : Bool :=
  xlLegal p d.sxl d.uxl
    && (p.extS || !d.tvm)
    && decide (d.fs ∈ contextLegal (contextKind p.extF p.misaImplemented p.extS p.extF p.fsLegalValues))
    && decide (d.vs ∈ contextLegal (contextKind p.extV p.misaImplemented p.extS p.extV p.vsLegalValues))

/-! ### What an instruction changes -/

/-- From `s` to `t` the register `rd` takes the value and every other register keeps its own; x0 reads 0 before and after
(10_state.md R70). -/
def RegisterResult (s t : State) (rd : RegNum) (value : Word) : Prop :=
  ∀ r : RegNum, t.readReg r = if r = rd ∧ r ≠ 0 then value else s.readReg r

/-- Every byte of memory reads in `t` as in `s`. -/
def SameMemory (s t : State) : Prop := ∀ a : Nat, readByte t.mem a = readByte s.mem a

/-- The hart's privilege and virtualization mode are the same in `s` and `t`. -/
def SameMode (s t : State) : Prop := t.priv = s.priv ∧ t.v = s.v

/-- The environment's registers outside `mstatus` are the same in `s` and `t`. -/
def SameCsrs (s t : State) : Prop :=
  t.misa = s.misa ∧ t.mie = s.mie ∧ t.mtval = s.mtval ∧ t.sie = s.sie ∧ t.satp = s.satp ∧ t.hstatus = s.hstatus
    ∧ t.hgatp = s.hgatp ∧ t.vsstatus = s.vsstatus ∧ t.fcsr = s.fcsr

/-- The registers a trap saves into are the same in `s` and `t`. -/
def SameTrapRecord (s t : State) : Prop :=
  t.mRetAddr = s.mRetAddr ∧ t.sRetAddr = s.sRetAddr ∧ t.vsRetAddr = s.vsRetAddr
    ∧ t.mCause = s.mCause ∧ t.sCause = s.sCause ∧ t.vsCause = s.vsCause

/-- What a trap entry into M-mode with the given inputs and cause makes of the state `s` (60_exceptions.md R214): the five fields of
`mstatus` and the mode, and nothing else of `mstatus`. That GVA is 0 without the hypervisor feature set, whatever the input says, is
D27 (log 37, DEDUCED), not R214. Beside it the return address (log 7), the cause (log 8) and `mtval` (log 36) take the trap's values, a
waiting `wfi` ends, the inputs are consumed, and nothing else changes. -/
def MachineTrapRecord (s t : State) (input : TrapInput) (rest : List TrapInput) (cause : Cause) : Prop :=
  t.mstatus.mpv = s.v ∧ t.mstatus.gva = (input.gva && s.params.extH) ∧ t.mstatus.mpp = s.priv ∧ t.mstatus.mpie = s.mstatus.mie
    ∧ t.mstatus.mie = false ∧ t.priv = .m ∧ t.v = false ∧ t.pc = s.params.mVector ∧ t.mtval = input.tval
    ∧ t.mRetAddr = input.retAddr ∧ t.mCause = cause ∧ t.wfiWaiting = false ∧ t.trapInputs = rest
    ∧ { t.mstatus with
        mpv := s.mstatus.mpv, gva := s.mstatus.gva, mpp := s.mstatus.mpp, mpie := s.mstatus.mpie, mie := s.mstatus.mie } = s.mstatus
    ∧ { t with
        mstatus := s.mstatus, priv := s.priv, v := s.v, pc := s.pc, mtval := s.mtval, mRetAddr := s.mRetAddr, mCause := s.mCause,
        wfiWaiting := s.wfiWaiting, trapInputs := s.trapInputs } = s

/-- What a trap entry into (H)S-mode with the given inputs and cause makes of the state `s` (60_exceptions.md R215): the three fields
of `mstatus` and the mode, and nothing else of `mstatus`. Beside it the return address (log 7) and the cause (log 8) take the trap's
values, `hstatus` a free one (log 31), a waiting `wfi` ends, the inputs are consumed, and nothing else changes. -/
def SupervisorTrapRecord (s t : State) (input : TrapInput) (rest : List TrapInput) (cause : Cause) : Prop :=
  (s.priv = .s → t.mstatus.spp = true) ∧ (s.priv = .u → t.mstatus.spp = false) ∧ t.mstatus.spie = s.mstatus.sie
    ∧ t.mstatus.sie = false ∧ t.priv = .s ∧ t.v = false ∧ t.pc = s.params.sVector ∧ t.sRetAddr = input.retAddr ∧ t.sCause = cause
    ∧ t.wfiWaiting = false ∧ t.trapInputs = rest
    ∧ { t.mstatus with spp := s.mstatus.spp, spie := s.mstatus.spie, sie := s.mstatus.sie } = s.mstatus
    ∧ { t with
        mstatus := s.mstatus, priv := s.priv, v := s.v, pc := s.pc, hstatus := s.hstatus, sRetAddr := s.sRetAddr, sCause := s.sCause,
        wfiWaiting := s.wfiWaiting, trapInputs := s.trapInputs } = s

/-- What the type of a context-status field makes of it when a write of `misa` changed its type: 0 where RO by the `misa` clause, the
single legal value where RO by the list clause, the value held where RW-H or a legal one where RW, and else some legal value
(10_state.md R26, D9; log 15). -/
def SettledField (kind : ContextKind) (held after : BitVec 2) : Prop :=
  (kind = .rwH → after = held) ∧ (kind = .roZero → after = 0#2) ∧ (∀ value, kind = .roSingle value → after = value)
    ∧ (∀ legal, kind = .rw legal → (held ∈ legal → after = held) ∧ (legal ≠ [] → after ∈ legal))

/-- Every field of `mstatus` that a trap into M-mode or `mret` may write is the same, and TSR, TW, TVM, MXR, SUM, SXL and UXL as
well: the fields M-mode keeps to itself (60_exceptions.md R230, R232). -/
def SameMachineFields (m n : Mstatus) : Prop :=
  n.mpv = m.mpv ∧ n.gva = m.gva ∧ n.sxl = m.sxl ∧ n.uxl = m.uxl ∧ n.tsr = m.tsr ∧ n.tw = m.tw ∧ n.tvm = m.tvm
    ∧ n.mxr = m.mxr ∧ n.sum = m.sum ∧ n.mpp = m.mpp ∧ n.mpie = m.mpie ∧ n.mie = m.mie

/-- The instruction, a CSR access of `mstatus`, executes: `rd` gets the value `mstatus` read as, `mstatus` becomes the given one, `pc`
advances, and nothing else of the state changes (40_csr_access.md R133 to R138). -/
def MstatusAccess (s : State) (i : Instr) (rd : RegNum) (written : Mstatus) : Prop :=
  ∃ t, exec i s = .next t ∧ t.mstatus = written ∧ RegisterResult s t rd (readMstatus s.mstatus) ∧ t.pc = s.pc + 4
    ∧ SameMemory s t ∧ { t with mstatus := s.mstatus, regs := s.regs, pc := s.pc } = s

/-- The mode and `pc` of `t` are those of a trap handler's first instruction, and the privilege level is not below that of `s`: what
a trap leaves (60_exceptions.md R213 to R216). -/
def EnteredHandler (s t : State) : Prop :=
  (t.priv = .m ∧ t.v = false ∧ t.pc = s.params.mVector)
    ∨ (s.priv ≠ .m ∧ t.priv = .s ∧ t.v = false ∧ t.pc = s.params.sVector)
    ∨ (s.priv ≠ .m ∧ s.v = true ∧ t.priv = .s ∧ t.v = true ∧ t.pc = s.params.vsVector)

/-- The mode and `pc` of `t` are those an `mret` from M-mode enters (41_trap_return.md R150). -/
def ReturnedFromM (s t : State) : Prop :=
  s.priv = .m ∧ t.priv = s.mstatus.mpp ∧ t.pc = s.mRetAddr
    ∧ t.v = (s.mstatus.mpp != .m && s.params.extH && s.mstatus.mpv)

/-- The mode and `pc` of `t` are those an `sret` enters (41_trap_return.md R155, R159). -/
def ReturnedFromS (s t : State) : Prop :=
  s.priv ≠ .u ∧ inVsMode s = false ∧ t.priv = (if s.mstatus.spp then .s else .u) ∧ t.pc = s.sRetAddr
    ∧ (s.params.extH = false → t.v = false)

/-! ### Families of instructions -/

/-- The CSR access instruction of an operation and a source operand (30_encoding.md R105). -/
def csrInstr (op : CsrOp) (rd : RegNum) (csr : CsrNum) (source : CsrSource) : Instr :=
  match op, source with
  | .write, .reg rs1 => .csrrw rd csr rs1
  | .set, .reg rs1 => .csrrs rd csr rs1
  | .clear, .reg rs1 => .csrrc rd csr rs1
  | .write, .imm uimm => .csrrwi rd csr uimm
  | .set, .imm uimm => .csrrsi rd csr uimm
  | .clear, .imm uimm => .csrrci rd csr uimm

/-- The instruction of a fence; the two fences without operands ignore the registers (30_encoding.md R106). -/
def fenceInstr (fence : Fence) (rs1 rs2 : RegNum) : Instr :=
  match fence with
  | .sfenceVma => .sfenceVma rs1 rs2
  | .sinvalVma => .sinvalVma rs1 rs2
  | .hfenceGvma => .hfenceGvma rs1 rs2
  | .hinvalGvma => .hinvalGvma rs1 rs2
  | .hfenceVvma => .hfenceVvma rs1 rs2
  | .sfenceWInval => .sfenceWInval
  | .sfenceInvalIr => .sfenceInvalIr

/-- The fences TVM traps (42_wfi_tvm_fences.md R170 to R173). -/
def fenceUnderTvm : Fence → Bool
  | .sfenceVma => true
  | .sinvalVma => true
  | .hfenceGvma => true
  | .hinvalGvma => true
  | .hfenceVvma => false
  | .sfenceWInval => false
  | .sfenceInvalIr => false

/-- The fences of the hypervisor, which need `V = 0` (D22). -/
def fenceOfHypervisor : Fence → Bool
  | .sfenceVma => false
  | .sinvalVma => false
  | .hfenceGvma => true
  | .hinvalGvma => true
  | .hfenceVvma => true
  | .sfenceWInval => false
  | .sfenceInvalIr => false

/-- The state after the outcome, where there is one. -/
def nextState : Host.Outcome State Fault Refusal → Option State
  | .next s => some s
  | .fault _ => none
  | .refused _ => none

end Sys2Proof.Machine
end

