-- ==== Sys2Proof/Certificates/Slice0/Obligations.lean ====
section
/-! DEFINITION. The statements for the provers. Each docstring names the rule of spec/ it follows; where a statement rests on the
model's own choice it names the log entry. A statement about a free value holds for every value of it. -/

open Sys2Proof Sys2Proof.Machine

/-! ### Encoding -/

/-- Decoding the word of an instruction gives the instruction, with every operand at every value (30_encoding.md R101 to R106). -/
def Obligations.DecodeInvertsEncode : Prop := ∀ i : Instr, decode (encode i) = .ok i

/-- Encoding what a word decodes to gives the word: no bit is dropped (30_encoding.md R101 to R106). -/
def Obligations.EncodeInvertsDecode : Prop := ∀ (w : InsnWord) (i : Instr), decode w = .ok i → encode i = w

/-- A word decodes to an instruction of a mnemonic exactly when it matches the row of that mnemonic under its mask
(30_encoding.md R105, R106, R108). -/
def Obligations.DecodeAgreesWithOpcodeTable : Prop :=
  ∀ (w : InsnWord) (name : String),
    (∃ i, decode w = .ok i ∧ i.mnemonic = name) ↔ ∃ row ∈ opcodeRows, row.1 = name ∧ w &&& row.2.2 = row.2.1

/-- Words of the table of 95_test_vectors.md V-DEC decode as it says; one that names a CSR the spec does not define is refused
when it executes (log 12). -/
def Obligations.SampleWordsDecodeAsListed : Prop :=
  decode 0x30200073#32 = .ok .mret ∧ decode 0x10200073#32 = .ok .sret ∧ decode 0x10500073#32 = .ok .wfi
    ∧ decode 0x12628073#32 = .ok (.sfenceVma 5 6) ∧ decode 0x30029373#32 = .ok (.csrrw 6 0x300 5)
    ∧ decode 0x30057373#32 = .ok (.csrrci 6 0x300 10) ∧ decode 0x30004073#32 = .error .reservedFunct3
    ∧ decode 0x00000073#32 = .error .noSystemRow ∧ decode 0x00000013#32 = .error .notSystemOpcode
    ∧ decode 0x30200173#32 = .error .noSystemRow

/-! ### Steps -/

/-- When the bytes at `pc` decode to an instruction, the environment does nothing at the boundary and no `wfi` waits, a step is that
instruction executed, the boundary being past (00_scope.md R19; 30_encoding.md R108; log 5). -/
def Obligations.StepRunsDecodedInstruction : Prop :=
  ∀ (s : State) (b0 b1 b2 b3 : Byte) (i : Instr),
    boundaryEffect s = none → s.wfiWaiting = false → fetchMisaligned s = false
    → readBytes s.mem s.pc 4 = .ok [b0, b1, b2, b3] → decode (wordOfBytes b0 b1 b2 b3) = .ok i
    → step s = exec i { s with envEvents := s.envEvents.tail }

/-- A step at a word that matches no row of the opcode table is refused by name (30_encoding.md R113, D34). -/
def Obligations.StepRefusesWordsOfNoRow : Prop :=
  ∀ (s : State) (b0 b1 b2 b3 : Byte),
    boundaryEffect s = none → s.wfiWaiting = false → fetchMisaligned s = false
    → readBytes s.mem s.pc 4 = .ok [b0, b1, b2, b3]
    → (∀ row ∈ opcodeRows, wordOfBytes b0 b1 b2 b3 &&& row.2.2 ≠ row.2.1)
    → ∃ why, step s = .refused (.outsideSpec why)

/-- An instruction placed where the next step fetches is the one the next step runs (log 33). -/
def Obligations.PlacedInstructionRunsNext : Prop :=
  ∀ (s : State) (i : Instr), fetchMisaligned s = false
    → step (s.withFetchWord 32 (encode i).toNat) = exec i (s.withFetchWord 32 (encode i).toNat)

/-- The word fetched is that of the four bytes at `pc`, the lowest address least significant, whatever `mstatus` holds
(20_memory.md R81). -/
def Obligations.FetchIsLittleEndian : Prop :=
  ∀ (s : State) (b0 b1 b2 b3 : Byte), fetchMisaligned s = false
    → readByte s.mem s.pc.toNat = some b0 → readByte s.mem (s.pc + 1).toNat = some b1
    → readByte s.mem (s.pc + 2).toNat = some b2 → readByte s.mem (s.pc + 3).toNat = some b3
    → ∀ m : Mstatus, fetch { s with mstatus := m } = .word (b3 ++ b2 ++ b1 ++ b0)

/-- What the environment does at a boundary happens instead of the next instruction: an interrupt is taken when its handler's enable
holds (60_exceptions.md R208, R212), an exception of the environment and a page fault of translation go through trap entry (R202,
R205), a return address or a cause is set where the software of its mode or of one above runs (R223, R226); otherwise the step is
as if the environment had done nothing (log 5, log 7, log 8, log 40). -/
def Obligations.BoundaryActsOnTheEnvironmentsEvent : Prop :=
  ∀ (s : State) (event : EnvEvent) (rest : List (Option EnvEvent)), s.envEvents = some event :: rest →
    let past := { s with envEvents := rest }
    let nothing := step { s with envEvents := none :: rest }
    (∀ i, event = .interrupt i →
        (interruptEnabled s i = true → step s = .next (takeInterrupt i past)) ∧ (interruptEnabled s i = false → step s = nothing))
      ∧ (∀ e, event = .exception e → step s = .next (takeTrap (.environment e) past))
      ∧ (∀ kind, event = .pageFault kind → step s = .next (takeTrap (.pageFault kind) past))
      ∧ (∀ a, event = .setRetAddr .m a →
          (s.priv = .m → step s = .next { past with mRetAddr := a }) ∧ (s.priv ≠ .m → step s = nothing))
      ∧ (∀ a, event = .setRetAddr .s a →
          (s.priv = .m ∨ (s.priv = .s ∧ s.v = false) → step s = .next { past with sRetAddr := a })
            ∧ (s.priv = .u ∨ (s.priv = .s ∧ s.v = true) → step s = nothing))
      ∧ (∀ a, event = .setRetAddr .vs a →
          (s.priv ≠ .u → step s = .next { past with vsRetAddr := a }) ∧ (s.priv = .u → step s = nothing))
      ∧ (∀ cause, event = .setCause .m cause →
          (s.priv = .m → step s = .next { past with mCause := cause }) ∧ (s.priv ≠ .m → step s = nothing))
      ∧ (∀ cause, event = .setCause .s cause →
          (s.priv = .m ∨ (s.priv = .s ∧ s.v = false) → step s = .next { past with sCause := cause })
            ∧ (s.priv = .u ∨ (s.priv = .s ∧ s.v = true) → step s = nothing))
      ∧ (∀ cause, event = .setCause .vs cause →
          (s.priv ≠ .u → step s = .next { past with vsCause := cause }) ∧ (s.priv = .u → step s = nothing))

/-- The gates of MIE and SIE (60_exceptions.md R206, R207). -/
def Obligations.InterruptGatesFollowMieAndSie : Prop :=
  ∀ (s : State) (n : Nat),
    (interruptEnabled s { handler := .m, number := n } = true ↔ s.priv ≠ .m ∨ s.mstatus.mie = true)
      ∧ (s.params.extS = true →
          (interruptEnabled s { handler := .s, number := n } = true ↔
            s.priv ≠ .m ∧ (s.priv = .u ∨ s.v = true ∨ (s.priv = .s ∧ s.v = false ∧ s.mstatus.sie = true))))

/-- An interrupt taken into M-mode leaves M-mode's interrupts disabled; one taken into (H)S-mode leaves (H)S-mode's disabled and
M-mode's enabled (60_exceptions.md R208, R218). -/
def Obligations.InterruptEntryDisablesItsOwnMode : Prop :=
  ∀ (s : State) (n k : Nat),
    interruptEnabled (takeInterrupt { handler := .m, number := n } s) { handler := .m, number := k } = false
      ∧ interruptEnabled (takeInterrupt { handler := .m, number := n } s) { handler := .s, number := k } = false
      ∧ interruptEnabled (takeInterrupt { handler := .s, number := n } s) { handler := .s, number := k } = false
      ∧ interruptEnabled (takeInterrupt { handler := .s, number := n } s) { handler := .m, number := k } = true

/-! ### CSR access instructions on mstatus -/

/-- `csrrw` and `csrrwi` in M-mode: the software write of the source, the old value into `rd` (40_csr_access.md R133, R136). -/
def Obligations.CsrrwWritesMstatus : Prop :=
  ∀ (s : State) (rd rs1 : RegNum) (uimm : BitVec 5), s.priv = .m →
    MstatusAccess s (.csrrw rd 0x300#12 rs1) rd (writeMstatus s (s.readReg rs1))
      ∧ MstatusAccess s (.csrrwi rd 0x300#12 uimm) rd (writeMstatus s (uimm.setWidth 64))

/-- `csrrs` and `csrrsi` in M-mode: the write presents the OR, and there is none when the NUMBER of the register, or the immediate,
is 0 (40_csr_access.md R134, R137). -/
def Obligations.CsrrsSetsMstatusBits : Prop :=
  ∀ (s : State) (rd rs1 : RegNum) (uimm : BitVec 5), s.priv = .m →
    MstatusAccess s (.csrrs rd 0x300#12 rs1) rd
        (if rs1 = 0 then s.mstatus else writeMstatus s (readMstatus s.mstatus ||| s.readReg rs1))
      ∧ MstatusAccess s (.csrrsi rd 0x300#12 uimm) rd
        (if uimm = 0 then s.mstatus else writeMstatus s (readMstatus s.mstatus ||| uimm.setWidth 64))

/-- `csrrc` and `csrrci` in M-mode: the write presents the AND with the complement, and there is none when the NUMBER of the register,
or the immediate, is 0 (40_csr_access.md R135, R138). -/
def Obligations.CsrrcClearsMstatusBits : Prop :=
  ∀ (s : State) (rd rs1 : RegNum) (uimm : BitVec 5), s.priv = .m →
    MstatusAccess s (.csrrc rd 0x300#12 rs1) rd
        (if rs1 = 0 then s.mstatus else writeMstatus s (readMstatus s.mstatus &&& ~~~(s.readReg rs1)))
      ∧ MstatusAccess s (.csrrci rd 0x300#12 uimm) rd
        (if uimm = 0 then s.mstatus else writeMstatus s (readMstatus s.mstatus &&& ~~~(uimm.setWidth 64)))

/-- Below M-mode each of the six raises Illegal Instruction, and the trap finds `x[rd]` and `mstatus` as they were: `mstatus` after
the trap is what the trap alone makes of it (40_csr_access.md R121). -/
def Obligations.MstatusAccessBelowMachineModeTraps : Prop :=
  ∀ (s : State) (op : CsrOp) (rd : RegNum) (source : CsrSource), s.priv ≠ .m →
    exec (csrInstr op rd 0x300#12 source) s = .next (takeTrap .illegalInstruction s)
      ∧ (takeTrap .illegalInstruction s).regs = s.regs

/-- With `csrrsi` and `csrrci` only SIE and MIE can change; `csrrwi` writes MIE and SIE from its immediate and 0 to every field
stored bit for bit above bit 4 (40_csr_access.md R136 to R138; 30_encoding.md R104). -/
def Obligations.ImmediateFormsReachOnlyMieAndSie : Prop :=
  ∀ (s : State) (uimm : BitVec 5), s.legal = true →
    (∃ mie sie, writeMstatus s (readMstatus s.mstatus ||| uimm.setWidth 64) = { s.mstatus with mie := mie, sie := sie })
      ∧ (∃ mie sie, writeMstatus s (readMstatus s.mstatus &&& ~~~(uimm.setWidth 64)) = { s.mstatus with mie := mie, sie := sie })
      ∧ (let n := writeMstatus s (uimm.setWidth 64)
        n.mie = uimm.getLsbD 3 ∧ n.sie = uimm.getLsbD 1 ∧ n.mpv = false ∧ n.gva = false ∧ n.tsr = false ∧ n.tw = false
          ∧ n.mxr = false ∧ n.sum = false ∧ n.mprv = false ∧ n.spp = false ∧ n.mpie = false ∧ n.spie = false)

/-! ### The register -/

/-- What `mstatus` reads as: every field at its location, SD computed, the hardwired and unnamed bits 0, MPP never 2
(10_state.md R23, R25, R28, R31, R32). -/
def Obligations.MstatusReadsFieldsAtTheirPlaces : Prop :=
  ∀ m : Mstatus,
    let r := readMstatus m
    (r.getLsbD 63 = true ↔ m.fs = 3#2 ∨ m.vs = 3#2) ∧ r.getLsbD 39 = m.mpv ∧ r.getLsbD 38 = m.gva
      ∧ r.extractLsb' 34 2 = widthBits m.sxl ∧ r.extractLsb' 32 2 = widthBits m.uxl ∧ r.getLsbD 22 = m.tsr
      ∧ r.getLsbD 21 = m.tw ∧ r.getLsbD 20 = m.tvm ∧ r.getLsbD 19 = m.mxr ∧ r.getLsbD 18 = m.sum ∧ r.getLsbD 17 = m.mprv
      ∧ r.extractLsb' 13 2 = m.fs ∧ r.extractLsb' 11 2 = privBits m.mpp ∧ r.extractLsb' 11 2 ≠ 2#2
      ∧ r.extractLsb' 9 2 = m.vs ∧ r.getLsbD 8 = m.spp ∧ r.getLsbD 7 = m.mpie ∧ r.getLsbD 5 = m.spie
      ∧ r.getLsbD 3 = m.mie ∧ r.getLsbD 1 = m.sie
      ∧ (∀ i : Nat, (40 ≤ i ∧ i ≤ 62) ∨ i = 37 ∨ i = 36 ∨ (23 ≤ i ∧ i ≤ 31) ∨ i = 16 ∨ i = 15 ∨ i = 6 ∨ i = 4 ∨ i = 2 ∨ i = 0 →
          r.getLsbD i = false)

/-- A software write stores these bits as written (40_csr_access.md R124, R129). -/
def Obligations.SoftwareWriteStoresPlainBits : Prop :=
  ∀ (s : State) (value : Word) (i : Nat), i ∈ [39, 38, 22, 21, 19, 18, 17, 8, 7, 5, 3, 1] →
    (readMstatus (writeMstatus s value)).getLsbD i = value.getLsbD i

/-- A CSR write of `mstatus`, whatever its bits 37, 36 and 6, leaves those bits 0 and the byte order of every access as it was
(20_memory.md R82). -/
def Obligations.ByteOrderCannotBeSwitched : Prop :=
  ∀ (s : State) (op : CsrOp) (rd : RegNum) (source : CsrSource), s.priv = .m →
    ∃ t, exec (csrInstr op rd 0x300#12 source) s = .next t
      ∧ (readMstatus t.mstatus).getLsbD 37 = false ∧ (readMstatus t.mstatus).getLsbD 36 = false
      ∧ (readMstatus t.mstatus).getLsbD 6 = false
      ∧ ∀ bytes : List Byte, inDataOrder t bytes = inDataOrder s bytes

/-- Writing to `mstatus` what it reads as changes no field (40_csr_access.md R126). -/
def Obligations.WritingBackTheReadValueChangesNothing : Prop :=
  ∀ s : State, s.legal = true → writeMstatus s (readMstatus s.mstatus) = s.mstatus

/-- A write of MPP stores an implemented level as written, and some implemented level where the value is 2 or an absent one: the same
for the same state of the hart and the same value (40_csr_access.md R127; 00_scope.md R16; log 10). -/
def Obligations.MppWriteStoresAnImplementedLevel : Prop :=
  ∀ (s s' : State) (value : Word),
    let written := value.extractLsb' 11 2
    let mpp := (writeMstatus s value).mpp
    (written = 3#2 → mpp = .m) ∧ (written = 1#2 → s.params.extS = true → mpp = .s)
      ∧ (written = 0#2 → s.params.extU = true → mpp = .u)
      ∧ (mpp = .m ∨ (mpp = .s ∧ s.params.extS = true) ∨ (mpp = .u ∧ s.params.extU = true))
      ∧ (s'.architectural = s.architectural → (writeMstatus s' value).mpp = mpp)

/-- A write of SXL and UXL stores a supported pair with SXL not below UXL as written, some such pair otherwise, and keeps a field
that is RO; where exactly one of the two is RW, a written width that is legal beside the one held is stored (10_state.md R39, R41, R42;
40_csr_access.md R128; log 10). -/
def Obligations.XlWriteStoresALegalPair : Prop :=
  ∀ (s : State) (value : Word), s.legal = true →
    let n := writeMstatus s value
    xlLegal s.params n.sxl n.uxl = true
      ∧ (sxlType s.params = .ro → n.sxl = s.mstatus.sxl) ∧ (uxlType s.params = .ro → n.uxl = s.mstatus.uxl)
      ∧ (∀ sx ux : Width, sxlType s.params = .rw → uxlType s.params = .rw → sx ∈ s.params.sxlen → ux ∈ s.params.uxlen
          → ux.le sx = true → value.extractLsb' 34 2 = widthBits sx → value.extractLsb' 32 2 = widthBits ux
          → n.sxl = sx ∧ n.uxl = ux)
      ∧ (∀ sx : Width, sxlType s.params = .rw → uxlType s.params = .ro → sx ∈ s.params.sxlen → s.mstatus.uxl.le sx = true
          → value.extractLsb' 34 2 = widthBits sx → n.sxl = sx ∧ n.uxl = s.mstatus.uxl)
      ∧ (∀ ux : Width, sxlType s.params = .ro → uxlType s.params = .rw → ux ∈ s.params.uxlen → ux.le s.mstatus.sxl = true
          → value.extractLsb' 32 2 = widthBits ux → n.sxl = s.mstatus.sxl ∧ n.uxl = ux)

/-- A write of TVM stores its bit where `misa.S` is 1 and nothing where it is 0; a write of FS or VS stores the written value where
the type is RW-H, nothing where it is RO, and where it is RW a legal value, the written one if it is legal (40_csr_access.md R130 to
R132). -/
def Obligations.TvmFsVsWritesFollowTheirTypes : Prop :=
  ∀ (s : State) (value : Word), s.params.wellFormed = true →
    let n := writeMstatus s value
    (misaS s = true → n.tvm = value.getLsbD 20) ∧ (misaS s = false → n.tvm = s.mstatus.tvm)
      ∧ (fsKind s = .rwH → n.fs = value.extractLsb' 13 2) ∧ (fsKind s = .roZero → n.fs = s.mstatus.fs)
      ∧ (∀ v, fsKind s = .roSingle v → n.fs = s.mstatus.fs)
      ∧ (∀ l, fsKind s = .rw l → n.fs ∈ l ∧ (value.extractLsb' 13 2 ∈ l → n.fs = value.extractLsb' 13 2))
      ∧ (vsKind s = .rwH → n.vs = value.extractLsb' 9 2) ∧ (vsKind s = .roZero → n.vs = s.mstatus.vs)
      ∧ (∀ v, vsKind s = .roSingle v → n.vs = s.mstatus.vs)
      ∧ (∀ l, vsKind s = .rw l → n.vs ∈ l ∧ (value.extractLsb' 9 2 ∈ l → n.vs = value.extractLsb' 9 2))

/-! ### CSR access instructions on the other CSRs -/

/-- An access of another CSR the source names, where its checks let it execute (the level of the CSR number: log 14; in VS-mode `satp`
executes where `hstatus.VTVM` is 0, which R179 and U23 do not describe: log 18): `rd` gets what the CSR read as, every other CSR keeps
its value, `mstatus` changes only under a write of `misa` or `fcsr`, and an access that writes nothing changes only `rd` and `pc`. What
a written CSR keeps is free (log 13). A write of `misa` leaves every field of `mstatus` but TVM, FS and VS, and these three hold at once
what their type now asks for: the RO value where RO (10_state.md R26; D9; log 15). -/
def Obligations.OtherCsrAccessExecutes : Prop :=
  ∀ (s : State) (op : CsrOp) (rd : RegNum) (csr : CsrNum) (source : CsrSource) (name : CsrName),
    csrOfNumber csr = some name → name ≠ .mstatus → (name = .misa → s.params.misaImplemented = true)
    → csrAccessible s csr = true
    → (tvmGuarded name = true → tvmTrap s = false ∧ (inVsMode s = false ∨ s.hstatus.vtvm = false))
    → (name = .fcsr → s.params.fcsrIsFp = true → fpDisabled s = false)
    → ∃ t, exec (csrInstr op rd csr source) s = .next t ∧ RegisterResult s t rd (csrRead s name) ∧ t.pc = s.pc + 4
        ∧ SameMode s t ∧ SameMemory s t ∧ SameTrapRecord s t ∧ t.translation = s.translation ∧ t.wfiWaiting = s.wfiWaiting
        ∧ t.params = s.params
        ∧ (∀ other, other ≠ name → other ≠ .mstatus → (other = .vsstatus → name = .fcsr → s.v = false)
            → csrRead t other = csrRead s other)
        ∧ (name ≠ .misa → name ≠ .fcsr → t.mstatus = s.mstatus)
        ∧ (name = .misa → performsWrite op source = true →
            (misaS t = true → t.mstatus.tvm = s.mstatus.tvm) ∧ (misaS t = false → t.mstatus.tvm = false)
              ∧ SettledField (fsKind t) s.mstatus.fs t.mstatus.fs ∧ SettledField (vsKind t) s.mstatus.vs t.mstatus.vs
              ∧ { t.mstatus with tvm := s.mstatus.tvm, fs := s.mstatus.fs, vs := s.mstatus.vs } = s.mstatus)
        ∧ (performsWrite op source = false → { t with regs := s.regs, pc := s.pc } = s)

/-- An access below the privilege the CSR number asks for raises Illegal Instruction (30_encoding.md R107; 40_csr_access.md R121;
D22; log 14). -/
def Obligations.CsrAccessBelowItsLevelTraps : Prop :=
  ∀ (s : State) (op : CsrOp) (rd : RegNum) (csr : CsrNum) (source : CsrSource) (name : CsrName),
    csrOfNumber csr = some name → (name = .misa → s.params.misaImplemented = true)
    → (csrLevel csr = 3#2 ∧ s.priv ≠ .m) ∨ (csrLevel csr = 1#2 ∧ s.priv = .u)
        ∨ (csrLevel csr = 2#2 ∧ (s.priv = .u ∨ (s.priv = .s ∧ s.v = true)))
    → exec (csrInstr op rd csr source) s = .next (takeTrap .illegalInstruction s)

/-- A CSR number the spec does not define is refused, and so is `misa` where it does not exist (D34; 10_state.md R73; log 12, log
15). -/
def Obligations.UndefinedCsrIsRefused : Prop :=
  ∀ (s : State) (op : CsrOp) (rd : RegNum) (csr : CsrNum) (source : CsrSource),
    (csrOfNumber csr = none → exec (csrInstr op rd csr source) s = .refused (.undefinedCsr csr))
      ∧ (csr = 0x301#12 → s.params.misaImplemented = false → exec (csrInstr op rd csr source) s = .refused .misaAbsent)

/-- A write of `satp` (180H) or `hgatp` (680H) in (H)S-mode with TVM = 1 raises Illegal Instruction, and both registers keep their
values (42_wfi_tvm_fences.md R169, R177, R178). -/
def Obligations.TvmTrapsWritesOfSatpAndHgatp : Prop :=
  ∀ (s : State) (op : CsrOp) (rd : RegNum) (csr : CsrNum) (source : CsrSource),
    csr = 0x180#12 ∨ csr = 0x680#12 → s.mstatus.tvm = true → s.priv = .s → s.v = false
    → op = .write ∨ sourceField source ≠ 0
    → exec (csrInstr op rd csr source) s = .next (takeTrap .illegalInstruction s)
        ∧ (takeTrap .illegalInstruction s).satp = s.satp ∧ (takeTrap .illegalInstruction s).hgatp = s.hgatp
        ∧ (takeTrap .illegalInstruction s).regs = s.regs

/-- A read of `satp` or `hgatp` in (H)S-mode with TVM = 1 does what the draw says: it traps, or it returns the register and changes
nothing but `rd`, `pc` and the script of draws (42_wfi_tvm_fences.md R177, R178; D31; log 4). -/
def Obligations.ReadOfSatpUnderTvmFollowsTheDraw : Prop :=
  ∀ (s : State) (op : CsrOp) (rd : RegNum) (csr : CsrNum) (source : CsrSource) (traps : Bool) (rest : List Bool),
    csr = 0x180#12 ∨ csr = 0x680#12 → s.mstatus.tvm = true → s.priv = .s → s.v = false → op ≠ .write → sourceField source = 0
    → s.tvmReadInputs = traps :: rest
    → (traps = true → exec (csrInstr op rd csr source) s = .next (takeTrap .illegalInstruction { s with tvmReadInputs := rest }))
      ∧ (traps = false → ∃ t, exec (csrInstr op rd csr source) s = .next t
          ∧ RegisterResult s t rd (if csr = 0x180#12 then s.satp else s.hgatp) ∧ t.pc = s.pc + 4
          ∧ { t with regs := s.regs, pc := s.pc, tvmReadInputs := s.tvmReadInputs } = s)

/-- A write of `fcsr` outside a guest, FS not being 0, makes FS 3 where its type is RW-H, leaves every other field of `mstatus`, and
returns the old value (43_fp_vector_status.md R192, R196; log 16). -/
def Obligations.FcsrWriteMarksFsDirty : Prop :=
  ∀ (s : State) (op : CsrOp) (rd : RegNum) (source : CsrSource),
    s.v = false → s.mstatus.fs ≠ 0#2 → performsWrite op source = true
    → ∃ t, exec (csrInstr op rd 0x003#12 source) s = .next t ∧ RegisterResult s t rd s.fcsr
        ∧ t.mstatus = { s.mstatus with fs := if fsKind s = .rwH then 3#2 else s.mstatus.fs }
        ∧ { t with mstatus := s.mstatus, regs := s.regs, pc := s.pc, fcsr := s.fcsr } = s

/-- An access of `fcsr` that is in the floating-point class raises Illegal Instruction at every level when FS is 0, and the trap leaves
FS 0 (43_fp_vector_status.md R190, R191; log 16). -/
def Obligations.FcsrAccessTrapsWhenFsIsOff : Prop :=
  ∀ (s : State) (op : CsrOp) (rd : RegNum) (source : CsrSource), s.params.fcsrIsFp = true → s.mstatus.fs = 0#2 →
    exec (csrInstr op rd 0x003#12 source) s = .next (takeTrap .illegalInstruction s)
      ∧ (takeTrap .illegalInstruction s).mstatus.fs = 0#2

/-- What VS-mode stops: `sret`, and what `hstatus.VTVM` traps there (41_trap_return.md R157; 42_wfi_tvm_fences.md R179; D30, U23; log
18, log 19). -/
def Obligations.VsModeStopsWhereTheSpecDescribesNothing : Prop :=
  ∀ s : State, s.priv = .s → s.v = true →
    (s.params.extS = true → exec .sret s = .refused .sretInVsMode)
      ∧ (s.hstatus.vtvm = true → ∀ (op : CsrOp) (rd rs1 rs2 : RegNum) (source : CsrSource),
          exec (csrInstr op rd 0x180#12 source) s = .refused .vtvmTrapUndescribed
            ∧ exec (.sfenceVma rs1 rs2) s = .refused .vtvmTrapUndescribed
            ∧ exec (.sinvalVma rs1 rs2) s = .refused .vtvmTrapUndescribed)

/-! ### Trap returns -/

/-- `mret` in M-mode (41_trap_return.md R150, R152, R153): every field it writes, and nothing else. -/
def Obligations.MretReturnsToTheRecordedMode : Prop :=
  ∀ s : State, s.priv = .m →
    ∃ t, exec .mret s = .next t ∧ t.priv = s.mstatus.mpp
      ∧ (s.mstatus.mpp = .m ∨ s.params.extH = false → t.v = false)
      ∧ (s.mstatus.mpp ≠ .m → s.params.extH = true → t.v = s.mstatus.mpv)
      ∧ t.mstatus.mie = s.mstatus.mpie ∧ t.mstatus.mpie = true
      ∧ (s.params.extU = true → t.mstatus.mpp = .u) ∧ (s.params.extU = false → t.mstatus.mpp = .m)
      ∧ (s.mstatus.mpp ≠ .m ∨ s.params.mprvClearedOnReturnToM = true → t.mstatus.mprv = false)
      ∧ (s.mstatus.mpp = .m → s.params.mprvClearedOnReturnToM = false → t.mstatus.mprv = s.mstatus.mprv)
      ∧ (s.params.mpvAfterMret = .unchanged → t.mstatus.mpv = s.mstatus.mpv)
      ∧ (s.params.mpvAfterMret = .zero → t.mstatus.mpv = false)
      ∧ t.pc = s.mRetAddr ∧ SameMemory s t
      ∧ { t.mstatus with
          mie := s.mstatus.mie, mpie := s.mstatus.mpie, mpp := s.mstatus.mpp, mprv := s.mstatus.mprv, mpv := s.mstatus.mpv } = s.mstatus
      ∧ { t with mstatus := s.mstatus, priv := s.priv, v := s.v, pc := s.pc } = s

/-- `sret` where it executes: with S-mode, not in U-mode, not in VS-mode, not under TSR in (H)S-mode; in M-mode whatever TSR holds
(41_trap_return.md R153, R155, R156, R158). The virtualization mode entered is the environment's input (R159; log 32). -/
def Obligations.SretReturnsToTheRecordedMode : Prop :=
  ∀ s : State, s.params.extS = true → s.priv ≠ .u → ¬(s.priv = .s ∧ s.v = true) → ¬(s.priv = .s ∧ s.mstatus.tsr = true) →
    ∃ t, exec .sret s = .next t ∧ t.priv = (if s.mstatus.spp then .s else .u)
      ∧ (s.params.extH = false → t.v = false)
      ∧ (∀ newV rest, s.params.extH = true → s.sretVInputs = newV :: rest → t.v = newV ∧ t.sretVInputs = rest)
      ∧ t.mstatus.sie = s.mstatus.spie ∧ t.mstatus.spie = true ∧ t.mstatus.spp = false ∧ t.mstatus.mprv = false
      ∧ t.pc = s.sRetAddr ∧ SameMemory s t
      ∧ { t.mstatus with
          sie := s.mstatus.sie, spie := s.mstatus.spie, spp := s.mstatus.spp, mprv := s.mstatus.mprv } = s.mstatus
      ∧ { t with
          mstatus := s.mstatus, priv := s.priv, v := s.v, pc := s.pc, sretVInputs := s.sretVInputs, drawCount := s.drawCount } = s

/-- `mret` below M-mode raises Illegal Instruction (41_trap_return.md R151; D22); `sret` raises it without S-mode, in U-mode, and in
(H)S-mode under TSR (R155, R156, R158; in U-mode at every V: log 20). -/
def Obligations.TrapReturnsTrapWhereTheyMayNotExecute : Prop :=
  (∀ s : State, s.priv ≠ .m → exec .mret s = .next (takeTrap .illegalInstruction s))
    ∧ ∀ s : State, s.params.extS = false ∨ s.priv = .u ∨ (s.priv = .s ∧ s.v = false ∧ s.mstatus.tsr = true) →
        exec .sret s = .next (takeTrap .illegalInstruction s)

/-- TSR traps `sret` in (H)S-mode, which then changes nothing before the trap (41_trap_return.md R156); with TSR = 0, and in M-mode at
every TSR, `sret` returns (R155, R158, R160); in VS-mode its outcome does not depend on TSR (R156, R157; it is the refusal of log 19). -/
def Obligations.TsrTrapsSretInSupervisorModeOnly : Prop :=
  ∀ s : State, s.params.extS = true →
    (s.priv = .s → s.v = false → s.mstatus.tsr = true → exec .sret s = .next (takeTrap .illegalInstruction s))
      ∧ (s.priv = .s → s.v = false → s.mstatus.tsr = false →
          ∃ t, exec .sret s = .next t ∧ t.pc = s.sRetAddr ∧ t.priv = (if s.mstatus.spp then .s else .u))
      ∧ (s.priv = .m → ∃ t, exec .sret s = .next t ∧ t.pc = s.sRetAddr ∧ t.priv = (if s.mstatus.spp then .s else .u))
      ∧ (s.priv = .s → s.v = true → ∀ b c : Bool,
          exec .sret { s with mstatus := { s.mstatus with tsr := b } } = exec .sret { s with mstatus := { s.mstatus with tsr := c } })

/-! ### wfi -/

/-- `wfi` whose draw is to complete, or is a trap where TW lets none happen, advances and changes nothing else (42_wfi_tvm_fences.md
R165, R166, R168; log 9). -/
def Obligations.WfiCompletesWhenDrawn : Prop :=
  ∀ (s : State) (draw : WfiDraw) (rest : List WfiDraw), s.wfiInputs = draw :: rest
    → draw = .complete ∨ (draw = .trap ∧ (s.priv = .m ∨ (s.mstatus.tw = false ∧ s.priv = .s ∧ s.v = false)))
    → exec .wfi s = .next { s with wfiInputs := rest, wfiWaiting := false, pc := s.pc + 4 }

/-- In M-mode, and in (H)S-mode with TW = 0, `wfi` never traps, whatever it draws: it completes or goes on waiting
(42_wfi_tvm_fences.md R166). -/
def Obligations.WfiNeverTrapsWhereTwLetsItWait : Prop :=
  ∀ s : State, s.priv = .m ∨ (s.priv = .s ∧ s.v = false ∧ s.mstatus.tw = false) →
    ∃ t, exec .wfi s = .next t ∧ t.mstatus = s.mstatus ∧ SameMode s t ∧ SameTrapRecord s t ∧ t.regs = s.regs ∧ SameMemory s t
      ∧ ((t.pc = s.pc ∧ t.wfiWaiting = true) ∨ (t.pc = s.pc + 4 ∧ t.wfiWaiting = false))

/-- `wfi` whose draw is a trap raises Illegal Instruction in a mode other than M where TW = 1, in U-mode, and in a guest
(42_wfi_tvm_fences.md R166, R167). -/
def Obligations.WfiTrapsWhenDrawnAndAllowed : Prop :=
  ∀ (s : State) (rest : List WfiDraw), s.wfiInputs = .trap :: rest → s.priv ≠ .m
    → s.mstatus.tw = true ∨ s.priv = .u ∨ s.v = true
    → exec .wfi s = .next (takeTrap .illegalInstruction { s with wfiInputs := rest })

/-- `wfi` whose draw is to wait waits, and the next step, when the environment does nothing at the boundary, is a step of that `wfi`, with no fetch
(42_wfi_tvm_fences.md R168; 10_state.md R69; log 9). -/
def Obligations.WfiWaitsUntilADrawEndsIt : Prop :=
  ∀ (s : State) (rest : List WfiDraw), s.wfiInputs = .stall :: rest →
    exec .wfi s = .next { s with wfiInputs := rest, wfiWaiting := true }
      ∧ (s.wfiWaiting = true → boundaryEffect s = none →
          step s = .next { s with wfiInputs := rest, envEvents := s.envEvents.tail })

/-! ### Fences -/

/-- Each of the seven fences, where nothing traps it, changes `pc` and the translation state alone: the four TVM traps when TVM is 0,
the three others at every TVM; in VS-mode those of the supervisor, the two TVM traps when `hstatus.VTVM` is 0 (42_wfi_tvm_fences.md R169
to R176, R180; log 17, log 18, log 21). -/
def Obligations.FencesExecuteWhereNothingTrapsThem : Prop :=
  ∀ (s : State) (fence : Fence) (rs1 rs2 : RegNum), s.priv ≠ .u
    → (fenceUnderTvm fence = true → ¬(s.mstatus.tvm = true ∧ s.priv = .s ∧ s.v = false))
    → (s.priv = .s → s.v = true → fenceOfHypervisor fence = false ∧ (fenceUnderTvm fence = true → s.hstatus.vtvm = false))
    → ∃ t, exec (fenceInstr fence rs1 rs2) s = .next t ∧ t.pc = s.pc + 4 ∧ t.mstatus = s.mstatus ∧ SameMemory s t
        ∧ { t with translation := s.translation, pc := s.pc } = s

/-- With TVM = 1 in (H)S-mode `sfence.vma`, `sinval.vma`, `hfence.gvma` and `hinval.gvma` raise Illegal Instruction
(42_wfi_tvm_fences.md R169 to R173). -/
def Obligations.TvmTrapsTheFourFences : Prop :=
  ∀ (s : State) (rs1 rs2 : RegNum), s.mstatus.tvm = true → s.priv = .s → s.v = false →
    exec (.sfenceVma rs1 rs2) s = .next (takeTrap .illegalInstruction s)
      ∧ exec (.sinvalVma rs1 rs2) s = .next (takeTrap .illegalInstruction s)
      ∧ exec (.hfenceGvma rs1 rs2) s = .next (takeTrap .illegalInstruction s)
      ∧ exec (.hinvalGvma rs1 rs2) s = .next (takeTrap .illegalInstruction s)

/-- In U-mode every fence raises Illegal Instruction whatever TVM holds, and in VS-mode those of the hypervisor do
(42_wfi_tvm_fences.md R180; D22; log 17, log 20). -/
def Obligations.FencesTrapBelowTheirMode : Prop :=
  ∀ (s : State) (fence : Fence) (rs1 rs2 : RegNum),
    s.priv = .u ∨ (s.priv = .s ∧ s.v = true ∧ fenceOfHypervisor fence = true) →
    exec (fenceInstr fence rs1 rs2) s = .next (takeTrap .illegalInstruction s)

/-! ### Traps -/

/-- Entry into M-mode from an exception, and from an interrupt (60_exceptions.md R214, R208): what `mstatus` records, the mode entered,
and every field left alone. That GVA is the input's flag only with the hypervisor feature set, and 0 without it, is D27 (log 37). Beside
`mstatus` the environment's registers take the trap's inputs (R213; log 6, log 7, log 8, log 36). -/
def Obligations.TrapIntoMachineModeRecordsTheState : Prop :=
  ∀ (s : State) (input : TrapInput) (rest : List TrapInput), s.trapInputs = input :: rest →
    (∀ cause : Cause, s.priv = .m ∨ input.target = .m → MachineTrapRecord s (takeTrap cause s) input rest cause)
      ∧ (∀ n : Nat, MachineTrapRecord s (takeInterrupt { handler := .m, number := n } s) input rest (.interrupt n))

/-- Entry into (H)S-mode from U or S, from an exception and from an interrupt (60_exceptions.md R215, R208, R213): what `mstatus`
records, the mode entered, and every field left alone. Beside it the return address (log 7) and the cause (log 8) are recorded, and
what `hstatus` records of the prior virtualization mode is free (log 31). -/
def Obligations.TrapIntoSupervisorModeRecordsTheState : Prop :=
  ∀ (s : State) (input : TrapInput) (rest : List TrapInput), s.trapInputs = input :: rest → s.priv ≠ .m → s.params.extS = true →
    (∀ cause : Cause, input.target = .s → SupervisorTrapRecord s (takeTrap cause s) input rest cause)
      ∧ (∀ n : Nat, SupervisorTrapRecord s (takeInterrupt { handler := .s, number := n } s) input rest (.interrupt n))

/-- Trap entry into VS-mode changes no field of `mstatus` (60_exceptions.md R216). The mode and the handler's address are those of
VS-mode (R213, R229) and `vsstatus` is free (log 30); the return address (log 7) and the cause (log 8) are recorded beside it (R213). -/
def Obligations.TrapIntoVsModeLeavesMstatus : Prop :=
  ∀ (s : State) (cause : Cause) (input : TrapInput) (rest : List TrapInput), s.trapInputs = input :: rest
    → input.target = .vs → s.priv ≠ .m → s.v = true → s.params.extS = true → s.params.extH = true →
    let t := takeTrap cause s
    t.mstatus = s.mstatus ∧ t.priv = .s ∧ t.v = true ∧ t.pc = s.params.vsVector ∧ t.vsRetAddr = input.retAddr ∧ t.vsCause = cause
      ∧ { t with
          priv := s.priv, v := s.v, pc := s.pc, vsstatus := s.vsstatus, vsRetAddr := s.vsRetAddr, vsCause := s.vsCause,
          wfiWaiting := s.wfiWaiting, trapInputs := s.trapInputs } = s

/-- Whatever its inputs, a trap never lowers the privilege level, a trap from M-mode goes to M-mode, it enters a guest only from a
guest, and it leaves the general registers, memory and every control field of `mstatus` alone (60_exceptions.md R213, R214 to R216, R219,
R227). -/
def Obligations.TrapsNeverLowerPrivilege : Prop :=
  ∀ (s : State) (cause : Cause),
    let t := takeTrap cause s
    (privBits s.priv).toNat ≤ (privBits t.priv).toNat ∧ (s.priv = .m → t.priv = .m) ∧ (t.v = true → s.v = true)
      ∧ t.regs = s.regs ∧ SameMemory s t ∧ t.mstatus.mprv = s.mstatus.mprv ∧ t.mstatus.fs = s.mstatus.fs ∧ t.mstatus.vs = s.mstatus.vs
      ∧ t.mstatus.tsr = s.mstatus.tsr ∧ t.mstatus.tw = s.mstatus.tw ∧ t.mstatus.tvm = s.mstatus.tvm ∧ t.mstatus.mxr = s.mstatus.mxr
      ∧ t.mstatus.sum = s.mstatus.sum ∧ t.mstatus.sxl = s.mstatus.sxl ∧ t.mstatus.uxl = s.mstatus.uxl

/-- A trap into M-mode followed by `mret` restores the privilege level, the virtualization mode and MIE, and leaves MPIE = 1, MPP = 0
where U-mode exists, GVA as the trap set it (0 without the hypervisor feature set: D27, log 37) and MPV as `MPV_AFTER_MRET` says
(60_exceptions.md R221). That `pc` is the trap's return address rests on log 7. -/
def Obligations.MretUndoesATrapIntoMachineMode : Prop :=
  ∀ (s : State) (cause : Cause) (input : TrapInput) (rest : List TrapInput), s.trapInputs = input :: rest
    → s.priv = .m ∨ input.target = .m → modeLegal s = true → s.params.extU = true →
    ∃ t, exec .mret (takeTrap cause s) = .next t ∧ t.priv = s.priv ∧ t.v = s.v ∧ t.mstatus.mie = s.mstatus.mie
      ∧ t.mstatus.mpie = true ∧ t.mstatus.mpp = .u ∧ t.mstatus.gva = (input.gva && s.params.extH) ∧ t.pc = input.retAddr
      ∧ (s.params.mpvAfterMret = .unchanged → t.mstatus.mpv = s.v) ∧ (s.params.mpvAfterMret = .zero → t.mstatus.mpv = false)
      ∧ (s.params.mprvClearedOnReturnToM = true → t.mstatus.mprv = false)
      ∧ t.mstatus.spp = s.mstatus.spp ∧ t.mstatus.spie = s.mstatus.spie ∧ t.mstatus.sie = s.mstatus.sie ∧ t.regs = s.regs

/-- A trap into (H)S-mode followed by `sret`, TSR being 0, restores the privilege level and SIE, and leaves SPIE = 1, SPP = 0, MPRV = 0
(60_exceptions.md R221). That `pc` is the trap's return address rests on log 7. -/
def Obligations.SretUndoesATrapIntoSupervisorMode : Prop :=
  ∀ (s : State) (cause : Cause) (input : TrapInput) (rest : List TrapInput), s.trapInputs = input :: rest
    → input.target = .s → s.priv ≠ .m → s.params.extS = true → s.mstatus.tsr = false →
    ∃ t, exec .sret (takeTrap cause s) = .next t ∧ t.priv = s.priv ∧ t.mstatus.sie = s.mstatus.sie ∧ t.mstatus.spie = true
      ∧ t.mstatus.spp = false ∧ t.mstatus.mprv = false ∧ t.pc = input.retAddr ∧ t.mstatus.mie = s.mstatus.mie
      ∧ t.mstatus.mpie = s.mstatus.mpie ∧ t.mstatus.mpp = s.mstatus.mpp ∧ t.regs = s.regs

/-- A second trap while in M-mode overwrites the one record: MPP = M, MPIE = 0 after a first entry, MPV = 0 (60_exceptions.md R222). That
the cause recorded is the second trap's rests on log 8. -/
def Obligations.SecondTrapOverwritesTheRecord : Prop :=
  ∀ (s : State) (first second : Cause) (input : TrapInput) (rest : List TrapInput), s.trapInputs = input :: rest
    → s.priv = .m ∨ input.target = .m →
    let t := takeTrap second (takeTrap first s)
    t.mstatus.mpp = .m ∧ t.mstatus.mpie = false ∧ t.mstatus.mie = false ∧ t.mstatus.mpv = false ∧ t.priv = .m ∧ t.mCause = second

/-! ### Classes of instructions without a row, loads and stores -/

/-- A floating-point instruction with FS = 0 raises Illegal Instruction at every privilege level; one that executes and writes
floating-point state makes FS 3 where its type is RW-H, and one that does not leaves FS (43_fp_vector_status.md R191, R192, R198; log
27). -/
def Obligations.FloatingPointClassFollowsFs : Prop :=
  ∀ (s : State) (c : InsnClass),
    (c.isFp = true → s.mstatus.fs = 0#2 → classStep c s = takeTrap .illegalInstruction s)
      ∧ (classDisabled c s = false →
          let t := classStep c s
          (c.writesFpState = true → s.mstatus.fs ≠ 0#2 → fsKind s = .rwH → t.mstatus.fs = 3#2)
            ∧ (c.writesFpState = false ∨ s.mstatus.fs = 0#2 ∨ fsKind s ≠ .rwH → t.mstatus.fs = s.mstatus.fs)
            ∧ t.pc = s.pc + 4 ∧ SameMode s t ∧ SameMemory s t
            ∧ { t.mstatus with fs := s.mstatus.fs, vs := s.mstatus.vs } = s.mstatus)

/-- A vector instruction with VS = 0 raises Illegal Instruction at every privilege level; one that executes and writes vector state makes
VS 3 where its type is RW-H, and one that does not leaves VS (43_fp_vector_status.md R194, R195, R198). `classStep` stands beside the
step (log 27), and with `V = 1` a second status field, which is free, may disable the instruction as well (log 16). -/
def Obligations.VectorClassFollowsVs : Prop :=
  ∀ (s : State) (c : InsnClass),
    (c.isVector = true → s.mstatus.vs = 0#2 →
        classStep c s = takeTrap .illegalInstruction s ∧ (classStep c s).mstatus.vs = 0#2)
      ∧ (classDisabled c s = false →
          let t := classStep c s
          (c.writesVectorState = true → s.mstatus.vs ≠ 0#2 → vsKind s = .rwH → t.mstatus.vs = 3#2)
            ∧ (c.writesVectorState = false ∨ s.mstatus.vs = 0#2 ∨ vsKind s ≠ .rwH → t.mstatus.vs = s.mstatus.vs))

/-- The mode of loads and stores under MPRV, and of fetches (20_memory.md R86, R87). -/
def Obligations.LoadsAndStoresUseTheEffectiveMode : Prop :=
  ∀ s : State,
    (s.mstatus.mprv = false → effectiveMode s = (s.v, s.priv))
      ∧ (s.mstatus.mprv = true → s.mstatus.mpp = .m → effectiveMode s = (false, .m))
      ∧ (s.mstatus.mprv = true → s.mstatus.mpp ≠ .m → effectiveMode s = (s.mstatus.mpv, s.mstatus.mpp))
      ∧ fetchMode s = (s.v, s.priv)

/-- What MXR, SUM and alignment make of an access of an address, from a page or with no translation. Aligned, or where misaligned
accesses are performed: a load is permitted when the page's marks permit it and SUM does not forbid it, raises a page fault when only
the marks forbid it, the exception of the parameter when only SUM does, one of the two when both do (20_memory.md R88, R89;
60_exceptions.md R212; log 29); MXR does not act on a store (R88), SUM where the parameter is the page fault (R89, log 28).
Misaligned where such accesses fault: the misaligned cause, or that of another check that fails; a fetch the same (R91, D10; log 25). An
exception raised is taken as a trap, by loads and by stores (00_scope.md R17). -/
def Obligations.AccessesObeyMxrSumAndAlignment : Prop :=
  ∀ (s : State) (address : Word) (n : Nat) (page : Page),
    let permitted := page.readable = true ∨ (s.mstatus.mxr = true ∧ page.executable = true)
    let forbidden := (effectiveMode s).2 = .s ∧ page.user = true ∧ s.mstatus.sum = false
    let sumCause := fun kind => if s.params.sumViolation = .illegalInstruction then Cause.illegalInstruction else Cause.pageFault kind
    let load := accessException s .load address n (some page)
    let store := accessException s .store address n (some page)
    (s.params.misalignedAccess = .performed ∨ address.toNat % n = 0 →
        (permitted ∧ ¬forbidden → load = none) ∧ (¬permitted ∧ ¬forbidden → load = some (.pageFault .load))
          ∧ (permitted ∧ forbidden → load = some (sumCause .load))
          ∧ (¬permitted ∧ forbidden → load = some (sumCause .load) ∨ load = some (.pageFault .load))
          ∧ (¬forbidden ∨ s.params.sumViolation = .illegalInstruction → store = none)
          ∧ (forbidden ∧ s.params.sumViolation = .pageFault → store = some (.pageFault .store))
          ∧ (∀ kind, accessException s kind address n none = none))
      ∧ (s.params.misalignedAccess = .fault → address.toNat % n ≠ 0 →
          (∀ kind, accessException s kind address n none = some (.environment (.misaligned kind)))
            ∧ (permitted ∧ ¬forbidden → load = some (.environment (.misaligned .load)))
            ∧ (load = some (.environment (.misaligned .load)) ∨ (forbidden ∧ load = some (sumCause .load))
                ∨ (¬permitted ∧ load = some (.pageFault .load)))
            ∧ (¬forbidden ∨ s.params.sumViolation = .illegalInstruction → store = some (.environment (.misaligned .store)))
            ∧ (store = some (.environment (.misaligned .store)) ∨ (forbidden ∧ store = some (.pageFault .store))))
      ∧ (s.params.misalignedAccess = .fault → s.pc.toNat % 4 ≠ 0 → fetch s = .raised (.environment (.misaligned .fetch)))
      ∧ (∀ (use : Nat → State → State) (cause : Cause), load = some cause →
          loadStep use address n (some page) s = .next (takeTrap cause s))
      ∧ (∀ (value : Nat) (cause : Cause), store = some cause → storeStep value address n (some page) s = .next (takeTrap cause s))

/-- A load of the bytes a store wrote gives the value stored, cut to their width, and every other byte is as it was
(20_memory.md R80, R84). -/
def Obligations.LoadAfterStoreReadsTheValue : Prop :=
  ∀ (s t : State) (address : Word) (n : Nat) (pageW pageR : Option Page) (value : Nat), n ≤ 2 ^ 64
    → memWrite s address n pageW value = .done t → accessException t .load address n pageR = none
    → memRead t address n pageR = .done (value % 256 ^ n)
        ∧ (∀ a : Nat, (∀ k : Nat, k < n → a ≠ (address + BitVec.ofNat 64 k).toNat) → readByte t.mem a = readByte s.mem a)
        ∧ { t with mem := s.mem } = s

/-! ### The whole machine -/

/-- Every step from a legal state leads to a legal state: each field of `mstatus` in its legal set, the mode one that exists, MPRV 1 in
M-mode only, memory canonical, x0 zero (10_state.md R30, R31, R68; 20_memory.md R86; log 35). -/
def Obligations.StepKeepsLegalStates : Prop := ∀ s t : State, s.legal = true → step s = .next t → t.legal = true

/-- Reset leaves a legal state, in every well-formed configuration, for every draw of the legal sets and every reset vector
(70_reset_and_hazards.md R241, R242, R244). -/
def Obligations.ResetLeavesALegalState : Prop :=
  ∀ (p : Params) (d : ResetDraws) (vector : Word), p.wellFormed = true → d.legal p = true →
    (State.resetWith p d vector).legal = true

/-- The fixed reset values, in every configuration and for every draw (70_reset_and_hazards.md R241, R243, R244, R246), and what
`mstatus` reads as in REF-A with every draw 0 and with every draw at its maximum (R242). -/
def Obligations.ResetValuesOfTheSpec : Prop :=
  (∀ (p : Params) (d : ResetDraws) (vector : Word),
      let s := State.resetWith p d vector
      s.mstatus.mpp = .m ∧ s.mstatus.mie = false ∧ s.mstatus.mprv = false ∧ s.mstatus.gva = false ∧ s.priv = .m ∧ s.v = false
        ∧ s.wfiWaiting = false ∧ (∀ n, interruptEnabled s { handler := .m, number := n } = false)
        ∧ effectiveMode s = (s.v, s.priv))
    ∧ readMstatus State.reset.mstatus = 0x0000000A00001800#64
    ∧ readMstatus (Mstatus.atReset
        { mpv := true, sxl := .w64, uxl := .w64, tsr := true, tw := true, tvm := true, mxr := true, sum := true, fs := 3, vs := 3,
          spp := true, mpie := true, spie := true, sie := true }) = 0x8000008A007C7FA2#64

/-- A step changes the mode only by entering a trap handler, or as `mret` or `sret` does; and only a trap raises the privilege level
(60_exceptions.md R231). -/
def Obligations.OnlyTrapsAndReturnsChangeTheMode : Prop :=
  ∀ s t : State, step s = .next t →
    (SameMode s t ∨ EnteredHandler s t ∨ ReturnedFromM s t ∨ ReturnedFromS s t)
      ∧ ((privBits s.priv).toNat < (privBits t.priv).toNat → EnteredHandler s t)

/-- A step that starts and ends below M-mode leaves every field of `mstatus` that M-mode keeps to itself, `misa`, `mie`, `mtval` and
memory as they were, and the recorded return address and cause of M-mode (10_state.md R22, R66; 60_exceptions.md R230, R232). That no
software below M-mode changes the return address and the cause rests on log 7, log 8 and log 40, and that no write of another CSR
changes `mie` on log 13. -/
def Obligations.BelowMachineModeNothingOfMachineModeChanges : Prop :=
  ∀ s t : State, step s = .next t → s.priv ≠ .m → t.priv ≠ .m →
    SameMachineFields s.mstatus t.mstatus ∧ t.mRetAddr = s.mRetAddr ∧ t.mCause = s.mCause ∧ t.mtval = s.mtval ∧ t.misa = s.misa
      ∧ t.mie = s.mie ∧ SameMemory s t

/-- No step changes the parameters of the implementation or memory, and a step changes an exception return address only by a trap into
its mode, or where the environment sets it for software of that mode or of one above (00_scope.md R8; 60_exceptions.md R226; log 1,
log 7, log 40). -/
def Obligations.StepKeepsParametersAndMemory : Prop :=
  ∀ s t : State, step s = .next t →
    t.params = s.params ∧ SameMemory s t
      ∧ (t.mRetAddr ≠ s.mRetAddr →
          (t.priv = .m ∧ t.pc = s.params.mVector)
            ∨ (s.priv = .m ∧ s.envEvents.head? = some (some (.setRetAddr .m t.mRetAddr)) ∧ t.pc = s.pc ∧ SameMode s t))
      ∧ (t.sRetAddr ≠ s.sRetAddr →
          (t.priv = .s ∧ t.v = false ∧ t.pc = s.params.sVector)
            ∨ (s.priv ≠ .u ∧ inVsMode s = false ∧ s.envEvents.head? = some (some (.setRetAddr .s t.sRetAddr)) ∧ t.pc = s.pc
                ∧ SameMode s t))
      ∧ (t.vsRetAddr ≠ s.vsRetAddr →
          (t.priv = .s ∧ t.v = true ∧ t.pc = s.params.vsVector)
            ∨ (s.priv ≠ .u ∧ s.envEvents.head? = some (some (.setRetAddr .vs t.vsRetAddr)) ∧ t.pc = s.pc ∧ SameMode s t))
end

