-- ==== Sys2Proof/Laws/Encoding.lean ====
section
/-! SUPPORT. The fields of an encoded word: each field reads back what the encoder put there (30_encoding.md R101 to R103). -/

namespace Sys2Proof

/-- A field that lies in the low part of a concatenation. -/
theorem extract_append_low {n m k : Nat} (a : BitVec n) (b : BitVec m) (start : Nat) (h : start + k ≤ m) :
    (a ++ b).extractLsb' start k = b.extractLsb' start k := by
  apply BitVec.eq_of_getLsbD_eq
  intro i hi
  simp only [BitVec.getLsbD_extractLsb', BitVec.getLsbD_append, hi, decide_true, Bool.true_and]
  rw [if_pos (by omega)]

/-- A field that lies in the high part of a concatenation. -/
theorem extract_append_high {n m k : Nat} (a : BitVec n) (b : BitVec m) (start : Nat) (h : m ≤ start) :
    (a ++ b).extractLsb' start k = a.extractLsb' (start - m) k := by
  apply BitVec.eq_of_getLsbD_eq
  intro i hi
  simp only [BitVec.getLsbD_extractLsb', BitVec.getLsbD_append, hi, decide_true, Bool.true_and]
  rw [if_neg (by omega)]
  congr 1
  omega

/-- The middle one of three fields laid out in a row. -/
theorem extract_second {a b c : Nat} (x : BitVec a) (y : BitVec b) (z : BitVec c) : (x ++ y ++ z).extractLsb' c b = y := by
  rw [extract_append_high _ _ _ (Nat.le_refl c), extract_append_low _ _ _ (by omega), Nat.sub_self, BitVec.extractLsb'_eq_self]

@[simp] theorem fieldOpcode_encodeCsr (f : BitVec 3) (rd src : BitVec 5) (csr : CsrNum) :
    fieldOpcode (encodeCsr f rd csr src) = systemOpcode :=
  (extract_append_low (csr ++ src ++ f ++ rd) systemOpcode 0 (by omega)).trans BitVec.extractLsb'_eq_self

@[simp] theorem fieldRd_encodeCsr (f : BitVec 3) (rd src : BitVec 5) (csr : CsrNum) :
    fieldRd (encodeCsr f rd csr src) = rd :=
  extract_second (csr ++ src ++ f) rd systemOpcode

@[simp] theorem fieldFunct3_encodeCsr (f : BitVec 3) (rd src : BitVec 5) (csr : CsrNum) :
    fieldFunct3 (encodeCsr f rd csr src) = f :=
  (extract_append_high (csr ++ src ++ f ++ rd) systemOpcode 12 (by omega)).trans (extract_second (csr ++ src) f rd)

@[simp] theorem fieldRs1_encodeCsr (f : BitVec 3) (rd src : BitVec 5) (csr : CsrNum) :
    fieldRs1 (encodeCsr f rd csr src) = src :=
  (extract_append_high (csr ++ src ++ f ++ rd) systemOpcode 15 (by omega)).trans
    ((extract_append_high (csr ++ src ++ f) rd 8 (by omega)).trans (extract_second csr src f))

@[simp] theorem fieldCsr_encodeCsr (f : BitVec 3) (rd src : BitVec 5) (csr : CsrNum) :
    fieldCsr (encodeCsr f rd csr src) = csr :=
  (extract_append_high (csr ++ src ++ f ++ rd) systemOpcode 20 (by omega)).trans
    ((extract_append_high (csr ++ src ++ f) rd 13 (by omega)).trans
      ((extract_append_high (csr ++ src) f 8 (by omega)).trans
        ((extract_append_high csr src 5 (by omega)).trans BitVec.extractLsb'_eq_self)))

/-- Format SYS-R is format CSR-R with `funct3` 000 and `rd` 00000, the CSR field being `funct7` and `rs2`. -/
theorem encodeSys_eq (f7 : BitVec 7) (rs2 rs1 : BitVec 5) : encodeSys f7 rs2 rs1 = encodeCsr 0 0 (f7 ++ rs2) rs1 := rfl

@[simp] theorem fieldOpcode_encodeSys (f7 : BitVec 7) (rs2 rs1 : BitVec 5) : fieldOpcode (encodeSys f7 rs2 rs1) = systemOpcode := by
  rw [encodeSys_eq, fieldOpcode_encodeCsr]

@[simp] theorem fieldRd_encodeSys (f7 : BitVec 7) (rs2 rs1 : BitVec 5) : fieldRd (encodeSys f7 rs2 rs1) = 0 := by
  rw [encodeSys_eq, fieldRd_encodeCsr]

@[simp] theorem fieldFunct3_encodeSys (f7 : BitVec 7) (rs2 rs1 : BitVec 5) : fieldFunct3 (encodeSys f7 rs2 rs1) = 0 := by
  rw [encodeSys_eq, fieldFunct3_encodeCsr]

@[simp] theorem fieldRs1_encodeSys (f7 : BitVec 7) (rs2 rs1 : BitVec 5) : fieldRs1 (encodeSys f7 rs2 rs1) = rs1 := by
  rw [encodeSys_eq, fieldRs1_encodeCsr]

@[simp] theorem fieldRs2_encodeSys (f7 : BitVec 7) (rs2 rs1 : BitVec 5) : fieldRs2 (encodeSys f7 rs2 rs1) = rs2 :=
  (extract_append_high (f7 ++ rs2 ++ rs1 ++ (0 : BitVec 3) ++ (0 : BitVec 5)) systemOpcode 20 (by omega)).trans
    ((extract_append_high (f7 ++ rs2 ++ rs1 ++ (0 : BitVec 3)) (0 : BitVec 5) 13 (by omega)).trans
      ((extract_append_high (f7 ++ rs2 ++ rs1) (0 : BitVec 3) 8 (by omega)).trans (extract_second f7 rs2 rs1)))

@[simp] theorem fieldFunct7_encodeSys (f7 : BitVec 7) (rs2 rs1 : BitVec 5) : fieldFunct7 (encodeSys f7 rs2 rs1) = f7 :=
  (extract_append_high (f7 ++ rs2 ++ rs1 ++ (0 : BitVec 3) ++ (0 : BitVec 5)) systemOpcode 25 (by omega)).trans
    ((extract_append_high (f7 ++ rs2 ++ rs1 ++ (0 : BitVec 3)) (0 : BitVec 5) 18 (by omega)).trans
      ((extract_append_high (f7 ++ rs2 ++ rs1) (0 : BitVec 3) 13 (by omega)).trans
        ((extract_append_high (f7 ++ rs2) rs1 10 (by omega)).trans
          ((extract_append_high f7 rs2 5 (by omega)).trans BitVec.extractLsb'_eq_self))))

end Sys2Proof
end

