-- ==== Sys2Proof/Laws/Memory.lean ====
section
/-! SUPPORT. The laws of memory: a read after a write, bytes a write leaves alone, the canonical form, little-endian values. -/

namespace Sys2Proof.Machine

theorem readByte_writeByte_same (m : Memory) (a : Nat) (b : Byte) : readByte (writeByte m a b) a = some b := by
  induction m with
  | nil => simp [writeByte, readByte]
  | cons cell rest ih =>
    obtain ⟨k, c⟩ := cell
    unfold writeByte
    split
    · simp [readByte]
    · split
      · simp [readByte]
      · rename_i hne
        have : k ≠ a := fun h => hne h.symm
        simp [readByte, this, ih]

theorem readByte_writeByte_other (m : Memory) {a a' : Nat} (b : Byte) (h : a' ≠ a) :
    readByte (writeByte m a b) a' = readByte m a' := by
  induction m with
  | nil => simp [writeByte, readByte, h.symm]
  | cons cell rest ih =>
    obtain ⟨k, c⟩ := cell
    unfold writeByte
    split
    · simp [readByte, h.symm]
    · split
      · rename_i hk
        subst hk
        simp [readByte, h.symm]
      · simp only [readByte, ih]

theorem risingFrom_writeByte (m : Memory) {low a : Nat} (b : Byte) (hlow : low ≤ a) (h : risingFrom low m = true) :
    risingFrom low (writeByte m a b) = true := by
  induction m generalizing low with
  | nil => simp [writeByte, risingFrom, hlow]
  | cons cell rest ih =>
    obtain ⟨k, c⟩ := cell
    simp only [risingFrom, Bool.and_eq_true, decide_eq_true_eq] at h
    unfold writeByte
    split
    · rename_i hlt
      simp only [risingFrom, Bool.and_eq_true, decide_eq_true_eq]
      exact ⟨hlow, hlt, h.2⟩
    · split
      · rename_i hk
        subst hk
        simp only [risingFrom, Bool.and_eq_true, decide_eq_true_eq]
        exact h
      · simp only [risingFrom, Bool.and_eq_true, decide_eq_true_eq]
        exact ⟨h.1, ih (by omega) h.2⟩

theorem all_writeByte (p : Host.Cell → Bool) (m : Memory) (a : Nat) (b : Byte) (hm : m.all p = true) (ha : p (a, b) = true) :
    (writeByte m a b).all p = true := by
  induction m with
  | nil => simp [writeByte, ha]
  | cons cell rest ih =>
    obtain ⟨k, c⟩ := cell
    simp only [List.all_cons, Bool.and_eq_true] at hm
    unfold writeByte
    split
    · simp [List.all_cons, ha, hm]
    · split
      · simp [List.all_cons, ha, hm]
      · simp [List.all_cons, hm.1, ih hm.2]

/-- Writing a byte keeps the canonical form. -/
theorem wf_writeByte {m : Memory} (h : Memory.wf m = true) (a : Word) (b : Byte) : Memory.wf (writeByte m a.toNat b) = true := by
  simp only [Memory.wf, Bool.and_eq_true] at h ⊢
  exact ⟨risingFrom_writeByte m b (Nat.zero_le _) h.1, all_writeByte _ m _ b h.2 (decide_eq_true a.isLt)⟩

/-- Writing bytes keeps the canonical form. -/
theorem wf_writeBytes {m : Memory} (h : Memory.wf m = true) (a : Word) (bytes : List Byte) :
    Memory.wf (writeBytes m a bytes) = true := by
  induction bytes generalizing m a with
  | nil => exact h
  | cons b bs ih => exact ih (wf_writeByte h a b) (a + 1)

theorem wf_nil : Memory.wf [] = true := rfl

/-- A store keeps the canonical form. -/
theorem memWrite_wf {s t : State} {address : Word} {n : Nat} {page : Option Page} {value : Nat}
    (h : memWrite s address n page value = .done t) (hwf : Memory.wf s.mem = true) : Memory.wf t.mem = true := by
  unfold memWrite at h
  split at h
  · cases h
  · cases h
    exact wf_writeBytes hwf _ _

/-- Placing an instruction word keeps the canonical form. -/
theorem placeAtPc_wf {s : State} (hwf : Memory.wf s.mem = true) (w : InsnWord) : Memory.wf (placeAtPc s w).mem = true :=
  wf_writeBytes hwf _ _

/-- A write of bytes leaves alone every address it does not reach. -/
theorem readByte_writeBytes_other (m : Memory) (a : Word) (bytes : List Byte) {a' : Nat}
    (h : ∀ k : Nat, k < bytes.length → a' ≠ (a + BitVec.ofNat 64 k).toNat) :
    readByte (writeBytes m a bytes) a' = readByte m a' := by
  induction bytes generalizing m a with
  | nil => rfl
  | cons b bs ih =>
    have h0 : a' ≠ a.toNat := by simpa using h 0 (by simp)
    rw [writeBytes, ih, readByte_writeByte_other _ _ h0]
    intro k hk
    have := h (k + 1) (by simpa using hk)
    rwa [show a + BitVec.ofNat 64 (k + 1) = a + 1 + BitVec.ofNat 64 k by
      rw [BitVec.ofNat_add, BitVec.add_assoc, BitVec.add_comm (BitVec.ofNat 64 k)]; rfl] at this

theorem leBytes_length (v n : Nat) : (leBytes v n).length = n := by
  induction n generalizing v with
  | zero => rfl
  | succ n ih => simp [leBytes, ih]

/-- The value of the little-endian bytes of a value is the value, cut to their width. -/
theorem leValue_leBytes (v n : Nat) : leValue (leBytes v n) = v % 256 ^ n := by
  induction n generalizing v with
  | zero => simp [leBytes, leValue, Nat.mod_one]
  | succ n ih =>
    rw [leBytes, leValue, ih, BitVec.toNat_ofNat, show (256 : Nat) ^ (n + 1) = 256 * 256 ^ n by ring, Nat.mod_mul]

/-- Data is little-endian at every privilege level (20_memory.md R80). -/
@[simp] theorem bigEndian_eq_false (p : Priv) : bigEndian p = false := by
  cases p <;> rfl

@[simp] theorem inDataOrder_eq (s : State) (bytes : List Byte) : inDataOrder s bytes = bytes := by
  simp [inDataOrder]

end Sys2Proof.Machine
end

