-- ==== Sys2Proof/Laws/State.lean ====
section
/-! SUPPORT. What each update of the state makes of each field: one lemma per field per update, true by definition, so that no
proof unfolds a record update. -/

namespace Sys2Proof.Machine

/-! ### State.advance -/

@[simp] theorem State.advance_params (s : State) : s.advance.params = s.params := rfl

@[simp] theorem State.advance_mstatus (s : State) : s.advance.mstatus = s.mstatus := rfl

@[simp] theorem State.advance_priv (s : State) : s.advance.priv = s.priv := rfl

@[simp] theorem State.advance_v (s : State) : s.advance.v = s.v := rfl

@[simp] theorem State.advance_pc (s : State) : s.advance.pc = s.pc + 4 := rfl

@[simp] theorem State.advance_regs (s : State) : s.advance.regs = s.regs := rfl

@[simp] theorem State.advance_mem (s : State) : s.advance.mem = s.mem := rfl

@[simp] theorem State.advance_misa (s : State) : s.advance.misa = s.misa := rfl

@[simp] theorem State.advance_mie (s : State) : s.advance.mie = s.mie := rfl

@[simp] theorem State.advance_mtval (s : State) : s.advance.mtval = s.mtval := rfl

@[simp] theorem State.advance_sie (s : State) : s.advance.sie = s.sie := rfl

@[simp] theorem State.advance_satp (s : State) : s.advance.satp = s.satp := rfl

@[simp] theorem State.advance_hstatus (s : State) : s.advance.hstatus = s.hstatus := rfl

@[simp] theorem State.advance_hgatp (s : State) : s.advance.hgatp = s.hgatp := rfl

@[simp] theorem State.advance_vsstatus (s : State) : s.advance.vsstatus = s.vsstatus := rfl

@[simp] theorem State.advance_fcsr (s : State) : s.advance.fcsr = s.fcsr := rfl

@[simp] theorem State.advance_mRetAddr (s : State) : s.advance.mRetAddr = s.mRetAddr := rfl

@[simp] theorem State.advance_sRetAddr (s : State) : s.advance.sRetAddr = s.sRetAddr := rfl

@[simp] theorem State.advance_vsRetAddr (s : State) : s.advance.vsRetAddr = s.vsRetAddr := rfl

@[simp] theorem State.advance_mCause (s : State) : s.advance.mCause = s.mCause := rfl

@[simp] theorem State.advance_sCause (s : State) : s.advance.sCause = s.sCause := rfl

@[simp] theorem State.advance_vsCause (s : State) : s.advance.vsCause = s.vsCause := rfl

@[simp] theorem State.advance_translation (s : State) : s.advance.translation = s.translation := rfl

@[simp] theorem State.advance_wfiWaiting (s : State) : s.advance.wfiWaiting = s.wfiWaiting := rfl

@[simp] theorem State.advance_trapInputs (s : State) : s.advance.trapInputs = s.trapInputs := rfl

@[simp] theorem State.advance_wfiInputs (s : State) : s.advance.wfiInputs = s.wfiInputs := rfl

@[simp] theorem State.advance_tvmReadInputs (s : State) : s.advance.tvmReadInputs = s.tvmReadInputs := rfl

@[simp] theorem State.advance_sretVInputs (s : State) : s.advance.sretVInputs = s.sretVInputs := rfl

@[simp] theorem State.advance_envEvents (s : State) : s.advance.envEvents = s.envEvents := rfl

@[simp] theorem State.advance_drawCount (s : State) : s.advance.drawCount = s.drawCount := rfl

/-! ### State.dropTrapInput -/

@[simp] theorem State.dropTrapInput_params (s : State) : s.dropTrapInput.params = s.params := rfl

@[simp] theorem State.dropTrapInput_mstatus (s : State) : s.dropTrapInput.mstatus = s.mstatus := rfl

@[simp] theorem State.dropTrapInput_priv (s : State) : s.dropTrapInput.priv = s.priv := rfl

@[simp] theorem State.dropTrapInput_v (s : State) : s.dropTrapInput.v = s.v := rfl

@[simp] theorem State.dropTrapInput_pc (s : State) : s.dropTrapInput.pc = s.pc := rfl

@[simp] theorem State.dropTrapInput_regs (s : State) : s.dropTrapInput.regs = s.regs := rfl

@[simp] theorem State.dropTrapInput_mem (s : State) : s.dropTrapInput.mem = s.mem := rfl

@[simp] theorem State.dropTrapInput_misa (s : State) : s.dropTrapInput.misa = s.misa := rfl

@[simp] theorem State.dropTrapInput_mie (s : State) : s.dropTrapInput.mie = s.mie := rfl

@[simp] theorem State.dropTrapInput_mtval (s : State) : s.dropTrapInput.mtval = s.mtval := rfl

@[simp] theorem State.dropTrapInput_sie (s : State) : s.dropTrapInput.sie = s.sie := rfl

@[simp] theorem State.dropTrapInput_satp (s : State) : s.dropTrapInput.satp = s.satp := rfl

@[simp] theorem State.dropTrapInput_hstatus (s : State) : s.dropTrapInput.hstatus = s.hstatus := rfl

@[simp] theorem State.dropTrapInput_hgatp (s : State) : s.dropTrapInput.hgatp = s.hgatp := rfl

@[simp] theorem State.dropTrapInput_vsstatus (s : State) : s.dropTrapInput.vsstatus = s.vsstatus := rfl

@[simp] theorem State.dropTrapInput_fcsr (s : State) : s.dropTrapInput.fcsr = s.fcsr := rfl

@[simp] theorem State.dropTrapInput_mRetAddr (s : State) : s.dropTrapInput.mRetAddr = s.mRetAddr := rfl

@[simp] theorem State.dropTrapInput_sRetAddr (s : State) : s.dropTrapInput.sRetAddr = s.sRetAddr := rfl

@[simp] theorem State.dropTrapInput_vsRetAddr (s : State) : s.dropTrapInput.vsRetAddr = s.vsRetAddr := rfl

@[simp] theorem State.dropTrapInput_mCause (s : State) : s.dropTrapInput.mCause = s.mCause := rfl

@[simp] theorem State.dropTrapInput_sCause (s : State) : s.dropTrapInput.sCause = s.sCause := rfl

@[simp] theorem State.dropTrapInput_vsCause (s : State) : s.dropTrapInput.vsCause = s.vsCause := rfl

@[simp] theorem State.dropTrapInput_translation (s : State) : s.dropTrapInput.translation = s.translation := rfl

@[simp] theorem State.dropTrapInput_wfiWaiting (s : State) : s.dropTrapInput.wfiWaiting = s.wfiWaiting := rfl

@[simp] theorem State.dropTrapInput_trapInputs (s : State) :
    s.dropTrapInput.trapInputs = s.trapInputs.tail := rfl

@[simp] theorem State.dropTrapInput_wfiInputs (s : State) : s.dropTrapInput.wfiInputs = s.wfiInputs := rfl

@[simp] theorem State.dropTrapInput_tvmReadInputs (s : State) : s.dropTrapInput.tvmReadInputs = s.tvmReadInputs := rfl

@[simp] theorem State.dropTrapInput_sretVInputs (s : State) : s.dropTrapInput.sretVInputs = s.sretVInputs := rfl

@[simp] theorem State.dropTrapInput_envEvents (s : State) : s.dropTrapInput.envEvents = s.envEvents := rfl

@[simp] theorem State.dropTrapInput_drawCount (s : State) :
    s.dropTrapInput.drawCount = if s.trapInputs.isEmpty then s.drawCount + 1 else s.drawCount := rfl

/-! ### State.dropWfiDraw -/

@[simp] theorem State.dropWfiDraw_params (s : State) : s.dropWfiDraw.params = s.params := rfl

@[simp] theorem State.dropWfiDraw_mstatus (s : State) : s.dropWfiDraw.mstatus = s.mstatus := rfl

@[simp] theorem State.dropWfiDraw_priv (s : State) : s.dropWfiDraw.priv = s.priv := rfl

@[simp] theorem State.dropWfiDraw_v (s : State) : s.dropWfiDraw.v = s.v := rfl

@[simp] theorem State.dropWfiDraw_pc (s : State) : s.dropWfiDraw.pc = s.pc := rfl

@[simp] theorem State.dropWfiDraw_regs (s : State) : s.dropWfiDraw.regs = s.regs := rfl

@[simp] theorem State.dropWfiDraw_mem (s : State) : s.dropWfiDraw.mem = s.mem := rfl

@[simp] theorem State.dropWfiDraw_misa (s : State) : s.dropWfiDraw.misa = s.misa := rfl

@[simp] theorem State.dropWfiDraw_mie (s : State) : s.dropWfiDraw.mie = s.mie := rfl

@[simp] theorem State.dropWfiDraw_mtval (s : State) : s.dropWfiDraw.mtval = s.mtval := rfl

@[simp] theorem State.dropWfiDraw_sie (s : State) : s.dropWfiDraw.sie = s.sie := rfl

@[simp] theorem State.dropWfiDraw_satp (s : State) : s.dropWfiDraw.satp = s.satp := rfl

@[simp] theorem State.dropWfiDraw_hstatus (s : State) : s.dropWfiDraw.hstatus = s.hstatus := rfl

@[simp] theorem State.dropWfiDraw_hgatp (s : State) : s.dropWfiDraw.hgatp = s.hgatp := rfl

@[simp] theorem State.dropWfiDraw_vsstatus (s : State) : s.dropWfiDraw.vsstatus = s.vsstatus := rfl

@[simp] theorem State.dropWfiDraw_fcsr (s : State) : s.dropWfiDraw.fcsr = s.fcsr := rfl

@[simp] theorem State.dropWfiDraw_mRetAddr (s : State) : s.dropWfiDraw.mRetAddr = s.mRetAddr := rfl

@[simp] theorem State.dropWfiDraw_sRetAddr (s : State) : s.dropWfiDraw.sRetAddr = s.sRetAddr := rfl

@[simp] theorem State.dropWfiDraw_vsRetAddr (s : State) : s.dropWfiDraw.vsRetAddr = s.vsRetAddr := rfl

@[simp] theorem State.dropWfiDraw_mCause (s : State) : s.dropWfiDraw.mCause = s.mCause := rfl

@[simp] theorem State.dropWfiDraw_sCause (s : State) : s.dropWfiDraw.sCause = s.sCause := rfl

@[simp] theorem State.dropWfiDraw_vsCause (s : State) : s.dropWfiDraw.vsCause = s.vsCause := rfl

@[simp] theorem State.dropWfiDraw_translation (s : State) : s.dropWfiDraw.translation = s.translation := rfl

@[simp] theorem State.dropWfiDraw_wfiWaiting (s : State) : s.dropWfiDraw.wfiWaiting = s.wfiWaiting := rfl

@[simp] theorem State.dropWfiDraw_trapInputs (s : State) : s.dropWfiDraw.trapInputs = s.trapInputs := rfl

@[simp] theorem State.dropWfiDraw_wfiInputs (s : State) : s.dropWfiDraw.wfiInputs = s.wfiInputs.tail := rfl

@[simp] theorem State.dropWfiDraw_tvmReadInputs (s : State) : s.dropWfiDraw.tvmReadInputs = s.tvmReadInputs := rfl

@[simp] theorem State.dropWfiDraw_sretVInputs (s : State) : s.dropWfiDraw.sretVInputs = s.sretVInputs := rfl

@[simp] theorem State.dropWfiDraw_envEvents (s : State) : s.dropWfiDraw.envEvents = s.envEvents := rfl

@[simp] theorem State.dropWfiDraw_drawCount (s : State) :
    s.dropWfiDraw.drawCount = if s.wfiInputs.isEmpty then s.drawCount + 1 else s.drawCount := rfl

/-! ### State.dropTvmRead -/

@[simp] theorem State.dropTvmRead_params (s : State) : s.dropTvmRead.params = s.params := rfl

@[simp] theorem State.dropTvmRead_mstatus (s : State) : s.dropTvmRead.mstatus = s.mstatus := rfl

@[simp] theorem State.dropTvmRead_priv (s : State) : s.dropTvmRead.priv = s.priv := rfl

@[simp] theorem State.dropTvmRead_v (s : State) : s.dropTvmRead.v = s.v := rfl

@[simp] theorem State.dropTvmRead_pc (s : State) : s.dropTvmRead.pc = s.pc := rfl

@[simp] theorem State.dropTvmRead_regs (s : State) : s.dropTvmRead.regs = s.regs := rfl

@[simp] theorem State.dropTvmRead_mem (s : State) : s.dropTvmRead.mem = s.mem := rfl

@[simp] theorem State.dropTvmRead_misa (s : State) : s.dropTvmRead.misa = s.misa := rfl

@[simp] theorem State.dropTvmRead_mie (s : State) : s.dropTvmRead.mie = s.mie := rfl

@[simp] theorem State.dropTvmRead_mtval (s : State) : s.dropTvmRead.mtval = s.mtval := rfl

@[simp] theorem State.dropTvmRead_sie (s : State) : s.dropTvmRead.sie = s.sie := rfl

@[simp] theorem State.dropTvmRead_satp (s : State) : s.dropTvmRead.satp = s.satp := rfl

@[simp] theorem State.dropTvmRead_hstatus (s : State) : s.dropTvmRead.hstatus = s.hstatus := rfl

@[simp] theorem State.dropTvmRead_hgatp (s : State) : s.dropTvmRead.hgatp = s.hgatp := rfl

@[simp] theorem State.dropTvmRead_vsstatus (s : State) : s.dropTvmRead.vsstatus = s.vsstatus := rfl

@[simp] theorem State.dropTvmRead_fcsr (s : State) : s.dropTvmRead.fcsr = s.fcsr := rfl

@[simp] theorem State.dropTvmRead_mRetAddr (s : State) : s.dropTvmRead.mRetAddr = s.mRetAddr := rfl

@[simp] theorem State.dropTvmRead_sRetAddr (s : State) : s.dropTvmRead.sRetAddr = s.sRetAddr := rfl

@[simp] theorem State.dropTvmRead_vsRetAddr (s : State) : s.dropTvmRead.vsRetAddr = s.vsRetAddr := rfl

@[simp] theorem State.dropTvmRead_mCause (s : State) : s.dropTvmRead.mCause = s.mCause := rfl

@[simp] theorem State.dropTvmRead_sCause (s : State) : s.dropTvmRead.sCause = s.sCause := rfl

@[simp] theorem State.dropTvmRead_vsCause (s : State) : s.dropTvmRead.vsCause = s.vsCause := rfl

@[simp] theorem State.dropTvmRead_translation (s : State) : s.dropTvmRead.translation = s.translation := rfl

@[simp] theorem State.dropTvmRead_wfiWaiting (s : State) : s.dropTvmRead.wfiWaiting = s.wfiWaiting := rfl

@[simp] theorem State.dropTvmRead_trapInputs (s : State) : s.dropTvmRead.trapInputs = s.trapInputs := rfl

@[simp] theorem State.dropTvmRead_wfiInputs (s : State) : s.dropTvmRead.wfiInputs = s.wfiInputs := rfl

@[simp] theorem State.dropTvmRead_tvmReadInputs (s : State) :
    s.dropTvmRead.tvmReadInputs = s.tvmReadInputs.tail := rfl

@[simp] theorem State.dropTvmRead_sretVInputs (s : State) : s.dropTvmRead.sretVInputs = s.sretVInputs := rfl

@[simp] theorem State.dropTvmRead_envEvents (s : State) : s.dropTvmRead.envEvents = s.envEvents := rfl

@[simp] theorem State.dropTvmRead_drawCount (s : State) :
    s.dropTvmRead.drawCount = if s.tvmReadInputs.isEmpty then s.drawCount + 1 else s.drawCount := rfl

/-! ### State.dropSretV -/

@[simp] theorem State.dropSretV_params (s : State) : s.dropSretV.params = s.params := rfl

@[simp] theorem State.dropSretV_mstatus (s : State) : s.dropSretV.mstatus = s.mstatus := rfl

@[simp] theorem State.dropSretV_priv (s : State) : s.dropSretV.priv = s.priv := rfl

@[simp] theorem State.dropSretV_v (s : State) : s.dropSretV.v = s.v := rfl

@[simp] theorem State.dropSretV_pc (s : State) : s.dropSretV.pc = s.pc := rfl

@[simp] theorem State.dropSretV_regs (s : State) : s.dropSretV.regs = s.regs := rfl

@[simp] theorem State.dropSretV_mem (s : State) : s.dropSretV.mem = s.mem := rfl

@[simp] theorem State.dropSretV_misa (s : State) : s.dropSretV.misa = s.misa := rfl

@[simp] theorem State.dropSretV_mie (s : State) : s.dropSretV.mie = s.mie := rfl

@[simp] theorem State.dropSretV_mtval (s : State) : s.dropSretV.mtval = s.mtval := rfl

@[simp] theorem State.dropSretV_sie (s : State) : s.dropSretV.sie = s.sie := rfl

@[simp] theorem State.dropSretV_satp (s : State) : s.dropSretV.satp = s.satp := rfl

@[simp] theorem State.dropSretV_hstatus (s : State) : s.dropSretV.hstatus = s.hstatus := rfl

@[simp] theorem State.dropSretV_hgatp (s : State) : s.dropSretV.hgatp = s.hgatp := rfl

@[simp] theorem State.dropSretV_vsstatus (s : State) : s.dropSretV.vsstatus = s.vsstatus := rfl

@[simp] theorem State.dropSretV_fcsr (s : State) : s.dropSretV.fcsr = s.fcsr := rfl

@[simp] theorem State.dropSretV_mRetAddr (s : State) : s.dropSretV.mRetAddr = s.mRetAddr := rfl

@[simp] theorem State.dropSretV_sRetAddr (s : State) : s.dropSretV.sRetAddr = s.sRetAddr := rfl

@[simp] theorem State.dropSretV_vsRetAddr (s : State) : s.dropSretV.vsRetAddr = s.vsRetAddr := rfl

@[simp] theorem State.dropSretV_mCause (s : State) : s.dropSretV.mCause = s.mCause := rfl

@[simp] theorem State.dropSretV_sCause (s : State) : s.dropSretV.sCause = s.sCause := rfl

@[simp] theorem State.dropSretV_vsCause (s : State) : s.dropSretV.vsCause = s.vsCause := rfl

@[simp] theorem State.dropSretV_translation (s : State) : s.dropSretV.translation = s.translation := rfl

@[simp] theorem State.dropSretV_wfiWaiting (s : State) : s.dropSretV.wfiWaiting = s.wfiWaiting := rfl

@[simp] theorem State.dropSretV_trapInputs (s : State) : s.dropSretV.trapInputs = s.trapInputs := rfl

@[simp] theorem State.dropSretV_wfiInputs (s : State) : s.dropSretV.wfiInputs = s.wfiInputs := rfl

@[simp] theorem State.dropSretV_tvmReadInputs (s : State) : s.dropSretV.tvmReadInputs = s.tvmReadInputs := rfl

@[simp] theorem State.dropSretV_sretVInputs (s : State) : s.dropSretV.sretVInputs = s.sretVInputs.tail := rfl

@[simp] theorem State.dropSretV_envEvents (s : State) : s.dropSretV.envEvents = s.envEvents := rfl

@[simp] theorem State.dropSretV_drawCount (s : State) :
    s.dropSretV.drawCount = if s.sretVInputs.isEmpty then s.drawCount + 1 else s.drawCount := rfl

/-! ### State.pastBoundary -/

@[simp] theorem State.pastBoundary_params (s : State) : s.pastBoundary.params = s.params := rfl

@[simp] theorem State.pastBoundary_mstatus (s : State) : s.pastBoundary.mstatus = s.mstatus := rfl

@[simp] theorem State.pastBoundary_priv (s : State) : s.pastBoundary.priv = s.priv := rfl

@[simp] theorem State.pastBoundary_v (s : State) : s.pastBoundary.v = s.v := rfl

@[simp] theorem State.pastBoundary_pc (s : State) : s.pastBoundary.pc = s.pc := rfl

@[simp] theorem State.pastBoundary_regs (s : State) : s.pastBoundary.regs = s.regs := rfl

@[simp] theorem State.pastBoundary_mem (s : State) : s.pastBoundary.mem = s.mem := rfl

@[simp] theorem State.pastBoundary_misa (s : State) : s.pastBoundary.misa = s.misa := rfl

@[simp] theorem State.pastBoundary_mie (s : State) : s.pastBoundary.mie = s.mie := rfl

@[simp] theorem State.pastBoundary_mtval (s : State) : s.pastBoundary.mtval = s.mtval := rfl

@[simp] theorem State.pastBoundary_sie (s : State) : s.pastBoundary.sie = s.sie := rfl

@[simp] theorem State.pastBoundary_satp (s : State) : s.pastBoundary.satp = s.satp := rfl

@[simp] theorem State.pastBoundary_hstatus (s : State) : s.pastBoundary.hstatus = s.hstatus := rfl

@[simp] theorem State.pastBoundary_hgatp (s : State) : s.pastBoundary.hgatp = s.hgatp := rfl

@[simp] theorem State.pastBoundary_vsstatus (s : State) : s.pastBoundary.vsstatus = s.vsstatus := rfl

@[simp] theorem State.pastBoundary_fcsr (s : State) : s.pastBoundary.fcsr = s.fcsr := rfl

@[simp] theorem State.pastBoundary_mRetAddr (s : State) : s.pastBoundary.mRetAddr = s.mRetAddr := rfl

@[simp] theorem State.pastBoundary_sRetAddr (s : State) : s.pastBoundary.sRetAddr = s.sRetAddr := rfl

@[simp] theorem State.pastBoundary_vsRetAddr (s : State) : s.pastBoundary.vsRetAddr = s.vsRetAddr := rfl

@[simp] theorem State.pastBoundary_mCause (s : State) : s.pastBoundary.mCause = s.mCause := rfl

@[simp] theorem State.pastBoundary_sCause (s : State) : s.pastBoundary.sCause = s.sCause := rfl

@[simp] theorem State.pastBoundary_vsCause (s : State) : s.pastBoundary.vsCause = s.vsCause := rfl

@[simp] theorem State.pastBoundary_translation (s : State) : s.pastBoundary.translation = s.translation := rfl

@[simp] theorem State.pastBoundary_wfiWaiting (s : State) : s.pastBoundary.wfiWaiting = s.wfiWaiting := rfl

@[simp] theorem State.pastBoundary_trapInputs (s : State) : s.pastBoundary.trapInputs = s.trapInputs := rfl

@[simp] theorem State.pastBoundary_wfiInputs (s : State) : s.pastBoundary.wfiInputs = s.wfiInputs := rfl

@[simp] theorem State.pastBoundary_tvmReadInputs (s : State) : s.pastBoundary.tvmReadInputs = s.tvmReadInputs := rfl

@[simp] theorem State.pastBoundary_sretVInputs (s : State) : s.pastBoundary.sretVInputs = s.sretVInputs := rfl

@[simp] theorem State.pastBoundary_envEvents (s : State) : s.pastBoundary.envEvents = s.envEvents.tail := rfl

@[simp] theorem State.pastBoundary_drawCount (s : State) : s.pastBoundary.drawCount = s.drawCount := rfl

/-! ### State.fpWritten -/

@[simp] theorem State.fpWritten_params (s : State) : s.fpWritten.params = s.params := rfl

@[simp] theorem State.fpWritten_mstatus (s : State) :
    s.fpWritten.mstatus = { s.mstatus with fs := fsDirtied s } := rfl

@[simp] theorem State.fpWritten_priv (s : State) : s.fpWritten.priv = s.priv := rfl

@[simp] theorem State.fpWritten_v (s : State) : s.fpWritten.v = s.v := rfl

@[simp] theorem State.fpWritten_pc (s : State) : s.fpWritten.pc = s.pc := rfl

@[simp] theorem State.fpWritten_regs (s : State) : s.fpWritten.regs = s.regs := rfl

@[simp] theorem State.fpWritten_mem (s : State) : s.fpWritten.mem = s.mem := rfl

@[simp] theorem State.fpWritten_misa (s : State) : s.fpWritten.misa = s.misa := rfl

@[simp] theorem State.fpWritten_mie (s : State) : s.fpWritten.mie = s.mie := rfl

@[simp] theorem State.fpWritten_mtval (s : State) : s.fpWritten.mtval = s.mtval := rfl

@[simp] theorem State.fpWritten_sie (s : State) : s.fpWritten.sie = s.sie := rfl

@[simp] theorem State.fpWritten_satp (s : State) : s.fpWritten.satp = s.satp := rfl

@[simp] theorem State.fpWritten_hstatus (s : State) : s.fpWritten.hstatus = s.hstatus := rfl

@[simp] theorem State.fpWritten_hgatp (s : State) : s.fpWritten.hgatp = s.hgatp := rfl

@[simp] theorem State.fpWritten_vsstatus (s : State) :
    s.fpWritten.vsstatus = if s.v then Config.vsstatusFpWritten s.vsstatus else s.vsstatus := rfl

@[simp] theorem State.fpWritten_fcsr (s : State) : s.fpWritten.fcsr = s.fcsr := rfl

@[simp] theorem State.fpWritten_mRetAddr (s : State) : s.fpWritten.mRetAddr = s.mRetAddr := rfl

@[simp] theorem State.fpWritten_sRetAddr (s : State) : s.fpWritten.sRetAddr = s.sRetAddr := rfl

@[simp] theorem State.fpWritten_vsRetAddr (s : State) : s.fpWritten.vsRetAddr = s.vsRetAddr := rfl

@[simp] theorem State.fpWritten_mCause (s : State) : s.fpWritten.mCause = s.mCause := rfl

@[simp] theorem State.fpWritten_sCause (s : State) : s.fpWritten.sCause = s.sCause := rfl

@[simp] theorem State.fpWritten_vsCause (s : State) : s.fpWritten.vsCause = s.vsCause := rfl

@[simp] theorem State.fpWritten_translation (s : State) : s.fpWritten.translation = s.translation := rfl

@[simp] theorem State.fpWritten_wfiWaiting (s : State) : s.fpWritten.wfiWaiting = s.wfiWaiting := rfl

@[simp] theorem State.fpWritten_trapInputs (s : State) : s.fpWritten.trapInputs = s.trapInputs := rfl

@[simp] theorem State.fpWritten_wfiInputs (s : State) : s.fpWritten.wfiInputs = s.wfiInputs := rfl

@[simp] theorem State.fpWritten_tvmReadInputs (s : State) : s.fpWritten.tvmReadInputs = s.tvmReadInputs := rfl

@[simp] theorem State.fpWritten_sretVInputs (s : State) : s.fpWritten.sretVInputs = s.sretVInputs := rfl

@[simp] theorem State.fpWritten_envEvents (s : State) : s.fpWritten.envEvents = s.envEvents := rfl

@[simp] theorem State.fpWritten_drawCount (s : State) : s.fpWritten.drawCount = s.drawCount := rfl

/-! ### State.vectorWritten -/

@[simp] theorem State.vectorWritten_params (s : State) : s.vectorWritten.params = s.params := rfl

@[simp] theorem State.vectorWritten_mstatus (s : State) :
    s.vectorWritten.mstatus = { s.mstatus with vs := vsDirtied s } := rfl

@[simp] theorem State.vectorWritten_priv (s : State) : s.vectorWritten.priv = s.priv := rfl

@[simp] theorem State.vectorWritten_v (s : State) : s.vectorWritten.v = s.v := rfl

@[simp] theorem State.vectorWritten_pc (s : State) : s.vectorWritten.pc = s.pc := rfl

@[simp] theorem State.vectorWritten_regs (s : State) : s.vectorWritten.regs = s.regs := rfl

@[simp] theorem State.vectorWritten_mem (s : State) : s.vectorWritten.mem = s.mem := rfl

@[simp] theorem State.vectorWritten_misa (s : State) : s.vectorWritten.misa = s.misa := rfl

@[simp] theorem State.vectorWritten_mie (s : State) : s.vectorWritten.mie = s.mie := rfl

@[simp] theorem State.vectorWritten_mtval (s : State) : s.vectorWritten.mtval = s.mtval := rfl

@[simp] theorem State.vectorWritten_sie (s : State) : s.vectorWritten.sie = s.sie := rfl

@[simp] theorem State.vectorWritten_satp (s : State) : s.vectorWritten.satp = s.satp := rfl

@[simp] theorem State.vectorWritten_hstatus (s : State) : s.vectorWritten.hstatus = s.hstatus := rfl

@[simp] theorem State.vectorWritten_hgatp (s : State) : s.vectorWritten.hgatp = s.hgatp := rfl

@[simp] theorem State.vectorWritten_vsstatus (s : State) :
    s.vectorWritten.vsstatus = if s.v then Config.vsstatusVectorWritten s.vsstatus else s.vsstatus := rfl

@[simp] theorem State.vectorWritten_fcsr (s : State) : s.vectorWritten.fcsr = s.fcsr := rfl

@[simp] theorem State.vectorWritten_mRetAddr (s : State) : s.vectorWritten.mRetAddr = s.mRetAddr := rfl

@[simp] theorem State.vectorWritten_sRetAddr (s : State) : s.vectorWritten.sRetAddr = s.sRetAddr := rfl

@[simp] theorem State.vectorWritten_vsRetAddr (s : State) : s.vectorWritten.vsRetAddr = s.vsRetAddr := rfl

@[simp] theorem State.vectorWritten_mCause (s : State) : s.vectorWritten.mCause = s.mCause := rfl

@[simp] theorem State.vectorWritten_sCause (s : State) : s.vectorWritten.sCause = s.sCause := rfl

@[simp] theorem State.vectorWritten_vsCause (s : State) : s.vectorWritten.vsCause = s.vsCause := rfl

@[simp] theorem State.vectorWritten_translation (s : State) : s.vectorWritten.translation = s.translation := rfl

@[simp] theorem State.vectorWritten_wfiWaiting (s : State) : s.vectorWritten.wfiWaiting = s.wfiWaiting := rfl

@[simp] theorem State.vectorWritten_trapInputs (s : State) : s.vectorWritten.trapInputs = s.trapInputs := rfl

@[simp] theorem State.vectorWritten_wfiInputs (s : State) : s.vectorWritten.wfiInputs = s.wfiInputs := rfl

@[simp] theorem State.vectorWritten_tvmReadInputs (s : State) : s.vectorWritten.tvmReadInputs = s.tvmReadInputs := rfl

@[simp] theorem State.vectorWritten_sretVInputs (s : State) : s.vectorWritten.sretVInputs = s.sretVInputs := rfl

@[simp] theorem State.vectorWritten_envEvents (s : State) : s.vectorWritten.envEvents = s.envEvents := rfl

@[simp] theorem State.vectorWritten_drawCount (s : State) : s.vectorWritten.drawCount = s.drawCount := rfl

/-! ### trapEntryM -/

@[simp] theorem trapEntryM_params (input : TrapInput) (cause : Cause) (s : State) :
    (trapEntryM input cause s).params = s.params := rfl

@[simp] theorem trapEntryM_mstatus (input : TrapInput) (cause : Cause) (s : State) :
    (trapEntryM input cause s).mstatus = { s.mstatus with mpv := s.v, gva := input.gva && s.params.extH, mpp := s.priv, mpie := s.mstatus.mie, mie := false } := rfl

@[simp] theorem trapEntryM_priv (input : TrapInput) (cause : Cause) (s : State) :
    (trapEntryM input cause s).priv = .m := rfl

@[simp] theorem trapEntryM_v (input : TrapInput) (cause : Cause) (s : State) :
    (trapEntryM input cause s).v = false := rfl

@[simp] theorem trapEntryM_pc (input : TrapInput) (cause : Cause) (s : State) :
    (trapEntryM input cause s).pc = s.params.mVector := rfl

@[simp] theorem trapEntryM_regs (input : TrapInput) (cause : Cause) (s : State) :
    (trapEntryM input cause s).regs = s.regs := rfl

@[simp] theorem trapEntryM_mem (input : TrapInput) (cause : Cause) (s : State) :
    (trapEntryM input cause s).mem = s.mem := rfl

@[simp] theorem trapEntryM_misa (input : TrapInput) (cause : Cause) (s : State) :
    (trapEntryM input cause s).misa = s.misa := rfl

@[simp] theorem trapEntryM_mie (input : TrapInput) (cause : Cause) (s : State) :
    (trapEntryM input cause s).mie = s.mie := rfl

@[simp] theorem trapEntryM_mtval (input : TrapInput) (cause : Cause) (s : State) :
    (trapEntryM input cause s).mtval = input.tval := rfl

@[simp] theorem trapEntryM_sie (input : TrapInput) (cause : Cause) (s : State) :
    (trapEntryM input cause s).sie = s.sie := rfl

@[simp] theorem trapEntryM_satp (input : TrapInput) (cause : Cause) (s : State) :
    (trapEntryM input cause s).satp = s.satp := rfl

@[simp] theorem trapEntryM_hstatus (input : TrapInput) (cause : Cause) (s : State) :
    (trapEntryM input cause s).hstatus = s.hstatus := rfl

@[simp] theorem trapEntryM_hgatp (input : TrapInput) (cause : Cause) (s : State) :
    (trapEntryM input cause s).hgatp = s.hgatp := rfl

@[simp] theorem trapEntryM_vsstatus (input : TrapInput) (cause : Cause) (s : State) :
    (trapEntryM input cause s).vsstatus = s.vsstatus := rfl

@[simp] theorem trapEntryM_fcsr (input : TrapInput) (cause : Cause) (s : State) :
    (trapEntryM input cause s).fcsr = s.fcsr := rfl

@[simp] theorem trapEntryM_mRetAddr (input : TrapInput) (cause : Cause) (s : State) :
    (trapEntryM input cause s).mRetAddr = input.retAddr := rfl

@[simp] theorem trapEntryM_sRetAddr (input : TrapInput) (cause : Cause) (s : State) :
    (trapEntryM input cause s).sRetAddr = s.sRetAddr := rfl

@[simp] theorem trapEntryM_vsRetAddr (input : TrapInput) (cause : Cause) (s : State) :
    (trapEntryM input cause s).vsRetAddr = s.vsRetAddr := rfl

@[simp] theorem trapEntryM_mCause (input : TrapInput) (cause : Cause) (s : State) :
    (trapEntryM input cause s).mCause = cause := rfl

@[simp] theorem trapEntryM_sCause (input : TrapInput) (cause : Cause) (s : State) :
    (trapEntryM input cause s).sCause = s.sCause := rfl

@[simp] theorem trapEntryM_vsCause (input : TrapInput) (cause : Cause) (s : State) :
    (trapEntryM input cause s).vsCause = s.vsCause := rfl

@[simp] theorem trapEntryM_translation (input : TrapInput) (cause : Cause) (s : State) :
    (trapEntryM input cause s).translation = s.translation := rfl

@[simp] theorem trapEntryM_wfiWaiting (input : TrapInput) (cause : Cause) (s : State) :
    (trapEntryM input cause s).wfiWaiting = false := rfl

@[simp] theorem trapEntryM_trapInputs (input : TrapInput) (cause : Cause) (s : State) :
    (trapEntryM input cause s).trapInputs = s.trapInputs := rfl

@[simp] theorem trapEntryM_wfiInputs (input : TrapInput) (cause : Cause) (s : State) :
    (trapEntryM input cause s).wfiInputs = s.wfiInputs := rfl

@[simp] theorem trapEntryM_tvmReadInputs (input : TrapInput) (cause : Cause) (s : State) :
    (trapEntryM input cause s).tvmReadInputs = s.tvmReadInputs := rfl

@[simp] theorem trapEntryM_sretVInputs (input : TrapInput) (cause : Cause) (s : State) :
    (trapEntryM input cause s).sretVInputs = s.sretVInputs := rfl

@[simp] theorem trapEntryM_envEvents (input : TrapInput) (cause : Cause) (s : State) :
    (trapEntryM input cause s).envEvents = s.envEvents := rfl

@[simp] theorem trapEntryM_drawCount (input : TrapInput) (cause : Cause) (s : State) :
    (trapEntryM input cause s).drawCount = s.drawCount := rfl

/-! ### trapEntryS -/

@[simp] theorem trapEntryS_params (input : TrapInput) (cause : Cause) (s : State) :
    (trapEntryS input cause s).params = s.params := rfl

@[simp] theorem trapEntryS_mstatus (input : TrapInput) (cause : Cause) (s : State) :
    (trapEntryS input cause s).mstatus = { s.mstatus with spp := s.priv == .s, spie := s.mstatus.sie, sie := false } := rfl

@[simp] theorem trapEntryS_priv (input : TrapInput) (cause : Cause) (s : State) :
    (trapEntryS input cause s).priv = .s := rfl

@[simp] theorem trapEntryS_v (input : TrapInput) (cause : Cause) (s : State) :
    (trapEntryS input cause s).v = false := rfl

@[simp] theorem trapEntryS_pc (input : TrapInput) (cause : Cause) (s : State) :
    (trapEntryS input cause s).pc = s.params.sVector := rfl

@[simp] theorem trapEntryS_regs (input : TrapInput) (cause : Cause) (s : State) :
    (trapEntryS input cause s).regs = s.regs := rfl

@[simp] theorem trapEntryS_mem (input : TrapInput) (cause : Cause) (s : State) :
    (trapEntryS input cause s).mem = s.mem := rfl

@[simp] theorem trapEntryS_misa (input : TrapInput) (cause : Cause) (s : State) :
    (trapEntryS input cause s).misa = s.misa := rfl

@[simp] theorem trapEntryS_mie (input : TrapInput) (cause : Cause) (s : State) :
    (trapEntryS input cause s).mie = s.mie := rfl

@[simp] theorem trapEntryS_mtval (input : TrapInput) (cause : Cause) (s : State) :
    (trapEntryS input cause s).mtval = s.mtval := rfl

@[simp] theorem trapEntryS_sie (input : TrapInput) (cause : Cause) (s : State) :
    (trapEntryS input cause s).sie = s.sie := rfl

@[simp] theorem trapEntryS_satp (input : TrapInput) (cause : Cause) (s : State) :
    (trapEntryS input cause s).satp = s.satp := rfl

@[simp] theorem trapEntryS_hstatus (input : TrapInput) (cause : Cause) (s : State) :
    (trapEntryS input cause s).hstatus = if s.params.extH then { s.hstatus with rest := Config.hstatusTrapRecord s.hstatus.rest s.v } else s.hstatus := rfl

@[simp] theorem trapEntryS_hgatp (input : TrapInput) (cause : Cause) (s : State) :
    (trapEntryS input cause s).hgatp = s.hgatp := rfl

@[simp] theorem trapEntryS_vsstatus (input : TrapInput) (cause : Cause) (s : State) :
    (trapEntryS input cause s).vsstatus = s.vsstatus := rfl

@[simp] theorem trapEntryS_fcsr (input : TrapInput) (cause : Cause) (s : State) :
    (trapEntryS input cause s).fcsr = s.fcsr := rfl

@[simp] theorem trapEntryS_mRetAddr (input : TrapInput) (cause : Cause) (s : State) :
    (trapEntryS input cause s).mRetAddr = s.mRetAddr := rfl

@[simp] theorem trapEntryS_sRetAddr (input : TrapInput) (cause : Cause) (s : State) :
    (trapEntryS input cause s).sRetAddr = input.retAddr := rfl

@[simp] theorem trapEntryS_vsRetAddr (input : TrapInput) (cause : Cause) (s : State) :
    (trapEntryS input cause s).vsRetAddr = s.vsRetAddr := rfl

@[simp] theorem trapEntryS_mCause (input : TrapInput) (cause : Cause) (s : State) :
    (trapEntryS input cause s).mCause = s.mCause := rfl

@[simp] theorem trapEntryS_sCause (input : TrapInput) (cause : Cause) (s : State) :
    (trapEntryS input cause s).sCause = cause := rfl

@[simp] theorem trapEntryS_vsCause (input : TrapInput) (cause : Cause) (s : State) :
    (trapEntryS input cause s).vsCause = s.vsCause := rfl

@[simp] theorem trapEntryS_translation (input : TrapInput) (cause : Cause) (s : State) :
    (trapEntryS input cause s).translation = s.translation := rfl

@[simp] theorem trapEntryS_wfiWaiting (input : TrapInput) (cause : Cause) (s : State) :
    (trapEntryS input cause s).wfiWaiting = false := rfl

@[simp] theorem trapEntryS_trapInputs (input : TrapInput) (cause : Cause) (s : State) :
    (trapEntryS input cause s).trapInputs = s.trapInputs := rfl

@[simp] theorem trapEntryS_wfiInputs (input : TrapInput) (cause : Cause) (s : State) :
    (trapEntryS input cause s).wfiInputs = s.wfiInputs := rfl

@[simp] theorem trapEntryS_tvmReadInputs (input : TrapInput) (cause : Cause) (s : State) :
    (trapEntryS input cause s).tvmReadInputs = s.tvmReadInputs := rfl

@[simp] theorem trapEntryS_sretVInputs (input : TrapInput) (cause : Cause) (s : State) :
    (trapEntryS input cause s).sretVInputs = s.sretVInputs := rfl

@[simp] theorem trapEntryS_envEvents (input : TrapInput) (cause : Cause) (s : State) :
    (trapEntryS input cause s).envEvents = s.envEvents := rfl

@[simp] theorem trapEntryS_drawCount (input : TrapInput) (cause : Cause) (s : State) :
    (trapEntryS input cause s).drawCount = s.drawCount := rfl

/-! ### trapEntryVs -/

@[simp] theorem trapEntryVs_params (input : TrapInput) (cause : Cause) (s : State) :
    (trapEntryVs input cause s).params = s.params := rfl

@[simp] theorem trapEntryVs_mstatus (input : TrapInput) (cause : Cause) (s : State) :
    (trapEntryVs input cause s).mstatus = s.mstatus := rfl

@[simp] theorem trapEntryVs_priv (input : TrapInput) (cause : Cause) (s : State) :
    (trapEntryVs input cause s).priv = .s := rfl

@[simp] theorem trapEntryVs_v (input : TrapInput) (cause : Cause) (s : State) :
    (trapEntryVs input cause s).v = true := rfl

@[simp] theorem trapEntryVs_pc (input : TrapInput) (cause : Cause) (s : State) :
    (trapEntryVs input cause s).pc = s.params.vsVector := rfl

@[simp] theorem trapEntryVs_regs (input : TrapInput) (cause : Cause) (s : State) :
    (trapEntryVs input cause s).regs = s.regs := rfl

@[simp] theorem trapEntryVs_mem (input : TrapInput) (cause : Cause) (s : State) :
    (trapEntryVs input cause s).mem = s.mem := rfl

@[simp] theorem trapEntryVs_misa (input : TrapInput) (cause : Cause) (s : State) :
    (trapEntryVs input cause s).misa = s.misa := rfl

@[simp] theorem trapEntryVs_mie (input : TrapInput) (cause : Cause) (s : State) :
    (trapEntryVs input cause s).mie = s.mie := rfl

@[simp] theorem trapEntryVs_mtval (input : TrapInput) (cause : Cause) (s : State) :
    (trapEntryVs input cause s).mtval = s.mtval := rfl

@[simp] theorem trapEntryVs_sie (input : TrapInput) (cause : Cause) (s : State) :
    (trapEntryVs input cause s).sie = s.sie := rfl

@[simp] theorem trapEntryVs_satp (input : TrapInput) (cause : Cause) (s : State) :
    (trapEntryVs input cause s).satp = s.satp := rfl

@[simp] theorem trapEntryVs_hstatus (input : TrapInput) (cause : Cause) (s : State) :
    (trapEntryVs input cause s).hstatus = s.hstatus := rfl

@[simp] theorem trapEntryVs_hgatp (input : TrapInput) (cause : Cause) (s : State) :
    (trapEntryVs input cause s).hgatp = s.hgatp := rfl

@[simp] theorem trapEntryVs_vsstatus (input : TrapInput) (cause : Cause) (s : State) :
    (trapEntryVs input cause s).vsstatus = Config.vsstatusTrapRecord s.vsstatus s.priv := rfl

@[simp] theorem trapEntryVs_fcsr (input : TrapInput) (cause : Cause) (s : State) :
    (trapEntryVs input cause s).fcsr = s.fcsr := rfl

@[simp] theorem trapEntryVs_mRetAddr (input : TrapInput) (cause : Cause) (s : State) :
    (trapEntryVs input cause s).mRetAddr = s.mRetAddr := rfl

@[simp] theorem trapEntryVs_sRetAddr (input : TrapInput) (cause : Cause) (s : State) :
    (trapEntryVs input cause s).sRetAddr = s.sRetAddr := rfl

@[simp] theorem trapEntryVs_vsRetAddr (input : TrapInput) (cause : Cause) (s : State) :
    (trapEntryVs input cause s).vsRetAddr = input.retAddr := rfl

@[simp] theorem trapEntryVs_mCause (input : TrapInput) (cause : Cause) (s : State) :
    (trapEntryVs input cause s).mCause = s.mCause := rfl

@[simp] theorem trapEntryVs_sCause (input : TrapInput) (cause : Cause) (s : State) :
    (trapEntryVs input cause s).sCause = s.sCause := rfl

@[simp] theorem trapEntryVs_vsCause (input : TrapInput) (cause : Cause) (s : State) :
    (trapEntryVs input cause s).vsCause = cause := rfl

@[simp] theorem trapEntryVs_translation (input : TrapInput) (cause : Cause) (s : State) :
    (trapEntryVs input cause s).translation = s.translation := rfl

@[simp] theorem trapEntryVs_wfiWaiting (input : TrapInput) (cause : Cause) (s : State) :
    (trapEntryVs input cause s).wfiWaiting = false := rfl

@[simp] theorem trapEntryVs_trapInputs (input : TrapInput) (cause : Cause) (s : State) :
    (trapEntryVs input cause s).trapInputs = s.trapInputs := rfl

@[simp] theorem trapEntryVs_wfiInputs (input : TrapInput) (cause : Cause) (s : State) :
    (trapEntryVs input cause s).wfiInputs = s.wfiInputs := rfl

@[simp] theorem trapEntryVs_tvmReadInputs (input : TrapInput) (cause : Cause) (s : State) :
    (trapEntryVs input cause s).tvmReadInputs = s.tvmReadInputs := rfl

@[simp] theorem trapEntryVs_sretVInputs (input : TrapInput) (cause : Cause) (s : State) :
    (trapEntryVs input cause s).sretVInputs = s.sretVInputs := rfl

@[simp] theorem trapEntryVs_envEvents (input : TrapInput) (cause : Cause) (s : State) :
    (trapEntryVs input cause s).envEvents = s.envEvents := rfl

@[simp] theorem trapEntryVs_drawCount (input : TrapInput) (cause : Cause) (s : State) :
    (trapEntryVs input cause s).drawCount = s.drawCount := rfl

/-! ### returnFromS -/

@[simp] theorem returnFromS_params (newV : Bool) (s : State) :
    (returnFromS newV s).params = s.params := rfl

@[simp] theorem returnFromS_mstatus (newV : Bool) (s : State) :
    (returnFromS newV s).mstatus = { s.mstatus with sie := s.mstatus.spie, spie := true, spp := false, mprv := false } := rfl

@[simp] theorem returnFromS_priv (newV : Bool) (s : State) :
    (returnFromS newV s).priv = if s.mstatus.spp then .s else .u := rfl

@[simp] theorem returnFromS_v (newV : Bool) (s : State) : (returnFromS newV s).v = newV := rfl

@[simp] theorem returnFromS_pc (newV : Bool) (s : State) :
    (returnFromS newV s).pc = s.sRetAddr := rfl

@[simp] theorem returnFromS_regs (newV : Bool) (s : State) :
    (returnFromS newV s).regs = s.regs := rfl

@[simp] theorem returnFromS_mem (newV : Bool) (s : State) :
    (returnFromS newV s).mem = s.mem := rfl

@[simp] theorem returnFromS_misa (newV : Bool) (s : State) :
    (returnFromS newV s).misa = s.misa := rfl

@[simp] theorem returnFromS_mie (newV : Bool) (s : State) :
    (returnFromS newV s).mie = s.mie := rfl

@[simp] theorem returnFromS_mtval (newV : Bool) (s : State) :
    (returnFromS newV s).mtval = s.mtval := rfl

@[simp] theorem returnFromS_sie (newV : Bool) (s : State) :
    (returnFromS newV s).sie = s.sie := rfl

@[simp] theorem returnFromS_satp (newV : Bool) (s : State) :
    (returnFromS newV s).satp = s.satp := rfl

@[simp] theorem returnFromS_hstatus (newV : Bool) (s : State) :
    (returnFromS newV s).hstatus = s.hstatus := rfl

@[simp] theorem returnFromS_hgatp (newV : Bool) (s : State) :
    (returnFromS newV s).hgatp = s.hgatp := rfl

@[simp] theorem returnFromS_vsstatus (newV : Bool) (s : State) :
    (returnFromS newV s).vsstatus = s.vsstatus := rfl

@[simp] theorem returnFromS_fcsr (newV : Bool) (s : State) :
    (returnFromS newV s).fcsr = s.fcsr := rfl

@[simp] theorem returnFromS_mRetAddr (newV : Bool) (s : State) :
    (returnFromS newV s).mRetAddr = s.mRetAddr := rfl

@[simp] theorem returnFromS_sRetAddr (newV : Bool) (s : State) :
    (returnFromS newV s).sRetAddr = s.sRetAddr := rfl

@[simp] theorem returnFromS_vsRetAddr (newV : Bool) (s : State) :
    (returnFromS newV s).vsRetAddr = s.vsRetAddr := rfl

@[simp] theorem returnFromS_mCause (newV : Bool) (s : State) :
    (returnFromS newV s).mCause = s.mCause := rfl

@[simp] theorem returnFromS_sCause (newV : Bool) (s : State) :
    (returnFromS newV s).sCause = s.sCause := rfl

@[simp] theorem returnFromS_vsCause (newV : Bool) (s : State) :
    (returnFromS newV s).vsCause = s.vsCause := rfl

@[simp] theorem returnFromS_translation (newV : Bool) (s : State) :
    (returnFromS newV s).translation = s.translation := rfl

@[simp] theorem returnFromS_wfiWaiting (newV : Bool) (s : State) :
    (returnFromS newV s).wfiWaiting = s.wfiWaiting := rfl

@[simp] theorem returnFromS_trapInputs (newV : Bool) (s : State) :
    (returnFromS newV s).trapInputs = s.trapInputs := rfl

@[simp] theorem returnFromS_wfiInputs (newV : Bool) (s : State) :
    (returnFromS newV s).wfiInputs = s.wfiInputs := rfl

@[simp] theorem returnFromS_tvmReadInputs (newV : Bool) (s : State) :
    (returnFromS newV s).tvmReadInputs = s.tvmReadInputs := rfl

@[simp] theorem returnFromS_sretVInputs (newV : Bool) (s : State) :
    (returnFromS newV s).sretVInputs = s.sretVInputs := rfl

@[simp] theorem returnFromS_envEvents (newV : Bool) (s : State) :
    (returnFromS newV s).envEvents = s.envEvents := rfl

@[simp] theorem returnFromS_drawCount (newV : Bool) (s : State) :
    (returnFromS newV s).drawCount = s.drawCount := rfl

/-! ### returnFromM -/

@[simp] theorem returnFromM_params (s : State) : (returnFromM s).params = s.params := rfl

@[simp] theorem returnFromM_priv (s : State) : (returnFromM s).priv = s.mstatus.mpp := rfl

@[simp] theorem returnFromM_v (s : State) :
    (returnFromM s).v = if s.mstatus.mpp = .m ∨ s.params.extH = false then false else s.mstatus.mpv := rfl

@[simp] theorem returnFromM_pc (s : State) : (returnFromM s).pc = s.mRetAddr := rfl

@[simp] theorem returnFromM_regs (s : State) : (returnFromM s).regs = s.regs := rfl

@[simp] theorem returnFromM_mem (s : State) : (returnFromM s).mem = s.mem := rfl

@[simp] theorem returnFromM_misa (s : State) : (returnFromM s).misa = s.misa := rfl

@[simp] theorem returnFromM_mie (s : State) : (returnFromM s).mie = s.mie := rfl

@[simp] theorem returnFromM_mtval (s : State) : (returnFromM s).mtval = s.mtval := rfl

@[simp] theorem returnFromM_sie (s : State) : (returnFromM s).sie = s.sie := rfl

@[simp] theorem returnFromM_satp (s : State) : (returnFromM s).satp = s.satp := rfl

@[simp] theorem returnFromM_hstatus (s : State) : (returnFromM s).hstatus = s.hstatus := rfl

@[simp] theorem returnFromM_hgatp (s : State) : (returnFromM s).hgatp = s.hgatp := rfl

@[simp] theorem returnFromM_vsstatus (s : State) : (returnFromM s).vsstatus = s.vsstatus := rfl

@[simp] theorem returnFromM_fcsr (s : State) : (returnFromM s).fcsr = s.fcsr := rfl

@[simp] theorem returnFromM_mRetAddr (s : State) : (returnFromM s).mRetAddr = s.mRetAddr := rfl

@[simp] theorem returnFromM_sRetAddr (s : State) : (returnFromM s).sRetAddr = s.sRetAddr := rfl

@[simp] theorem returnFromM_vsRetAddr (s : State) : (returnFromM s).vsRetAddr = s.vsRetAddr := rfl

@[simp] theorem returnFromM_mCause (s : State) : (returnFromM s).mCause = s.mCause := rfl

@[simp] theorem returnFromM_sCause (s : State) : (returnFromM s).sCause = s.sCause := rfl

@[simp] theorem returnFromM_vsCause (s : State) : (returnFromM s).vsCause = s.vsCause := rfl

@[simp] theorem returnFromM_translation (s : State) : (returnFromM s).translation = s.translation := rfl

@[simp] theorem returnFromM_wfiWaiting (s : State) : (returnFromM s).wfiWaiting = s.wfiWaiting := rfl

@[simp] theorem returnFromM_trapInputs (s : State) : (returnFromM s).trapInputs = s.trapInputs := rfl

@[simp] theorem returnFromM_wfiInputs (s : State) : (returnFromM s).wfiInputs = s.wfiInputs := rfl

@[simp] theorem returnFromM_tvmReadInputs (s : State) : (returnFromM s).tvmReadInputs = s.tvmReadInputs := rfl

@[simp] theorem returnFromM_sretVInputs (s : State) : (returnFromM s).sretVInputs = s.sretVInputs := rfl

@[simp] theorem returnFromM_envEvents (s : State) : (returnFromM s).envEvents = s.envEvents := rfl

@[simp] theorem returnFromM_drawCount (s : State) : (returnFromM s).drawCount = s.drawCount := rfl

/-! ### placeAtPc -/

@[simp] theorem placeAtPc_params (s : State) (w : InsnWord) : (placeAtPc s w).params = s.params := rfl

@[simp] theorem placeAtPc_mstatus (s : State) (w : InsnWord) : (placeAtPc s w).mstatus = s.mstatus := rfl

@[simp] theorem placeAtPc_priv (s : State) (w : InsnWord) : (placeAtPc s w).priv = s.priv := rfl

@[simp] theorem placeAtPc_v (s : State) (w : InsnWord) : (placeAtPc s w).v = s.v := rfl

@[simp] theorem placeAtPc_pc (s : State) (w : InsnWord) : (placeAtPc s w).pc = s.pc := rfl

@[simp] theorem placeAtPc_regs (s : State) (w : InsnWord) : (placeAtPc s w).regs = s.regs := rfl

@[simp] theorem placeAtPc_mem (s : State) (w : InsnWord) :
    (placeAtPc s w).mem = writeBytes s.mem s.pc (bytesOfWord w) := rfl

@[simp] theorem placeAtPc_misa (s : State) (w : InsnWord) : (placeAtPc s w).misa = s.misa := rfl

@[simp] theorem placeAtPc_mie (s : State) (w : InsnWord) : (placeAtPc s w).mie = s.mie := rfl

@[simp] theorem placeAtPc_mtval (s : State) (w : InsnWord) : (placeAtPc s w).mtval = s.mtval := rfl

@[simp] theorem placeAtPc_sie (s : State) (w : InsnWord) : (placeAtPc s w).sie = s.sie := rfl

@[simp] theorem placeAtPc_satp (s : State) (w : InsnWord) : (placeAtPc s w).satp = s.satp := rfl

@[simp] theorem placeAtPc_hstatus (s : State) (w : InsnWord) : (placeAtPc s w).hstatus = s.hstatus := rfl

@[simp] theorem placeAtPc_hgatp (s : State) (w : InsnWord) : (placeAtPc s w).hgatp = s.hgatp := rfl

@[simp] theorem placeAtPc_vsstatus (s : State) (w : InsnWord) : (placeAtPc s w).vsstatus = s.vsstatus := rfl

@[simp] theorem placeAtPc_fcsr (s : State) (w : InsnWord) : (placeAtPc s w).fcsr = s.fcsr := rfl

@[simp] theorem placeAtPc_mRetAddr (s : State) (w : InsnWord) : (placeAtPc s w).mRetAddr = s.mRetAddr := rfl

@[simp] theorem placeAtPc_sRetAddr (s : State) (w : InsnWord) : (placeAtPc s w).sRetAddr = s.sRetAddr := rfl

@[simp] theorem placeAtPc_vsRetAddr (s : State) (w : InsnWord) :
    (placeAtPc s w).vsRetAddr = s.vsRetAddr := rfl

@[simp] theorem placeAtPc_mCause (s : State) (w : InsnWord) : (placeAtPc s w).mCause = s.mCause := rfl

@[simp] theorem placeAtPc_sCause (s : State) (w : InsnWord) : (placeAtPc s w).sCause = s.sCause := rfl

@[simp] theorem placeAtPc_vsCause (s : State) (w : InsnWord) : (placeAtPc s w).vsCause = s.vsCause := rfl

@[simp] theorem placeAtPc_translation (s : State) (w : InsnWord) :
    (placeAtPc s w).translation = s.translation := rfl

@[simp] theorem placeAtPc_wfiWaiting (s : State) (w : InsnWord) : (placeAtPc s w).wfiWaiting = false := rfl

@[simp] theorem placeAtPc_trapInputs (s : State) (w : InsnWord) :
    (placeAtPc s w).trapInputs = s.trapInputs := rfl

@[simp] theorem placeAtPc_wfiInputs (s : State) (w : InsnWord) :
    (placeAtPc s w).wfiInputs = s.wfiInputs := rfl

@[simp] theorem placeAtPc_tvmReadInputs (s : State) (w : InsnWord) :
    (placeAtPc s w).tvmReadInputs = s.tvmReadInputs := rfl

@[simp] theorem placeAtPc_sretVInputs (s : State) (w : InsnWord) :
    (placeAtPc s w).sretVInputs = s.sretVInputs := rfl

@[simp] theorem placeAtPc_envEvents (s : State) (w : InsnWord) : (placeAtPc s w).envEvents = [] := rfl

@[simp] theorem placeAtPc_drawCount (s : State) (w : InsnWord) :
    (placeAtPc s w).drawCount = s.drawCount := rfl

/-! ### State.withRetAddr -/

@[simp] theorem State.withRetAddr_params (s : State) (mode : TrapTarget) (address : Word) : (s.withRetAddr mode address).params = s.params := by
  cases mode <;> rfl

@[simp] theorem State.withRetAddr_mstatus (s : State) (mode : TrapTarget) (address : Word) : (s.withRetAddr mode address).mstatus = s.mstatus := by
  cases mode <;> rfl

@[simp] theorem State.withRetAddr_priv (s : State) (mode : TrapTarget) (address : Word) : (s.withRetAddr mode address).priv = s.priv := by
  cases mode <;> rfl

@[simp] theorem State.withRetAddr_v (s : State) (mode : TrapTarget) (address : Word) : (s.withRetAddr mode address).v = s.v := by
  cases mode <;> rfl

@[simp] theorem State.withRetAddr_pc (s : State) (mode : TrapTarget) (address : Word) : (s.withRetAddr mode address).pc = s.pc := by
  cases mode <;> rfl

@[simp] theorem State.withRetAddr_regs (s : State) (mode : TrapTarget) (address : Word) : (s.withRetAddr mode address).regs = s.regs := by
  cases mode <;> rfl

@[simp] theorem State.withRetAddr_mem (s : State) (mode : TrapTarget) (address : Word) : (s.withRetAddr mode address).mem = s.mem := by
  cases mode <;> rfl

@[simp] theorem State.withRetAddr_misa (s : State) (mode : TrapTarget) (address : Word) : (s.withRetAddr mode address).misa = s.misa := by
  cases mode <;> rfl

@[simp] theorem State.withRetAddr_mie (s : State) (mode : TrapTarget) (address : Word) : (s.withRetAddr mode address).mie = s.mie := by
  cases mode <;> rfl

@[simp] theorem State.withRetAddr_mtval (s : State) (mode : TrapTarget) (address : Word) : (s.withRetAddr mode address).mtval = s.mtval := by
  cases mode <;> rfl

@[simp] theorem State.withRetAddr_sie (s : State) (mode : TrapTarget) (address : Word) : (s.withRetAddr mode address).sie = s.sie := by
  cases mode <;> rfl

@[simp] theorem State.withRetAddr_satp (s : State) (mode : TrapTarget) (address : Word) : (s.withRetAddr mode address).satp = s.satp := by
  cases mode <;> rfl

@[simp] theorem State.withRetAddr_hstatus (s : State) (mode : TrapTarget) (address : Word) : (s.withRetAddr mode address).hstatus = s.hstatus := by
  cases mode <;> rfl

@[simp] theorem State.withRetAddr_hgatp (s : State) (mode : TrapTarget) (address : Word) : (s.withRetAddr mode address).hgatp = s.hgatp := by
  cases mode <;> rfl

@[simp] theorem State.withRetAddr_vsstatus (s : State) (mode : TrapTarget) (address : Word) : (s.withRetAddr mode address).vsstatus = s.vsstatus := by
  cases mode <;> rfl

@[simp] theorem State.withRetAddr_fcsr (s : State) (mode : TrapTarget) (address : Word) : (s.withRetAddr mode address).fcsr = s.fcsr := by
  cases mode <;> rfl

@[simp] theorem State.withRetAddr_mCause (s : State) (mode : TrapTarget) (address : Word) : (s.withRetAddr mode address).mCause = s.mCause := by
  cases mode <;> rfl

@[simp] theorem State.withRetAddr_sCause (s : State) (mode : TrapTarget) (address : Word) : (s.withRetAddr mode address).sCause = s.sCause := by
  cases mode <;> rfl

@[simp] theorem State.withRetAddr_vsCause (s : State) (mode : TrapTarget) (address : Word) : (s.withRetAddr mode address).vsCause = s.vsCause := by
  cases mode <;> rfl

@[simp] theorem State.withRetAddr_translation (s : State) (mode : TrapTarget) (address : Word) : (s.withRetAddr mode address).translation = s.translation := by
  cases mode <;> rfl

@[simp] theorem State.withRetAddr_wfiWaiting (s : State) (mode : TrapTarget) (address : Word) : (s.withRetAddr mode address).wfiWaiting = s.wfiWaiting := by
  cases mode <;> rfl

@[simp] theorem State.withRetAddr_trapInputs (s : State) (mode : TrapTarget) (address : Word) : (s.withRetAddr mode address).trapInputs = s.trapInputs := by
  cases mode <;> rfl

@[simp] theorem State.withRetAddr_wfiInputs (s : State) (mode : TrapTarget) (address : Word) : (s.withRetAddr mode address).wfiInputs = s.wfiInputs := by
  cases mode <;> rfl

@[simp] theorem State.withRetAddr_tvmReadInputs (s : State) (mode : TrapTarget) (address : Word) : (s.withRetAddr mode address).tvmReadInputs = s.tvmReadInputs := by
  cases mode <;> rfl

@[simp] theorem State.withRetAddr_sretVInputs (s : State) (mode : TrapTarget) (address : Word) : (s.withRetAddr mode address).sretVInputs = s.sretVInputs := by
  cases mode <;> rfl

@[simp] theorem State.withRetAddr_envEvents (s : State) (mode : TrapTarget) (address : Word) : (s.withRetAddr mode address).envEvents = s.envEvents := by
  cases mode <;> rfl

@[simp] theorem State.withRetAddr_drawCount (s : State) (mode : TrapTarget) (address : Word) : (s.withRetAddr mode address).drawCount = s.drawCount := by
  cases mode <;> rfl

@[simp] theorem State.withRetAddr_m_mRetAddr (s : State) (address : Word) : (s.withRetAddr .m address).mRetAddr = address := rfl

@[simp] theorem State.withRetAddr_m_sRetAddr (s : State) (address : Word) : (s.withRetAddr .m address).sRetAddr = s.sRetAddr := rfl

@[simp] theorem State.withRetAddr_m_vsRetAddr (s : State) (address : Word) : (s.withRetAddr .m address).vsRetAddr = s.vsRetAddr := rfl

@[simp] theorem State.withRetAddr_s_mRetAddr (s : State) (address : Word) : (s.withRetAddr .s address).mRetAddr = s.mRetAddr := rfl

@[simp] theorem State.withRetAddr_s_sRetAddr (s : State) (address : Word) : (s.withRetAddr .s address).sRetAddr = address := rfl

@[simp] theorem State.withRetAddr_s_vsRetAddr (s : State) (address : Word) : (s.withRetAddr .s address).vsRetAddr = s.vsRetAddr := rfl

@[simp] theorem State.withRetAddr_vs_mRetAddr (s : State) (address : Word) : (s.withRetAddr .vs address).mRetAddr = s.mRetAddr := rfl

@[simp] theorem State.withRetAddr_vs_sRetAddr (s : State) (address : Word) : (s.withRetAddr .vs address).sRetAddr = s.sRetAddr := rfl

@[simp] theorem State.withRetAddr_vs_vsRetAddr (s : State) (address : Word) : (s.withRetAddr .vs address).vsRetAddr = address := rfl

/-! ### State.withCause -/

@[simp] theorem State.withCause_params (s : State) (mode : TrapTarget) (cause : Cause) : (s.withCause mode cause).params = s.params := by
  cases mode <;> rfl

@[simp] theorem State.withCause_mstatus (s : State) (mode : TrapTarget) (cause : Cause) : (s.withCause mode cause).mstatus = s.mstatus := by
  cases mode <;> rfl

@[simp] theorem State.withCause_priv (s : State) (mode : TrapTarget) (cause : Cause) : (s.withCause mode cause).priv = s.priv := by
  cases mode <;> rfl

@[simp] theorem State.withCause_v (s : State) (mode : TrapTarget) (cause : Cause) : (s.withCause mode cause).v = s.v := by
  cases mode <;> rfl

@[simp] theorem State.withCause_pc (s : State) (mode : TrapTarget) (cause : Cause) : (s.withCause mode cause).pc = s.pc := by
  cases mode <;> rfl

@[simp] theorem State.withCause_regs (s : State) (mode : TrapTarget) (cause : Cause) : (s.withCause mode cause).regs = s.regs := by
  cases mode <;> rfl

@[simp] theorem State.withCause_mem (s : State) (mode : TrapTarget) (cause : Cause) : (s.withCause mode cause).mem = s.mem := by
  cases mode <;> rfl

@[simp] theorem State.withCause_misa (s : State) (mode : TrapTarget) (cause : Cause) : (s.withCause mode cause).misa = s.misa := by
  cases mode <;> rfl

@[simp] theorem State.withCause_mie (s : State) (mode : TrapTarget) (cause : Cause) : (s.withCause mode cause).mie = s.mie := by
  cases mode <;> rfl

@[simp] theorem State.withCause_mtval (s : State) (mode : TrapTarget) (cause : Cause) : (s.withCause mode cause).mtval = s.mtval := by
  cases mode <;> rfl

@[simp] theorem State.withCause_sie (s : State) (mode : TrapTarget) (cause : Cause) : (s.withCause mode cause).sie = s.sie := by
  cases mode <;> rfl

@[simp] theorem State.withCause_satp (s : State) (mode : TrapTarget) (cause : Cause) : (s.withCause mode cause).satp = s.satp := by
  cases mode <;> rfl

@[simp] theorem State.withCause_hstatus (s : State) (mode : TrapTarget) (cause : Cause) : (s.withCause mode cause).hstatus = s.hstatus := by
  cases mode <;> rfl

@[simp] theorem State.withCause_hgatp (s : State) (mode : TrapTarget) (cause : Cause) : (s.withCause mode cause).hgatp = s.hgatp := by
  cases mode <;> rfl

@[simp] theorem State.withCause_vsstatus (s : State) (mode : TrapTarget) (cause : Cause) : (s.withCause mode cause).vsstatus = s.vsstatus := by
  cases mode <;> rfl

@[simp] theorem State.withCause_fcsr (s : State) (mode : TrapTarget) (cause : Cause) : (s.withCause mode cause).fcsr = s.fcsr := by
  cases mode <;> rfl

@[simp] theorem State.withCause_mRetAddr (s : State) (mode : TrapTarget) (cause : Cause) : (s.withCause mode cause).mRetAddr = s.mRetAddr := by
  cases mode <;> rfl

@[simp] theorem State.withCause_sRetAddr (s : State) (mode : TrapTarget) (cause : Cause) : (s.withCause mode cause).sRetAddr = s.sRetAddr := by
  cases mode <;> rfl

@[simp] theorem State.withCause_vsRetAddr (s : State) (mode : TrapTarget) (cause : Cause) : (s.withCause mode cause).vsRetAddr = s.vsRetAddr := by
  cases mode <;> rfl

@[simp] theorem State.withCause_translation (s : State) (mode : TrapTarget) (cause : Cause) : (s.withCause mode cause).translation = s.translation := by
  cases mode <;> rfl

@[simp] theorem State.withCause_wfiWaiting (s : State) (mode : TrapTarget) (cause : Cause) : (s.withCause mode cause).wfiWaiting = s.wfiWaiting := by
  cases mode <;> rfl

@[simp] theorem State.withCause_trapInputs (s : State) (mode : TrapTarget) (cause : Cause) : (s.withCause mode cause).trapInputs = s.trapInputs := by
  cases mode <;> rfl

@[simp] theorem State.withCause_wfiInputs (s : State) (mode : TrapTarget) (cause : Cause) : (s.withCause mode cause).wfiInputs = s.wfiInputs := by
  cases mode <;> rfl

@[simp] theorem State.withCause_tvmReadInputs (s : State) (mode : TrapTarget) (cause : Cause) : (s.withCause mode cause).tvmReadInputs = s.tvmReadInputs := by
  cases mode <;> rfl

@[simp] theorem State.withCause_sretVInputs (s : State) (mode : TrapTarget) (cause : Cause) : (s.withCause mode cause).sretVInputs = s.sretVInputs := by
  cases mode <;> rfl

@[simp] theorem State.withCause_envEvents (s : State) (mode : TrapTarget) (cause : Cause) : (s.withCause mode cause).envEvents = s.envEvents := by
  cases mode <;> rfl

@[simp] theorem State.withCause_drawCount (s : State) (mode : TrapTarget) (cause : Cause) : (s.withCause mode cause).drawCount = s.drawCount := by
  cases mode <;> rfl

@[simp] theorem State.withCause_m_mCause (s : State) (cause : Cause) : (s.withCause .m cause).mCause = cause := rfl

@[simp] theorem State.withCause_m_sCause (s : State) (cause : Cause) : (s.withCause .m cause).sCause = s.sCause := rfl

@[simp] theorem State.withCause_m_vsCause (s : State) (cause : Cause) : (s.withCause .m cause).vsCause = s.vsCause := rfl

@[simp] theorem State.withCause_s_mCause (s : State) (cause : Cause) : (s.withCause .s cause).mCause = s.mCause := rfl

@[simp] theorem State.withCause_s_sCause (s : State) (cause : Cause) : (s.withCause .s cause).sCause = cause := rfl

@[simp] theorem State.withCause_s_vsCause (s : State) (cause : Cause) : (s.withCause .s cause).vsCause = s.vsCause := rfl

@[simp] theorem State.withCause_vs_mCause (s : State) (cause : Cause) : (s.withCause .vs cause).mCause = s.mCause := rfl

@[simp] theorem State.withCause_vs_sCause (s : State) (cause : Cause) : (s.withCause .vs cause).sCause = s.sCause := rfl

@[simp] theorem State.withCause_vs_vsCause (s : State) (cause : Cause) : (s.withCause .vs cause).vsCause = cause := rfl

/-! ### State.writeReg -/

@[simp] theorem State.writeReg_params (s : State) (r : RegNum) (value : Word) : (s.writeReg r value).params = s.params := by
  unfold State.writeReg
  split <;> rfl

@[simp] theorem State.writeReg_mstatus (s : State) (r : RegNum) (value : Word) : (s.writeReg r value).mstatus = s.mstatus := by
  unfold State.writeReg
  split <;> rfl

@[simp] theorem State.writeReg_priv (s : State) (r : RegNum) (value : Word) : (s.writeReg r value).priv = s.priv := by
  unfold State.writeReg
  split <;> rfl

@[simp] theorem State.writeReg_v (s : State) (r : RegNum) (value : Word) : (s.writeReg r value).v = s.v := by
  unfold State.writeReg
  split <;> rfl

@[simp] theorem State.writeReg_pc (s : State) (r : RegNum) (value : Word) : (s.writeReg r value).pc = s.pc := by
  unfold State.writeReg
  split <;> rfl

@[simp] theorem State.writeReg_mem (s : State) (r : RegNum) (value : Word) : (s.writeReg r value).mem = s.mem := by
  unfold State.writeReg
  split <;> rfl

@[simp] theorem State.writeReg_misa (s : State) (r : RegNum) (value : Word) : (s.writeReg r value).misa = s.misa := by
  unfold State.writeReg
  split <;> rfl

@[simp] theorem State.writeReg_mie (s : State) (r : RegNum) (value : Word) : (s.writeReg r value).mie = s.mie := by
  unfold State.writeReg
  split <;> rfl

@[simp] theorem State.writeReg_mtval (s : State) (r : RegNum) (value : Word) : (s.writeReg r value).mtval = s.mtval := by
  unfold State.writeReg
  split <;> rfl

@[simp] theorem State.writeReg_sie (s : State) (r : RegNum) (value : Word) : (s.writeReg r value).sie = s.sie := by
  unfold State.writeReg
  split <;> rfl

@[simp] theorem State.writeReg_satp (s : State) (r : RegNum) (value : Word) : (s.writeReg r value).satp = s.satp := by
  unfold State.writeReg
  split <;> rfl

@[simp] theorem State.writeReg_hstatus (s : State) (r : RegNum) (value : Word) : (s.writeReg r value).hstatus = s.hstatus := by
  unfold State.writeReg
  split <;> rfl

@[simp] theorem State.writeReg_hgatp (s : State) (r : RegNum) (value : Word) : (s.writeReg r value).hgatp = s.hgatp := by
  unfold State.writeReg
  split <;> rfl

@[simp] theorem State.writeReg_vsstatus (s : State) (r : RegNum) (value : Word) : (s.writeReg r value).vsstatus = s.vsstatus := by
  unfold State.writeReg
  split <;> rfl

@[simp] theorem State.writeReg_fcsr (s : State) (r : RegNum) (value : Word) : (s.writeReg r value).fcsr = s.fcsr := by
  unfold State.writeReg
  split <;> rfl

@[simp] theorem State.writeReg_mRetAddr (s : State) (r : RegNum) (value : Word) : (s.writeReg r value).mRetAddr = s.mRetAddr := by
  unfold State.writeReg
  split <;> rfl

@[simp] theorem State.writeReg_sRetAddr (s : State) (r : RegNum) (value : Word) : (s.writeReg r value).sRetAddr = s.sRetAddr := by
  unfold State.writeReg
  split <;> rfl

@[simp] theorem State.writeReg_vsRetAddr (s : State) (r : RegNum) (value : Word) : (s.writeReg r value).vsRetAddr = s.vsRetAddr := by
  unfold State.writeReg
  split <;> rfl

@[simp] theorem State.writeReg_mCause (s : State) (r : RegNum) (value : Word) : (s.writeReg r value).mCause = s.mCause := by
  unfold State.writeReg
  split <;> rfl

@[simp] theorem State.writeReg_sCause (s : State) (r : RegNum) (value : Word) : (s.writeReg r value).sCause = s.sCause := by
  unfold State.writeReg
  split <;> rfl

@[simp] theorem State.writeReg_vsCause (s : State) (r : RegNum) (value : Word) : (s.writeReg r value).vsCause = s.vsCause := by
  unfold State.writeReg
  split <;> rfl

@[simp] theorem State.writeReg_translation (s : State) (r : RegNum) (value : Word) : (s.writeReg r value).translation = s.translation := by
  unfold State.writeReg
  split <;> rfl

@[simp] theorem State.writeReg_wfiWaiting (s : State) (r : RegNum) (value : Word) : (s.writeReg r value).wfiWaiting = s.wfiWaiting := by
  unfold State.writeReg
  split <;> rfl

@[simp] theorem State.writeReg_trapInputs (s : State) (r : RegNum) (value : Word) : (s.writeReg r value).trapInputs = s.trapInputs := by
  unfold State.writeReg
  split <;> rfl

@[simp] theorem State.writeReg_wfiInputs (s : State) (r : RegNum) (value : Word) : (s.writeReg r value).wfiInputs = s.wfiInputs := by
  unfold State.writeReg
  split <;> rfl

@[simp] theorem State.writeReg_tvmReadInputs (s : State) (r : RegNum) (value : Word) : (s.writeReg r value).tvmReadInputs = s.tvmReadInputs := by
  unfold State.writeReg
  split <;> rfl

@[simp] theorem State.writeReg_sretVInputs (s : State) (r : RegNum) (value : Word) : (s.writeReg r value).sretVInputs = s.sretVInputs := by
  unfold State.writeReg
  split <;> rfl

@[simp] theorem State.writeReg_envEvents (s : State) (r : RegNum) (value : Word) : (s.writeReg r value).envEvents = s.envEvents := by
  unfold State.writeReg
  split <;> rfl

@[simp] theorem State.writeReg_drawCount (s : State) (r : RegNum) (value : Word) : (s.writeReg r value).drawCount = s.drawCount := by
  unfold State.writeReg
  split <;> rfl

/-! ### csrWrite: what no write of a CSR changes -/

@[simp] theorem csrWrite_params (s : State) (name : CsrName) (value : Word) : (csrWrite s name value).params = s.params := by
  cases name <;> rfl

@[simp] theorem csrWrite_priv (s : State) (name : CsrName) (value : Word) : (csrWrite s name value).priv = s.priv := by
  cases name <;> rfl

@[simp] theorem csrWrite_v (s : State) (name : CsrName) (value : Word) : (csrWrite s name value).v = s.v := by
  cases name <;> rfl

@[simp] theorem csrWrite_pc (s : State) (name : CsrName) (value : Word) : (csrWrite s name value).pc = s.pc := by
  cases name <;> rfl

@[simp] theorem csrWrite_regs (s : State) (name : CsrName) (value : Word) : (csrWrite s name value).regs = s.regs := by
  cases name <;> rfl

@[simp] theorem csrWrite_mem (s : State) (name : CsrName) (value : Word) : (csrWrite s name value).mem = s.mem := by
  cases name <;> rfl

@[simp] theorem csrWrite_mRetAddr (s : State) (name : CsrName) (value : Word) : (csrWrite s name value).mRetAddr = s.mRetAddr := by
  cases name <;> rfl

@[simp] theorem csrWrite_sRetAddr (s : State) (name : CsrName) (value : Word) : (csrWrite s name value).sRetAddr = s.sRetAddr := by
  cases name <;> rfl

@[simp] theorem csrWrite_vsRetAddr (s : State) (name : CsrName) (value : Word) : (csrWrite s name value).vsRetAddr = s.vsRetAddr := by
  cases name <;> rfl

@[simp] theorem csrWrite_mCause (s : State) (name : CsrName) (value : Word) : (csrWrite s name value).mCause = s.mCause := by
  cases name <;> rfl

@[simp] theorem csrWrite_sCause (s : State) (name : CsrName) (value : Word) : (csrWrite s name value).sCause = s.sCause := by
  cases name <;> rfl

@[simp] theorem csrWrite_vsCause (s : State) (name : CsrName) (value : Word) : (csrWrite s name value).vsCause = s.vsCause := by
  cases name <;> rfl

@[simp] theorem csrWrite_translation (s : State) (name : CsrName) (value : Word) : (csrWrite s name value).translation = s.translation := by
  cases name <;> rfl

@[simp] theorem csrWrite_wfiWaiting (s : State) (name : CsrName) (value : Word) : (csrWrite s name value).wfiWaiting = s.wfiWaiting := by
  cases name <;> rfl

@[simp] theorem csrWrite_trapInputs (s : State) (name : CsrName) (value : Word) : (csrWrite s name value).trapInputs = s.trapInputs := by
  cases name <;> rfl

@[simp] theorem csrWrite_wfiInputs (s : State) (name : CsrName) (value : Word) : (csrWrite s name value).wfiInputs = s.wfiInputs := by
  cases name <;> rfl

@[simp] theorem csrWrite_tvmReadInputs (s : State) (name : CsrName) (value : Word) : (csrWrite s name value).tvmReadInputs = s.tvmReadInputs := by
  cases name <;> rfl

@[simp] theorem csrWrite_sretVInputs (s : State) (name : CsrName) (value : Word) : (csrWrite s name value).sretVInputs = s.sretVInputs := by
  cases name <;> rfl

@[simp] theorem csrWrite_envEvents (s : State) (name : CsrName) (value : Word) : (csrWrite s name value).envEvents = s.envEvents := by
  cases name <;> rfl

@[simp] theorem csrWrite_drawCount (s : State) (name : CsrName) (value : Word) : (csrWrite s name value).drawCount = s.drawCount := by
  cases name <;> rfl

/-! ### Reading registers -/

@[simp] theorem State.readReg_zero (s : State) : s.readReg 0#5 = 0#64 := rfl

@[simp] theorem State.writeReg_zero (s : State) (value : Word) : s.writeReg 0#5 value = s := rfl

theorem State.readReg_of_ne (s : State) {r : RegNum} (h : r ≠ 0) : s.readReg r = s.regs[r.toNat] := if_neg h

theorem State.writeReg_regs_of_ne (s : State) {r : RegNum} (h : r ≠ 0) (value : Word) :
    (s.writeReg r value).regs = s.regs.set r.toNat value := by
  unfold State.writeReg
  rw [if_neg h]

theorem State.readReg_congr {s t : State} (h : t.regs = s.regs) (r : RegNum) : t.readReg r = s.readReg r := by
  unfold State.readReg
  rw [h]

/-- A register reads what was written to it; every other register, and x0, reads as before (10_state.md R70). -/
theorem State.readReg_writeReg (s : State) (r q : RegNum) (value : Word) :
    (s.writeReg r value).readReg q = if q = r ∧ q ≠ 0 then value else s.readReg q := by
  by_cases hq : q = 0
  · subst hq
    simp
  · rw [State.readReg_of_ne _ hq, State.readReg_of_ne _ hq]
    by_cases hr : r = 0
    · subst hr
      rw [if_neg (fun h => hq h.1)]
      rfl
    · by_cases hqr : q = r
      · subst hqr
        rw [if_pos ⟨rfl, hq⟩]
        simp only [State.writeReg_regs_of_ne _ hr, Vector.getElem_set_self]
      · have hne : r.toNat ≠ q.toNat := fun h => hqr (BitVec.eq_of_toNat_eq h.symm)
        rw [if_neg (fun h => hqr h.1)]
        simp only [State.writeReg_regs_of_ne _ hr, Vector.getElem_set_ne _ _ hne]

/-- A write to a register that is not x0 leaves the entry of x0 alone. -/
theorem State.writeReg_regs_zero (s : State) (r : RegNum) (value : Word) : (s.writeReg r value).regs[0] = s.regs[0] := by
  unfold State.writeReg
  split
  · rfl
  · rename_i hr
    have hne : r.toNat ≠ 0 := fun h => hr (BitVec.eq_of_toNat_eq h)
    exact Vector.getElem_set_ne r.isLt (by decide) hne

end Sys2Proof.Machine
end

