-- ==== Sys2Proof/Laws/Ops.lean ====
section
/-! SUPPORT. What each shared operation can do, said once: trap entry, the CSR access, the fences, each instruction, one step. Later
proofs cite these and do not unfold the operations. -/

namespace Sys2Proof.Machine

/-! ### Traps -/

/-- A trap from M-mode goes to M-mode (60_exceptions.md R227). -/
theorem admissibleTarget_of_m {s : State} (h : s.priv = .m) (target : TrapTarget) : admissibleTarget s target = .m := by
  simp [admissibleTarget, h]

/-- A trap goes to (H)S-mode only from below M-mode where S-mode exists (60_exceptions.md R215). -/
theorem admissibleTarget_s {s : State} {target : TrapTarget} (h : admissibleTarget s target = .s) :
    s.priv ≠ .m ∧ s.params.extS = true := by
  unfold admissibleTarget at h
  split at h
  · cases h
  · rename_i hp
    refine ⟨hp, ?_⟩
    cases target <;> dsimp only at h
    · cases h
    · split at h
      · assumption
      · cases h
    · split at h <;> cases h

/-- A trap goes to VS-mode only from `V = 1` below M-mode (60_exceptions.md R216). -/
theorem admissibleTarget_vs {s : State} {target : TrapTarget} (h : admissibleTarget s target = .vs) :
    s.priv ≠ .m ∧ s.params.extS = true ∧ s.params.extH = true ∧ s.v = true := by
  unfold admissibleTarget at h
  split at h
  · cases h
  · rename_i hp
    refine ⟨hp, ?_⟩
    cases target <;> dsimp only at h
    · cases h
    · split at h <;> cases h
    · split at h
      · rename_i hc
        simp only [Bool.and_eq_true] at hc
        exact ⟨hc.1.1, hc.1.2, hc.2⟩
      · cases h

/-- What taking a trap can do (60_exceptions.md R213 to R216). -/
theorem takeTrap_cases (cause : Cause) (s : State) :
    takeTrap cause s = trapEntryM s.nextTrapInput cause s.dropTrapInput
      ∨ (s.priv ≠ .m ∧ s.params.extS = true ∧ takeTrap cause s = trapEntryS s.nextTrapInput cause s.dropTrapInput)
      ∨ (s.priv ≠ .m ∧ s.params.extS = true ∧ s.params.extH = true ∧ s.v = true
          ∧ takeTrap cause s = trapEntryVs s.nextTrapInput cause s.dropTrapInput) := by
  unfold takeTrap
  generalize ht : admissibleTarget s s.nextTrapInput.target = target
  cases target with
  | m => exact .inl rfl
  | s => exact .inr (.inl ⟨(admissibleTarget_s ht).1, (admissibleTarget_s ht).2, rfl⟩)
  | vs =>
    obtain ⟨h1, h2, h3, h4⟩ := admissibleTarget_vs ht
    exact .inr (.inr ⟨h1, h2, h3, h4, rfl⟩)

/-- A trap from M-mode is the entry into M-mode. -/
theorem takeTrap_of_m {s : State} (h : s.priv = .m) (cause : Cause) :
    takeTrap cause s = trapEntryM s.nextTrapInput cause s.dropTrapInput := by
  unfold takeTrap
  rw [admissibleTarget_of_m h]
  rfl

/-- Taking an interrupt is the entry into its handler mode (60_exceptions.md R208). -/
theorem takeInterrupt_cases (i : Interrupt) (s : State) :
    (i.handler = .m ∧ takeInterrupt i s = trapEntryM s.nextTrapInput (.interrupt i.number) s.dropTrapInput)
      ∨ (i.handler = .s ∧ takeInterrupt i s = trapEntryS s.nextTrapInput (.interrupt i.number) s.dropTrapInput) := by
  unfold takeInterrupt
  cases h : i.handler with
  | m => exact .inl ⟨rfl, rfl⟩
  | s => exact .inr ⟨rfl, rfl⟩

/-- A state that differs from another in the bookkeeping of draws alone. -/
def DrawnFrom (s t : State) : Prop := t = s ∨ t = s.dropTvmRead ∨ t = s.dropWfiDraw

/-! ### General registers -/

/-- A read after a write: the register written has the value, x0 reads 0, every other register keeps its own (10_state.md R70). -/
theorem readReg_writeReg (s : State) (rd r : RegNum) (value : Word) :
    (s.writeReg rd value).readReg r = if r = rd ∧ r ≠ 0 then value else s.readReg r := by
  by_cases h0 : r = 0
  · simp only [State.readReg, h0, if_true, ne_eq, not_true, and_false, if_false]
  · have hread : ∀ u : State, u.readReg r = u.regs[r.toNat] := fun u => if_neg h0
    rw [hread, hread, State.writeReg]
    by_cases hd : rd = 0
    · rw [if_pos hd, if_neg (fun h => h0 (h.1.trans hd))]
    · rw [if_neg hd]
      by_cases he : r = rd
      · subst he
        rw [if_pos ⟨rfl, h0⟩]
        exact Vector.getElem_set_self _
      · rw [if_neg fun h => he h.1]
        exact Vector.getElem_set_ne rd.isLt r.isLt fun h => he (BitVec.eq_of_toNat_eq h.symm)

/-- A write of a register changes the general registers alone, and never the entry of x0 (10_state.md R70). -/
theorem writeReg_eq (s : State) (rd : RegNum) (value : Word) :
    ∃ regs : Vector Word 32, regs[0] = s.regs[0] ∧ s.writeReg rd value = { s with regs := regs } := by
  unfold State.writeReg
  split
  · exact ⟨s.regs, rfl, rfl⟩
  · rename_i h
    refine ⟨_, ?_, rfl⟩
    rw [Vector.getElem_set]
    have hne : rd.toNat ≠ 0 := fun hr => h (BitVec.eq_of_toNat_eq hr)
    simp [hne]

/-! ### Free choices -/

/-- What a free value picks from a list of choices is one of them. -/
theorem pick_mem {α : Type} (choices : List α) (index : Nat) (default : α) (h : choices ≠ []) :
    pick choices index default ∈ choices := by
  unfold pick
  rw [List.getD_eq_getElem _ _ (Nat.mod_lt _ (List.length_pos_iff.mpr h))]
  exact List.getElem_mem _

/-! ### CSR access -/

/-- What a CSR access instruction that executes leaves: the CSR written or not, the general registers, `pc` advanced
(40_csr_access.md R133 to R138). -/
theorem csrExecute_eq (op : CsrOp) (rd : RegNum) (name : CsrName) (source : CsrSource) (s : State) :
    ∃ (u : State) (regs : Vector Word 32),
      u = (if performsWrite op source then csrWrite s name (presentedValue op (csrRead s name) (sourceValue s source)) else s)
        ∧ regs[0] = u.regs[0] ∧ csrExecute op rd name source s = { u with regs := regs, pc := u.pc + 4 } := by
  obtain ⟨regs, h0, hregs⟩ := writeReg_eq
    (if performsWrite op source then csrWrite s name (presentedValue op (csrRead s name) (sourceValue s source)) else s) rd
    (csrRead s name)
  refine ⟨_, regs, rfl, h0, ?_⟩
  unfold csrExecute
  dsimp only
  rw [hregs]
  rfl

/-- What a CSR access instruction that answers a next state did (40_csr_access.md R121, R133 to R138). -/
theorem csrAccess_next {op : CsrOp} {rd : RegNum} {csr : CsrNum} {source : CsrSource} {s t : State}
    (h : csrAccess op rd csr source s = .next t) :
    (∃ s₀, DrawnFrom s s₀ ∧ t = takeTrap .illegalInstruction s₀)
      ∨ (∃ name s₀, csrOfNumber csr = some name ∧ DrawnFrom s s₀ ∧ csrAccessible s csr = true
          ∧ t = csrExecute op rd name source s₀) := by
  unfold csrAccess at h
  split at h
  · cases h
  · rename_i name hname
    split at h
    · cases h
    · split at h
      · cases h
        exact .inl ⟨s, .inl rfl, rfl⟩
      · rename_i hacc
        have hacc' : csrAccessible s csr = true := by simpa using hacc
        split at h
        · split at h
          · cases h
            exact .inl ⟨s, .inl rfl, rfl⟩
          · split at h
            · cases h
              exact .inl ⟨s.dropTvmRead, .inr (.inl rfl), rfl⟩
            · cases h
              exact .inr ⟨name, s.dropTvmRead, hname, .inr (.inl rfl), hacc', rfl⟩
        · split at h
          · cases h
          · split at h
            · cases h
              exact .inl ⟨s, .inl rfl, rfl⟩
            · cases h
              exact .inr ⟨name, s, hname, .inl rfl, hacc', rfl⟩

/-- The accesses `mstatus` takes from M-mode execute (40_csr_access.md R121). -/
theorem csrAccess_mstatus_of_m {s : State} (h : s.priv = .m) (op : CsrOp) (rd : RegNum) (source : CsrSource) :
    csrAccess op rd 0x300#12 source s = .next (csrExecute op rd .mstatus source s) := by
  have hcsr : csrOfNumber 0x300#12 = some .mstatus := by decide
  unfold csrAccess
  rw [hcsr]
  simp [csrAccessible, h, tvmGuarded, fcsrDisabled]

/-- Below M-mode every access of `mstatus` raises Illegal Instruction (40_csr_access.md R121). -/
theorem csrAccess_mstatus_below_m {s : State} (h : s.priv ≠ .m) (op : CsrOp) (rd : RegNum) (source : CsrSource) :
    csrAccess op rd 0x300#12 source s = .next (takeTrap .illegalInstruction s) := by
  have hcsr : csrOfNumber 0x300#12 = some .mstatus := by decide
  have hlevel : csrLevel 0x300#12 = 3 := by decide
  have hacc : csrAccessible s 0x300#12 = false := by
    unfold csrAccessible
    rw [hlevel]
    cases hp : s.priv <;> simp_all
  unfold csrAccess
  rw [hcsr]
  simp [hacc, raise]

/-- The instruction of an operation and a source is that CSR access. -/
theorem exec_csrInstr (op : CsrOp) (rd : RegNum) (csr : CsrNum) (source : CsrSource) (s : State) :
    exec (csrInstr op rd csr source) s = csrAccess op rd csr source s := by
  cases op <;> cases source <;> rfl

/-- The instruction of a fence is that fence. -/
theorem exec_fenceInstr (fence : Fence) (rs1 rs2 : RegNum) (s : State) :
    ∃ r1 r2, exec (fenceInstr fence rs1 rs2) s
      = if fenceOfHypervisor fence then hypervisorFence fence (fenceUnderTvm fence) r1 r2 s
        else supervisorFence fence (fenceUnderTvm fence) r1 r2 s := by
  cases fence
  case sfenceWInval => exact ⟨0, 0, rfl⟩
  case sfenceInvalIr => exact ⟨0, 0, rfl⟩
  all_goals exact ⟨rs1, rs2, rfl⟩

/-! ### Fences -/

/-- What a fence that answers a next state did (42_wfi_tvm_fences.md R170 to R176, R180). -/
theorem supervisorFence_next {fence : Fence} {underTvm : Bool} {rs1 rs2 : RegNum} {s t : State}
    (h : supervisorFence fence underTvm rs1 rs2 s = .next t) :
    t = takeTrap .illegalInstruction s ∨ (s.priv ≠ .u ∧ t = fenceExecute fence rs1 rs2 s) := by
  unfold supervisorFence at h
  split at h
  · cases h
    exact .inl rfl
  · rename_i hu
    split at h
    · cases h
      exact .inl rfl
    · split at h
      · cases h
      · cases h
        exact .inr ⟨hu, rfl⟩

/-- What a hypervisor fence that answers a next state did (42_wfi_tvm_fences.md R172 to R174, D22). -/
theorem hypervisorFence_next {fence : Fence} {underTvm : Bool} {rs1 rs2 : RegNum} {s t : State}
    (h : hypervisorFence fence underTvm rs1 rs2 s = .next t) :
    t = takeTrap .illegalInstruction s ∨ (s.priv ≠ .u ∧ t = fenceExecute fence rs1 rs2 s) := by
  unfold hypervisorFence at h
  split at h
  · cases h
    exact .inl rfl
  · rename_i hu
    split at h
    · cases h
      exact .inl rfl
    · cases h
      exact .inr ⟨fun hp => hu (.inl hp), rfl⟩

/-! ### One instruction, one step -/

/-- What one step of `wfi` does (42_wfi_tvm_fences.md R165 to R168). -/
theorem wfiStep_cases (s : State) :
    (wfiMayTrap s = true ∧ wfiStep s = takeTrap .illegalInstruction s.dropWfiDraw)
      ∨ wfiStep s = { s.dropWfiDraw with wfiWaiting := true }
      ∨ wfiStep s = { s.dropWfiDraw with wfiWaiting := false }.advance := by
  unfold wfiStep
  split
  · rename_i h
    exact .inl ⟨(Bool.and_eq_true_iff.mp h).1, rfl⟩
  · split
    · exact .inr (.inl rfl)
    · exact .inr (.inr rfl)

/-- What an `sret` that answers a next state did (41_trap_return.md R155 to R159). -/
theorem execSret_next {s t : State} (h : execSret s = .next t) :
    t = takeTrap .illegalInstruction s
      ∨ (s.params.extS = true ∧ s.priv ≠ .u ∧ inVsMode s = false
          ∧ ((s.params.extH = true ∧ t = returnFromS s.nextSretV s.dropSretV)
              ∨ (s.params.extH = false ∧ t = returnFromS false s))) := by
  unfold execSret at h
  split at h
  · cases h
    exact .inl rfl
  · rename_i hpre
    rw [not_or] at hpre
    have hS : s.params.extS = true := by simpa using hpre.1
    split at h
    · cases h
    · rename_i hvs
      have hvs' : inVsMode s = false := by simpa using hvs
      split at h
      · cases h
        exact .inl rfl
      · split at h
        · rename_i hH
          cases h
          exact .inr ⟨hS, hpre.2, hvs', .inl ⟨hH, rfl⟩⟩
        · rename_i hH
          cases h
          exact .inr ⟨hS, hpre.2, hvs', .inr ⟨by simpa using hH, rfl⟩⟩

/-- What an `mret` that answers a next state did (41_trap_return.md R150, R151). -/
theorem execMret_next {s t : State} (h : execMret s = .next t) :
    (s.priv ≠ .m ∧ t = takeTrap .illegalInstruction s) ∨ (s.priv = .m ∧ t = returnFromM s) := by
  unfold execMret at h
  split at h
  · rename_i hp
    cases h
    exact .inl ⟨hp, rfl⟩
  · rename_i hp
    cases h
    exact .inr ⟨not_not.mp hp, rfl⟩

/-- Every way an instruction can answer a next state. -/
inductive ExecCase (i : Instr) (s t : State) : Prop where
  | trap (s₀ : State) (hs : DrawnFrom s s₀) (ht : t = takeTrap .illegalInstruction s₀)
  | csr (op : CsrOp) (rd : RegNum) (csr : CsrNum) (source : CsrSource) (name : CsrName) (s₀ : State)
      (hi : i = csrInstr op rd csr source) (hname : csrOfNumber csr = some name) (hs : DrawnFrom s s₀)
      (hacc : csrAccessible s csr = true) (ht : t = csrExecute op rd name source s₀)
  | mret (hi : i = .mret) (hp : s.priv = .m) (ht : t = returnFromM s)
  | sret (hi : i = .sret) (hS : s.params.extS = true) (hp : s.priv ≠ .u) (hvs : inVsMode s = false)
      (ht : (s.params.extH = true ∧ t = returnFromS s.nextSretV s.dropSretV)
        ∨ (s.params.extH = false ∧ t = returnFromS false s))
  | wfi (hi : i = .wfi)
      (ht : t = { s.dropWfiDraw with wfiWaiting := true } ∨ t = { s.dropWfiDraw with wfiWaiting := false }.advance)
  | fence (fence : Fence) (rs1 rs2 r1 r2 : RegNum) (hi : i = fenceInstr fence rs1 rs2) (hp : s.priv ≠ .u)
      (ht : t = fenceExecute fence r1 r2 s)

/-- A CSR access instruction's next state, as a case. -/
theorem execCase_csr {op : CsrOp} {rd : RegNum} {csr : CsrNum} {source : CsrSource} {s t : State}
    (h : csrAccess op rd csr source s = .next t) : ExecCase (csrInstr op rd csr source) s t := by
  obtain ⟨s₀, hs, ht⟩ | ⟨name, s₀, hname, hs, hacc, ht⟩ := csrAccess_next h
  · exact .trap s₀ hs ht
  · exact .csr op rd csr source name s₀ rfl hname hs hacc ht

/-- A supervisor fence's next state, as a case. -/
theorem execCase_supervisorFence {fence : Fence} {underTvm : Bool} {rs1 rs2 r1 r2 : RegNum} {s t : State}
    (h : supervisorFence fence underTvm r1 r2 s = .next t) : ExecCase (fenceInstr fence rs1 rs2) s t := by
  obtain ht | ⟨hp, ht⟩ := supervisorFence_next h
  · exact .trap s (.inl rfl) ht
  · exact .fence fence rs1 rs2 r1 r2 rfl hp ht

/-- A hypervisor fence's next state, as a case. -/
theorem execCase_hypervisorFence {fence : Fence} {underTvm : Bool} {rs1 rs2 r1 r2 : RegNum} {s t : State}
    (h : hypervisorFence fence underTvm r1 r2 s = .next t) : ExecCase (fenceInstr fence rs1 rs2) s t := by
  obtain ht | ⟨hp, ht⟩ := hypervisorFence_next h
  · exact .trap s (.inl rfl) ht
  · exact .fence fence rs1 rs2 r1 r2 rfl hp ht

/-- Every next state of an instruction comes about in one of the cases. -/
theorem exec_cases {i : Instr} {s t : State} (h : exec i s = .next t) : ExecCase i s t := by
  cases i with
  | csrrw rd csr rs1 => exact execCase_csr (op := .write) (source := .reg rs1) h
  | csrrs rd csr rs1 => exact execCase_csr (op := .set) (source := .reg rs1) h
  | csrrc rd csr rs1 => exact execCase_csr (op := .clear) (source := .reg rs1) h
  | csrrwi rd csr uimm => exact execCase_csr (op := .write) (source := .imm uimm) h
  | csrrsi rd csr uimm => exact execCase_csr (op := .set) (source := .imm uimm) h
  | csrrci rd csr uimm => exact execCase_csr (op := .clear) (source := .imm uimm) h
  | sret =>
    obtain ht | ⟨hS, hp, hvs, ht⟩ := execSret_next h
    · exact .trap s (.inl rfl) ht
    · exact .sret rfl hS hp hvs ht
  | mret =>
    obtain ⟨-, ht⟩ | ⟨hp, ht⟩ := execMret_next h
    · exact .trap s (.inl rfl) ht
    · exact .mret rfl hp ht
  | wfi =>
    have ht : t = wfiStep s := by
      cases h
      rfl
    obtain ⟨-, hw⟩ | hw | hw := wfiStep_cases s
    · exact .trap s.dropWfiDraw (.inr (.inr rfl)) (ht.trans hw)
    · exact .wfi rfl (.inl (ht.trans hw))
    · exact .wfi rfl (.inr (ht.trans hw))
  | sfenceVma rs1 rs2 => exact execCase_supervisorFence (fence := .sfenceVma) h
  | sinvalVma rs1 rs2 => exact execCase_supervisorFence (fence := .sinvalVma) h
  | sfenceWInval => exact execCase_supervisorFence (fence := .sfenceWInval) (rs1 := 0) (rs2 := 0) h
  | sfenceInvalIr => exact execCase_supervisorFence (fence := .sfenceInvalIr) (rs1 := 0) (rs2 := 0) h
  | hfenceVvma rs1 rs2 => exact execCase_hypervisorFence (fence := .hfenceVvma) h
  | hfenceGvma rs1 rs2 => exact execCase_hypervisorFence (fence := .hfenceGvma) h
  | hinvalGvma rs1 rs2 => exact execCase_hypervisorFence (fence := .hinvalGvma) h

/-- What an event of the environment that acts can do (60_exceptions.md R202, R205, R208, R223, R226). -/
theorem eventEffect_cases {event : EnvEvent} {s t : State} (h : eventEffect event s = some t) :
    (∃ i, event = .interrupt i ∧ interruptEnabled s i = true ∧ t = takeInterrupt i s)
      ∨ (∃ cause, t = takeTrap cause s)
      ∨ (∃ mode address, event = .setRetAddr mode address ∧ recordReachable s mode = true ∧ t = s.withRetAddr mode address)
      ∨ (∃ mode cause, event = .setCause mode cause ∧ recordReachable s mode = true ∧ t = s.withCause mode cause) := by
  cases event with
  | interrupt i =>
    obtain ⟨he, ht⟩ := Option.ite_none_right_eq_some.mp h
    exact .inl ⟨i, rfl, he, (Option.some.inj ht).symm⟩
  | exception e => exact .inr (.inl ⟨_, (Option.some.inj h).symm⟩)
  | pageFault kind => exact .inr (.inl ⟨_, (Option.some.inj h).symm⟩)
  | setRetAddr mode address =>
    obtain ⟨hr, ht⟩ := Option.ite_none_right_eq_some.mp h
    exact .inr (.inr (.inl ⟨mode, address, rfl, hr, (Option.some.inj ht).symm⟩))
  | setCause mode cause =>
    obtain ⟨hr, ht⟩ := Option.ite_none_right_eq_some.mp h
    exact .inr (.inr (.inr ⟨mode, cause, rfl, hr, (Option.some.inj ht).symm⟩))

/-- What happens at a boundary is the effect of the event presented there. -/
theorem boundaryEffect_some {s t : State} (h : boundaryEffect s = some t) :
    ∃ event rest, s.envEvents = some event :: rest ∧ eventEffect event s.pastBoundary = some t := by
  unfold boundaryEffect at h
  split at h
  · rename_i event rest hs
    exact ⟨event, rest, hs, h⟩
  · cases h

/-- Every next state of a step comes about in one of these ways (00_scope.md R19). -/
theorem step_cases {s t : State} (h : step s = .next t) :
    (∃ event rest, s.envEvents = some event :: rest ∧ eventEffect event s.pastBoundary = some t)
      ∨ (boundaryEffect s = none ∧ s.wfiWaiting = true ∧ t = wfiStep s.pastBoundary)
      ∨ (boundaryEffect s = none ∧ s.wfiWaiting = false
          ∧ ((∃ cause, fetch s.pastBoundary = .raised cause ∧ t = takeTrap cause s.pastBoundary)
              ∨ (∃ w i, fetch s.pastBoundary = .word w ∧ decode w = .ok i ∧ exec i s.pastBoundary = .next t))) := by
  unfold step at h
  split at h
  · rename_i u hi
    cases h
    exact .inl (boundaryEffect_some hi)
  · rename_i hi
    split at h
    · rename_i hw
      cases h
      exact .inr (.inl ⟨hi, hw, rfl⟩)
    · rename_i hw
      refine .inr (.inr ⟨hi, by simpa using hw, ?_⟩)
      unfold runInstruction at h
      split at h
      · cases h
      · rename_i cause hf
        cases h
        exact .inl ⟨cause, hf, rfl⟩
      · rename_i w hf
        split at h
        · cases h
        · rename_i i hd
          exact .inr ⟨w, i, hf, hd, h⟩

/-! ### Loads and stores -/

/-- What an access makes of the state, said once: its result completes, its exception is taken, its fault stands (00_scope.md R17). -/
theorem accessOutcome_next {α : Type} {s t : State} {complete : α → State} {result : AccessResult α}
    (h : accessOutcome s complete result = .next t) :
    (∃ value, result = .done value ∧ t = complete value) ∨ (∃ cause, result = .raised cause ∧ t = takeTrap cause s) := by
  cases result with
  | done value =>
    cases h
    exact .inl ⟨value, rfl, rfl⟩
  | raised cause =>
    cases h
    exact .inr ⟨cause, rfl, rfl⟩
  | fault why => cases h

end Sys2Proof.Machine
end

