-- ==== Sys2Proof/Laws/PerInstr.lean ====
section
/-! SUPPORT. The family of per-instruction lemmas: every instruction is encoded under the one major opcode (30_encoding.md R100). -/

namespace Sys2Proof.Laws.SystemOpcode

/-- The word of the instruction has the major opcode 1110011 (30_encoding.md R100). -/
def Statement (i : Instr) : Prop := fieldOpcode (encode i) = systemOpcode

theorem csrrw (rd : RegNum) (csr : CsrNum) (rs1 : RegNum) : Statement (.csrrw rd csr rs1) := fieldOpcode_encodeCsr _ _ _ _

theorem csrrs (rd : RegNum) (csr : CsrNum) (rs1 : RegNum) : Statement (.csrrs rd csr rs1) := fieldOpcode_encodeCsr _ _ _ _

theorem csrrc (rd : RegNum) (csr : CsrNum) (rs1 : RegNum) : Statement (.csrrc rd csr rs1) := fieldOpcode_encodeCsr _ _ _ _

theorem csrrwi (rd : RegNum) (csr : CsrNum) (uimm : BitVec 5) : Statement (.csrrwi rd csr uimm) := fieldOpcode_encodeCsr _ _ _ _

theorem csrrsi (rd : RegNum) (csr : CsrNum) (uimm : BitVec 5) : Statement (.csrrsi rd csr uimm) := fieldOpcode_encodeCsr _ _ _ _

theorem csrrci (rd : RegNum) (csr : CsrNum) (uimm : BitVec 5) : Statement (.csrrci rd csr uimm) := fieldOpcode_encodeCsr _ _ _ _

theorem sret : Statement .sret := fieldOpcode_encodeSys _ _ _

theorem mret : Statement .mret := fieldOpcode_encodeSys _ _ _

theorem wfi : Statement .wfi := fieldOpcode_encodeSys _ _ _

theorem sfenceVma (rs1 rs2 : RegNum) : Statement (.sfenceVma rs1 rs2) := fieldOpcode_encodeSys _ _ _

theorem sinvalVma (rs1 rs2 : RegNum) : Statement (.sinvalVma rs1 rs2) := fieldOpcode_encodeSys _ _ _

theorem sfenceWInval : Statement .sfenceWInval := fieldOpcode_encodeSys _ _ _

theorem sfenceInvalIr : Statement .sfenceInvalIr := fieldOpcode_encodeSys _ _ _

theorem hfenceVvma (rs1 rs2 : RegNum) : Statement (.hfenceVvma rs1 rs2) := fieldOpcode_encodeSys _ _ _

theorem hfenceGvma (rs1 rs2 : RegNum) : Statement (.hfenceGvma rs1 rs2) := fieldOpcode_encodeSys _ _ _

theorem hinvalGvma (rs1 rs2 : RegNum) : Statement (.hinvalGvma rs1 rs2) := fieldOpcode_encodeSys _ _ _

end Sys2Proof.Laws.SystemOpcode
end

