-- ==== Sys2Proof/Tests/Slice0.lean ====
section
/-! SUPPORT. Tests: the smoke test of WellFormed, one word for every constructor written out from 30_encoding.md, vectors of
95_test_vectors.md, and a witness for the hypotheses of every obligation that has some. Expected values come from the spec. -/

namespace Sys2Proof.Tests

open Sys2Proof.Machine

/-! ### Helpers -/

/-- The fields of a 64-bit value of `mstatus` as the vectors write it (10_state.md R23). -/
def fieldsOf (w : Word) : Mstatus where
  mpv := w.getLsbD 39
  gva := w.getLsbD 38
  sxl := (widthOfBits (w.extractLsb' 34 2)).getD .w64
  uxl := (widthOfBits (w.extractLsb' 32 2)).getD .w64
  tsr := w.getLsbD 22
  tw := w.getLsbD 21
  tvm := w.getLsbD 20
  mxr := w.getLsbD 19
  sum := w.getLsbD 18
  mprv := w.getLsbD 17
  fs := w.extractLsb' 13 2
  mpp := (privOfBits (w.extractLsb' 11 2)).getD .m
  vs := w.extractLsb' 9 2
  spp := w.getLsbD 8
  mpie := w.getLsbD 7
  spie := w.getLsbD 5
  mie := w.getLsbD 3
  sie := w.getLsbD 1

/-- The machine after reset with `mstatus` and the mode set. -/
def at_ (mstatus : Word) (priv : Priv) (v : Bool := false) : State :=
  { State.reset with mstatus := fieldsOf mstatus, priv := priv, v := v }

/-- `S0` of 95_test_vectors.md: the REF-A reset value. -/
def s0 : State := at_ 0x0000000A00001800 .m

/-- The state with x5 holding a value. -/
def x5 (s : State) (value : Word) : State := s.writeReg 5 value

/-- The value of `mstatus` after an instruction, and a register. -/
def after (i : Instr) (s : State) (r : RegNum) : Option (Word × Word) :=
  (nextState (exec i s)).map fun t => (readMstatus t.mstatus, t.readReg r)

/-- The value of `mstatus` and the mode after an instruction. -/
def modeAfter (i : Instr) (s : State) : Option (Word × Priv × Bool) :=
  (nextState (exec i s)).map fun t => (readMstatus t.mstatus, t.priv, t.v)

/-- Inputs of a trap into a mode. -/
def into (target : TrapTarget) (gva : Bool := false) : TrapInput := { target := target, gva := gva, retAddr := 0x3000, tval := 7 }

/-- The state with the inputs of the next trap. -/
def trapping (s : State) (target : TrapTarget) (gva : Bool := false) : State := { s with trapInputs := [into target gva] }

/-- The configuration set to another. -/
def configured (s : State) (p : Params) : State := { s with params := p }

/-- What a trap makes of `mstatus` and the mode. -/
def trapTo (target : TrapTarget) (gva : Bool) (s : State) : Word × Priv × Bool :=
  let t := takeTrap .illegalInstruction (trapping s target gva)
  (readMstatus t.mstatus, t.priv, t.v)

/-! ### WellFormed: an ill-formed term for each check (30_encoding.md R107, D34) -/

theorem test_illformed_csrrw : Instr.wellFormed (.csrrw 1 0x341 2) = false := by decide

theorem test_illformed_csrrs : Instr.wellFormed (.csrrs 1 0x305 2) = false := by decide

theorem test_illformed_csrrc : Instr.wellFormed (.csrrc 1 0x000 2) = false := by decide

theorem test_illformed_csrrwi : Instr.wellFormed (.csrrwi 1 0xFFF 2) = false := by decide

theorem test_illformed_csrrsi : Instr.wellFormed (.csrrsi 1 0x302 2) = false := by decide

theorem test_illformed_csrrci : Instr.wellFormed (.csrrci 1 0x100 2) = false := by decide

theorem test_wellformed_each_csr :
    [0x300, 0x301, 0x304, 0x343, 0x104, 0x180, 0x600, 0x680, 0x200, 0x003].all (fun n => Instr.wellFormed (.csrrs 0 n 0)) = true := by
  decide

/-! ### Decoding: one word for every constructor, bit by bit from 30_encoding.md R101 to R106 -/

theorem test_decode_csrrw : decode 0b001100000000_00101_001_00110_1110011 = .ok (.csrrw 6 0x300 5) := by decide

theorem test_decode_csrrs : decode 0b001100000000_00000_010_00110_1110011 = .ok (.csrrs 6 0x300 0) := by decide

theorem test_decode_csrrc : decode 0b001100000000_00101_011_00111_1110011 = .ok (.csrrc 7 0x300 5) := by decide

theorem test_decode_csrrwi : decode 0b001100000000_01000_101_00000_1110011 = .ok (.csrrwi 0 0x300 8) := by decide

theorem test_decode_csrrsi : decode 0b001100000000_01010_110_00000_1110011 = .ok (.csrrsi 0 0x300 10) := by decide

theorem test_decode_csrrci : decode 0b001100000000_01010_111_00110_1110011 = .ok (.csrrci 6 0x300 10) := by decide

theorem test_decode_sret : decode 0b0001000_00010_00000_000_00000_1110011 = .ok .sret := by decide

theorem test_decode_mret : decode 0b0011000_00010_00000_000_00000_1110011 = .ok .mret := by decide

theorem test_decode_wfi : decode 0b0001000_00101_00000_000_00000_1110011 = .ok .wfi := by decide

theorem test_decode_sfenceVma : decode 0b0001001_00110_00101_000_00000_1110011 = .ok (.sfenceVma 5 6) := by decide

theorem test_decode_sinvalVma : decode 0b0001011_00110_00101_000_00000_1110011 = .ok (.sinvalVma 5 6) := by decide

theorem test_decode_sfenceWInval : decode 0b0001100_00000_00000_000_00000_1110011 = .ok .sfenceWInval := by decide

theorem test_decode_sfenceInvalIr : decode 0b0001100_00001_00000_000_00000_1110011 = .ok .sfenceInvalIr := by decide

theorem test_decode_hfenceVvma : decode 0b0010001_00110_00101_000_00000_1110011 = .ok (.hfenceVvma 5 6) := by decide

theorem test_decode_hfenceGvma : decode 0b0110001_00110_00101_000_00000_1110011 = .ok (.hfenceGvma 5 6) := by decide

theorem test_decode_hinvalGvma : decode 0b0110011_00110_00101_000_00000_1110011 = .ok (.hinvalGvma 5 6) := by decide

theorem test_decode_table_word :
    decodeTableWord 32 0x30029373 = some (.csrrw 6 0x300 5) ∧ decodeTableWord 32 0x30004073 = none := by decide

/-- The bytes of P1 of 95_test_vectors.md stand in memory in the order it lists them. -/
theorem test_bytes_of_word : bytesOfWord 0x30029373 = [0x73, 0x93, 0x02, 0x30] := by decide

/-! ### The register (95_test_vectors.md V-READ, V-WRITE, V-XL, V-RESET) -/

theorem test_read_all_fields : readMstatus (fieldsOf 0x800000CA007E7FAA) = 0x800000CA007E7FAA := by decide

theorem test_read_sd : readMstatus (fieldsOf 0x0000000A00005C00) = 0x0000000A00005C00
    ∧ readMstatus (fieldsOf 0x0000000A00005E00) = 0x8000000A00005E00 := by decide

theorem test_write_all_ones : readMstatus (writeMstatus s0 0xFFFFFFFFFFFFFFFF) = 0x800000CA007E7FAA := by decide

theorem test_write_hardwired : readMstatus (writeMstatus s0 0x0000003000018040) = 0x0000000A00000000 := by decide

theorem test_write_xl_legal_pair :
    readMstatus (writeMstatus (configured s0 .refB) 0x0000000900001800) = 0x0000000900001800 := by decide

theorem test_write_mpp_refC (index : Nat) : pick (mppLegal Params.refC) index .u = .m := by
  simp [pick, mppLegal, Params.refC, Nat.mod_one]

theorem test_write_fs_lowered : readMstatus (writeMstatus (at_ 0x8000000A00007800 .m) 0x0000000A00001800) = 0x0000000A00001800 := by
  decide

theorem test_reset : readMstatus State.reset.mstatus = 0x0000000A00001800 ∧ State.reset.legal = true := by decide

/-! ### CSR access instructions (95_test_vectors.md V-CSR) -/

theorem test_csrrw : after (.csrrw 6 0x300 5) (x5 s0 0x88) 6 = some (0x0000000A00000088, 0x0000000A00001800) := by decide +kernel

theorem test_csrrw_source_is_destination :
    after (.csrrw 5 0x300 5) (x5 s0 0x88) 5 = some (0x0000000A00000088, 0x0000000A00001800) := by decide +kernel

theorem test_csrrs : after (.csrrs 0 0x300 5) (x5 s0 0x8) 0 = some (0x0000000A00001808, 0) := by decide +kernel

theorem test_csrrwi_on_fcsr_dirties_fs :
    (nextState (exec (.csrrwi 6 0x003 1) (at_ 0x0000000A00005800 .m))).map (fun t => readMstatus t.mstatus)
      = some 0x8000000A00007800 := by decide +kernel

theorem test_csrrc : after (.csrrc 7 0x300 5) (x5 s0 0x1800) 7 = some (0x0000000A00000000, 0x0000000A00001800) := by decide +kernel

theorem test_csrrc_to_supervisor : after (.csrrc 0 0x300 5) (x5 s0 0x1000) 0 = some (0x0000000A00000800, 0) := by decide +kernel

theorem test_csrrwi : after (.csrrwi 0 0x300 8) s0 0 = some (0x0000000A00000008, 0) := by decide +kernel

theorem test_csrrsi : after (.csrrsi 0 0x300 10) s0 0 = some (0x0000000A0000180A, 0) := by decide +kernel

theorem test_csrrsi_zero_writes_nothing : after (.csrrsi 6 0x300 0) s0 6 = some (0x0000000A00001800, 0x0000000A00001800) := by decide +kernel

theorem test_csrrci :
    after (.csrrci 6 0x300 10) (at_ 0x0000000A0000180A .m) 6 = some (0x0000000A00001800, 0x0000000A0000180A) := by decide +kernel

/-- P2 of 95_test_vectors.md: the access in U-mode traps, x7 unchanged. -/
theorem test_csr_access_in_user_mode :
    after (.csrrs 7 0x300 0) (trapping (at_ 0x0000000A00000088 .u) .m) 7 = some (0x0000000A00000080, 0) := by decide +kernel

/-! ### Traps and returns (95_test_vectors.md V-TRAP-M, V-TRAP-S, V-MRET, V-SRET) -/

theorem test_trap_into_m :
    trapTo .m true (at_ 0x0000000A0000010A .s true) = (0x000000CA00000982, .m, false)
      ∧ trapTo .m false (at_ 0x0000000A00001880 .m) = (0x0000000A00001800, .m, false) := by decide

theorem test_trap_into_s :
    trapTo .s false (at_ 0x0000000A00000122 .u) = (0x0000000A00000020, .s, false)
      ∧ trapTo .s false (at_ 0x0000000A00000002 .s) = (0x0000000A00000120, .s, false) := by decide

theorem test_trap_from_m_stays_in_m : trapTo .s false (at_ 0x0000000A00421808 .m) = (0x0000000A00421880, .m, false) := by decide

theorem test_cause_codes :
    [Cause.illegalInstruction, .pageFault .fetch, .pageFault .load, .pageFault .store].map causeCode
      = [some 2, some 12, some 13, some 15] := by decide

theorem test_mret : modeAfter .mret (at_ 0x0000008A00000880 .m) = some (0x0000008A00000088, .s, true) := by decide

theorem test_mret_keeps_mprv_where_configured :
    modeAfter .mret (configured (at_ 0x0000000A00021808 .m) { Params.refA with mprvClearedOnReturnToM := false })
      = some (0x0000000A00020080, .m, false) := by decide

theorem test_sret :
    modeAfter .sret { at_ 0x0000000A00421920 .m with sretVInputs := [false] } = some (0x0000000A00401822, .s, false) := by decide

/-- The first step of P4 of 95_test_vectors.md. -/
theorem test_sret_trapped_by_tsr :
    modeAfter .sret (trapping (at_ 0x0000000A00400120 .s) .m) = some (0x0000000A00400920, .m, false) := by decide

/-! ### `wfi` and fences (95_test_vectors.md V-PRED) -/

theorem test_wfi_trap_by_tw :
    modeAfter .wfi { trapping (at_ 0x0000000A00200000 .s) .m with wfiInputs := [.trap] } = some (0x0000000A00200800, .m, false) := by
  decide

theorem test_wfi_waits :
    (nextState (exec .wfi { s0 with wfiInputs := [.stall] })).map (fun t => (t.wfiWaiting, t.pc)) = some (true, 0) := by decide

theorem test_sfenceVma_trapped_by_tvm :
    modeAfter (.sfenceVma 5 6) (trapping (at_ 0x0000000A00100000 .s) .m) = some (0x0000000A00100800, .m, false) := by decide

theorem test_sinvalVma_not_trapped_in_m : modeAfter (.sinvalVma 5 6) (at_ 0x0000000A00100000 .m) = some (0x0000000A00100000, .m, false) := by
  decide

theorem test_hfenceGvma_trapped_by_tvm :
    modeAfter (.hfenceGvma 5 6) (trapping (at_ 0x0000000A00100000 .s) .m) = some (0x0000000A00100800, .m, false) := by decide

theorem test_hinvalGvma_trapped_by_tvm :
    modeAfter (.hinvalGvma 5 6) (trapping (at_ 0x0000000A00100000 .s) .m) = some (0x0000000A00100800, .m, false) := by decide

theorem test_hfenceVvma_not_trapped : modeAfter (.hfenceVvma 5 6) (at_ 0x0000000A00100000 .s) = some (0x0000000A00100000, .s, false) := by
  decide

theorem test_sfenceWInval_not_trapped : modeAfter .sfenceWInval (at_ 0x0000000A00100000 .s) = some (0x0000000A00100000, .s, false) := by
  decide

theorem test_sfenceInvalIr_in_user_mode :
    modeAfter .sfenceInvalIr (trapping (at_ 0x0000000A00000000 .u) .m) = some (0x0000000A00000000, .m, false) := by decide

/-! ### Context status, loads and stores (95_test_vectors.md V-FPV, V-MEM) -/

/-- A floating-point instruction that writes a floating-point register. -/
def fpWrite : InsnClass := { isFp := true, isVector := false, writesFpState := true, writesVectorState := false }

/-- A vector instruction that writes a vector register. -/
def vectorWrite : InsnClass := { isFp := false, isVector := true, writesFpState := false, writesVectorState := true }

theorem test_fp_write : readMstatus (classStep fpWrite (at_ 0x0000000A00003800 .m)).mstatus = 0x8000000A00007800 := by decide

theorem test_vector_write : readMstatus (classStep vectorWrite (at_ 0x0000000A00001C00 .m)).mstatus = 0x8000000A00001E00 := by decide

theorem test_effective_mode :
    effectiveMode (at_ 0x0000008A00020800 .m) = (true, .s) ∧ effectiveMode (at_ 0x0000008A00021800 .m) = (false, .m) := by decide

/-- A page marked X and U but not R. -/
def userCode : Page := { readable := false, executable := true, user := true }

theorem test_mxr_and_sum :
    accessException (at_ 0x0000000A00080000 .s) .load 0 1 (some userCode) = some .illegalInstruction
      ∧ accessException (at_ 0x0000000A000C0000 .s) .load 0 1 (some userCode) = none
      ∧ accessException (at_ 0x0000000A00040000 .s) .load 0 1 (some userCode) = some (.pageFault .load) := by decide

/-- A load that MXR does not permit takes the trap of its page fault (20_memory.md R88; 60_exceptions.md R214). -/
theorem test_load_takes_its_trap :
    (nextState (loadStep (fun v s => s.writeReg 6 (BitVec.ofNat 64 v)) 0 1 (some userCode) (trapping (at_ 0x0000000A00040000 .s) .m))).map
        (fun t => (t.mCause, t.priv, readMstatus t.mstatus))
      = some (.pageFault .load, .m, 0x0000000A00040800) := by decide

/-! ### A step -/

theorem test_step_runs_mret :
    (nextState (step (s0.withFetchWord 32 0x30200073))).map (fun t => readMstatus t.mstatus) = some 0x0000000A00000080 := by decide

/-- An environment call goes through trap entry (60_exceptions.md R205, R214). -/
theorem test_environment_call :
    (nextState (step { trapping (at_ 0x0000000A00000088 .u) .m with envEvents := [some (.exception .environmentCall)] })).map
        (fun t => (t.mCause, t.priv, readMstatus t.mstatus))
      = some (.environment .environmentCall, .m, 0x0000000A00000080) := by decide

/-- M-mode code sets the return address of its first entry to a lower mode, and `mret` goes there (60_exceptions.md R226). -/
theorem test_first_entry_to_user_mode :
    (nextState (step { at_ 0x0000000A00000080 .m with envEvents := [some (.setRetAddr .m 0x4000)] })).map
        (fun t => ((nextState (exec .mret t)).map fun u => (u.pc, u.priv)))
      = some (some (0x4000, .u)) := by decide

theorem test_step_faults_on_empty_memory : nextState (step State.reset) = none := by decide

/-! ### Witnesses: states and operands that meet the hypotheses of each obligation -/

/-- S-mode, U-mode, VS-mode and VU-mode with TVM, TW, TSR and the rest of the free fields 0. -/
def inS : State := at_ 0x0000000A00000000 .s

/-- U-mode. -/
def inU : State := at_ 0x0000000A00000000 .u

/-- VS-mode. -/
def inVs : State := at_ 0x0000000A00000000 .s true

/-- (H)S-mode with TVM = 1. -/
def inSTvm : State := at_ 0x0000000A00100000 .s

/-- The state with a word placed where the next step fetches. -/
def placed (w : Nat) : State := s0.withFetchWord 32 w

theorem witness_EncodeInvertsDecode : decode 0x30200073 = .ok .mret := by decide

theorem witness_StepRunsDecodedInstruction :
    boundaryEffect (placed 0x30200073) = none ∧ (placed 0x30200073).wfiWaiting = false
      ∧ fetchMisaligned (placed 0x30200073) = false
      ∧ (readBytes (placed 0x30200073).mem (placed 0x30200073).pc 4).toOption = some [0x73, 0x00, 0x20, 0x30]
      ∧ decode (wordOfBytes 0x73 0x00 0x20 0x30) = .ok .mret := by decide +kernel

theorem witness_StepRefusesWordsOfNoRow :
    boundaryEffect (placed 0x00000073) = none ∧ (placed 0x00000073).wfiWaiting = false
      ∧ fetchMisaligned (placed 0x00000073) = false
      ∧ (readBytes (placed 0x00000073).mem (placed 0x00000073).pc 4).toOption = some [0x73, 0x00, 0x00, 0x00]
      ∧ (∀ row ∈ opcodeRows, wordOfBytes 0x73 0x00 0x00 0x00 &&& row.2.2 ≠ row.2.1) := by decide +kernel

theorem witness_PlacedInstructionRunsNext : fetchMisaligned s0 = false := by decide

theorem witness_FetchIsLittleEndian :
    fetchMisaligned (placed 0x30029373) = false ∧ readByte (placed 0x30029373).mem (placed 0x30029373).pc.toNat = some 0x73
      ∧ readByte (placed 0x30029373).mem ((placed 0x30029373).pc + 1).toNat = some 0x93
      ∧ readByte (placed 0x30029373).mem ((placed 0x30029373).pc + 2).toNat = some 0x02
      ∧ readByte (placed 0x30029373).mem ((placed 0x30029373).pc + 3).toNat = some 0x30 := by decide +kernel

/-- An interrupt with its handler in M-mode. -/
def mInterrupt : Interrupt := { handler := .m, number := 7 }

/-- Below M-mode an M-mode interrupt is enabled; in M-mode with MIE = 0 it is not. -/
theorem witness_BoundaryActsOnTheEnvironmentsEvent_interrupt :
    { inU with envEvents := [some (.interrupt mInterrupt)] }.envEvents = some (.interrupt mInterrupt) :: []
      ∧ interruptEnabled { inU with envEvents := [some (.interrupt mInterrupt)] } mInterrupt = true
      ∧ interruptEnabled { s0 with envEvents := [some (.interrupt mInterrupt)] } mInterrupt = false := by decide

/-- The modes of the other clauses: M, (H)S, VS, U. -/
theorem witness_BoundaryActsOnTheEnvironmentsEvent_modes :
    { s0 with envEvents := [some (.setRetAddr .m 0x4000)] }.envEvents = some (.setRetAddr .m 0x4000) :: [] ∧ s0.priv = .m
      ∧ { inU with envEvents := [some (.exception .environmentCall)] }.envEvents = some (.exception .environmentCall) :: []
      ∧ inU.priv = .u ∧ inS.priv = .s ∧ inS.v = false ∧ inVs.priv = .s ∧ inVs.v = true := by decide

theorem witness_InterruptGatesFollowMieAndSie : inS.params.extS = true := by decide

/-- For CsrrwWritesMstatus, CsrrsSetsMstatusBits, CsrrcClearsMstatusBits, ByteOrderCannotBeSwitched. -/
theorem witness_mstatus_access_in_m : s0.priv = .m := by decide

theorem witness_MstatusAccessBelowMachineModeTraps : inS.priv ≠ .m ∧ inU.priv ≠ .m ∧ inVs.priv ≠ .m := by decide

/-- For ImmediateFormsReachOnlyMieAndSie, WritingBackTheReadValueChangesNothing, XlWriteStoresALegalPair, StepKeepsLegalStates. -/
theorem witness_legal : s0.legal = true ∧ inU.legal = true ∧ inVs.legal = true ∧ (configured s0 .refB).legal = true := by
  decide +kernel

theorem witness_SoftwareWriteStoresPlainBits : 39 ∈ [39, 38, 22, 21, 19, 18, 17, 8, 7, 5, 3, 1] ∧ 1 ∈ [39, 38, 22, 21, 19, 18, 17, 8, 7, 5, 3, 1] := by
  decide

theorem witness_MppWriteStoresAnImplementedLevel :
    (0x1800 : Word).extractLsb' 11 2 = 3#2 ∧ (0x800 : Word).extractLsb' 11 2 = 1#2 ∧ (0 : Word).extractLsb' 11 2 = 0#2
      ∧ s0.params.extS = true ∧ s0.params.extU = true
      ∧ { s0 with drawCount := 1 }.architectural = s0.architectural := by decide

/-- SXL RW and UXL hardwired to 32 bits. -/
def narrowUser : State :=
  configured { s0 with mstatus := { s0.mstatus with uxl := .w32 } } { Params.refB with uxlen := [.w32] }

/-- SXL hardwired to 64 bits and UXL RW. -/
def wideSupervisor : State := configured s0 { Params.refB with sxlen := [.w64] }

/-- Both RO, both RW, and each alone RW. -/
theorem witness_XlWriteStoresALegalPair :
    sxlType s0.params = .ro ∧ uxlType s0.params = .ro ∧ sxlType Params.refB = .rw ∧ uxlType Params.refB = .rw
      ∧ Width.w64 ∈ Params.refB.sxlen ∧ Width.w32 ∈ Params.refB.uxlen ∧ Width.w32.le .w64 = true
      ∧ (0x0000000900001800 : Word).extractLsb' 34 2 = widthBits .w64
      ∧ (0x0000000900001800 : Word).extractLsb' 32 2 = widthBits .w32
      ∧ narrowUser.legal = true ∧ sxlType narrowUser.params = .rw ∧ uxlType narrowUser.params = .ro
      ∧ Width.w64 ∈ narrowUser.params.sxlen ∧ narrowUser.mstatus.uxl.le .w64 = true
      ∧ wideSupervisor.legal = true ∧ sxlType wideSupervisor.params = .ro ∧ uxlType wideSupervisor.params = .rw
      ∧ Width.w32 ∈ wideSupervisor.params.uxlen ∧ Width.w32.le wideSupervisor.mstatus.sxl = true := by decide

/-- A configuration with neither F nor V, whose legal sets are {0, 3} and {2}. -/
def noFpNoVector : Params := { Params.refA with extF := false, extV := false, fsLegalValues := [0, 3], vsLegalValues := [2] }

/-- The machine in that configuration, with `misa.S` as given. -/
def withoutFp (misaS : Bool) : State := configured { s0 with misa := { s := misaS, f := false, v := false, rest := 0 } } noFpNoVector

theorem witness_TvmFsVsWritesFollowTheirTypes :
    s0.params.wellFormed = true ∧ misaS s0 = true ∧ fsKind s0 = .rwH ∧ vsKind s0 = .rwH
      ∧ (withoutFp false).params.wellFormed = true ∧ misaS (withoutFp false) = false ∧ fsKind (withoutFp false) = .roZero
      ∧ vsKind (withoutFp false) = .roZero ∧ fsKind (withoutFp true) = .rw [0, 3] ∧ vsKind (withoutFp true) = .roSingle 2
      ∧ fsKind (configured (withoutFp true) { noFpNoVector with fsLegalValues := [0] }) = .roSingle 0
      ∧ vsKind (configured (withoutFp true) { noFpNoVector with vsLegalValues := [0, 1] }) = .rw [0, 1] := by decide

theorem witness_OtherCsrAccessExecutes :
    csrOfNumber 0x180 = some .satp ∧ csrAccessible inS 0x180 = true ∧ tvmTrap inS = false ∧ inVsMode inS = false
      ∧ inVsMode inVs = true ∧ inVs.hstatus.vtvm = false ∧ csrAccessible inVs 0x180 = true
      ∧ csrOfNumber 0x301 = some .misa ∧ s0.params.misaImplemented = true ∧ csrAccessible s0 0x301 = true
      ∧ performsWrite .write (.reg 0) = true
      ∧ csrOfNumber 0x003 = some .fcsr ∧ csrAccessible (at_ 0x0000000A00002000 .u) 0x003 = true
      ∧ fpDisabled (at_ 0x0000000A00002000 .u) = false ∧ performsWrite .set (.reg 0) = false := by decide +kernel

theorem witness_CsrAccessBelowItsLevelTraps :
    csrOfNumber 0x343 = some .mtval ∧ csrLevel 0x343 = 3#2 ∧ inS.priv ≠ .m
      ∧ csrOfNumber 0x180 = some .satp ∧ csrLevel 0x180 = 1#2 ∧ inU.priv = .u
      ∧ csrOfNumber 0x200 = some .vsstatus ∧ csrLevel 0x200 = 2#2 ∧ inVs.priv = .s ∧ inVs.v = true
      ∧ csrOfNumber 0x301 = some .misa ∧ inS.params.misaImplemented = true := by decide

theorem witness_UndefinedCsrIsRefused :
    csrOfNumber 0x341 = none ∧ (configured s0 { Params.refA with misaImplemented := false }).params.misaImplemented = false := by decide

theorem witness_TvmTrapsWritesOfSatpAndHgatp :
    inSTvm.mstatus.tvm = true ∧ inSTvm.priv = .s ∧ inSTvm.v = false ∧ sourceField (.reg 5) ≠ 0 ∧ sourceField (.imm 31) ≠ 0 := by
  decide

theorem witness_ReadOfSatpUnderTvmFollowsTheDraw :
    { inSTvm with tvmReadInputs := [true, false] }.mstatus.tvm = true ∧ { inSTvm with tvmReadInputs := [true, false] }.priv = .s
      ∧ { inSTvm with tvmReadInputs := [true, false] }.v = false ∧ CsrOp.set ≠ .write ∧ sourceField (.imm 0) = 0
      ∧ { inSTvm with tvmReadInputs := [true, false] }.tvmReadInputs = true :: [false]
      ∧ { inSTvm with tvmReadInputs := [false] }.tvmReadInputs = false :: [] := by decide

theorem witness_FcsrWriteMarksFsDirty :
    (at_ 0x0000000A00002000 .u).v = false ∧ (at_ 0x0000000A00002000 .u).mstatus.fs ≠ 0#2
      ∧ performsWrite .set (.reg 5) = true := by decide

theorem witness_FcsrAccessTrapsWhenFsIsOff : s0.params.fcsrIsFp = true ∧ s0.mstatus.fs = 0#2 := by decide

theorem witness_VsModeStopsWhereTheSpecDescribesNothing :
    { inVs with hstatus := { vtsr := false, vtvm := true, rest := 0 } }.priv = .s
      ∧ { inVs with hstatus := { vtsr := false, vtvm := true, rest := 0 } }.v = true
      ∧ { inVs with hstatus := { vtsr := false, vtvm := true, rest := 0 } }.hstatus.vtvm = true ∧ inVs.params.extS = true := by decide

/-- Every clause: MPP of M and of U, with and without the hypervisor feature set, each parameter value. -/
theorem witness_MretReturnsToTheRecordedMode :
    s0.priv = .m ∧ s0.mstatus.mpp = .m ∧ (at_ 0x0000000A00000000 .m).mstatus.mpp ≠ .m ∧ s0.params.extH = true
      ∧ s0.params.mprvClearedOnReturnToM = true ∧ s0.params.mpvAfterMret = .unchanged
      ∧ (configured s0 .refC).params.extH = false ∧ (configured s0 .refC).params.extU = false
      ∧ (configured s0 { Params.refA with mprvClearedOnReturnToM := false, mpvAfterMret := .zero }).priv = .m := by decide

/-- In M-mode under TSR, in (H)S-mode without it, with and without the hypervisor feature set. -/
theorem witness_SretReturnsToTheRecordedMode :
    (at_ 0x0000000A00400000 .m).params.extS = true ∧ (at_ 0x0000000A00400000 .m).priv = .m ∧ inS.priv = .s ∧ inS.v = false
      ∧ inS.mstatus.tsr = false ∧ { inS with sretVInputs := [true] }.sretVInputs = true :: [] ∧ inS.params.extH = true
      ∧ (configured inS { Params.refA with extH := false }).params.extS = true := by decide

theorem witness_TrapReturnsTrapWhereTheyMayNotExecute :
    inS.priv ≠ .m ∧ (configured s0 .refC).params.extS = false ∧ inU.priv = .u
      ∧ (at_ 0x0000000A00400000 .s).mstatus.tsr = true ∧ (at_ 0x0000000A00400000 .s).v = false := by decide

/-- Each clause: (H)S-mode with and without TSR, M-mode under TSR, VS-mode. -/
theorem witness_TsrTrapsSretInSupervisorModeOnly :
    (at_ 0x0000000A00400000 .s).mstatus.tsr = true ∧ (at_ 0x0000000A00400000 .s).v = false ∧ inS.mstatus.tsr = false
      ∧ (at_ 0x0000000A00400000 .m).priv = .m ∧ inVs.priv = .s ∧ inVs.v = true ∧ inVs.params.extS = true := by decide

theorem witness_WfiCompletesWhenDrawn :
    { inU with wfiInputs := [.complete] }.wfiInputs = .complete :: []
      ∧ { s0 with wfiInputs := [.trap] }.wfiInputs = .trap :: [] ∧ s0.priv = .m
      ∧ inS.mstatus.tw = false ∧ inS.priv = .s ∧ inS.v = false := by decide

theorem witness_WfiNeverTrapsWhereTwLetsItWait : s0.priv = .m ∧ inS.priv = .s ∧ inS.v = false ∧ inS.mstatus.tw = false := by decide

/-- TW = 1 in (H)S-mode, U-mode, a guest. -/
theorem witness_WfiTrapsWhenDrawnAndAllowed :
    { at_ 0x0000000A00200000 .s with wfiInputs := [.trap] }.wfiInputs = .trap :: []
      ∧ (at_ 0x0000000A00200000 .s).priv ≠ .m ∧ (at_ 0x0000000A00200000 .s).mstatus.tw = true ∧ inU.priv ≠ .m ∧ inVs.v = true := by
  decide

theorem witness_WfiWaitsUntilADrawEndsIt :
    { s0 with wfiInputs := [.stall], wfiWaiting := true }.wfiInputs = .stall :: []
      ∧ { s0 with wfiInputs := [.stall], wfiWaiting := true }.wfiWaiting = true
      ∧ boundaryEffect { s0 with wfiInputs := [.stall], wfiWaiting := true } = none := by decide

/-- Under TVM in M-mode; in (H)S-mode with TVM = 0; the fences TVM does not trap under TVM; a fence of the supervisor in VS-mode. -/
theorem witness_FencesExecuteWhereNothingTrapsThem :
    (at_ 0x0000000A00100000 .m).priv ≠ .u ∧ inS.priv ≠ .u ∧ inS.mstatus.tvm = false ∧ inSTvm.priv ≠ .u
      ∧ fenceUnderTvm .hfenceVvma = false ∧ fenceUnderTvm .sfenceWInval = false ∧ fenceUnderTvm .sfenceInvalIr = false
      ∧ inVs.priv = .s ∧ inVs.v = true ∧ fenceOfHypervisor .sfenceVma = false ∧ inVs.hstatus.vtvm = false := by decide

theorem witness_TvmTrapsTheFourFences : inSTvm.mstatus.tvm = true ∧ inSTvm.priv = .s ∧ inSTvm.v = false := by decide

theorem witness_FencesTrapBelowTheirMode :
    inU.priv = .u ∧ inVs.priv = .s ∧ inVs.v = true ∧ fenceOfHypervisor .hfenceVvma = true := by decide

/-- For TrapIntoMachineModeRecordsTheState, MretUndoesATrapIntoMachineMode, SecondTrapOverwritesTheRecord: from M-mode whatever the
target, and from below into M-mode. -/
theorem witness_trap_into_m :
    (trapping s0 .s).trapInputs = into .s :: [] ∧ s0.priv = .m ∧ (trapping inVs .m true).trapInputs = into .m true :: []
      ∧ (into .m true).target = .m ∧ modeLegal (trapping s0 .s) = true ∧ modeLegal (trapping inVs .m true) = true
      ∧ s0.params.extU = true ∧ s0.params.mprvClearedOnReturnToM = true ∧ s0.params.mpvAfterMret = .unchanged
      ∧ (configured (trapping s0 .s) { Params.refA with mpvAfterMret := .zero }).params.mpvAfterMret = .zero := by decide

/-- For TrapIntoSupervisorModeRecordsTheState and SretUndoesATrapIntoSupervisorMode: from S-mode and from U-mode. -/
theorem witness_trap_into_s :
    (trapping inS .s).trapInputs = into .s :: [] ∧ (into .s).target = .s ∧ inS.priv ≠ .m ∧ inU.priv ≠ .m ∧ inS.priv = .s
      ∧ inU.priv = .u ∧ inS.params.extS = true ∧ inS.mstatus.tsr = false := by decide

theorem witness_TrapIntoVsModeLeavesMstatus :
    (trapping inVs .vs).trapInputs = into .vs :: [] ∧ (into .vs).target = .vs ∧ inVs.priv ≠ .m ∧ inVs.v = true
      ∧ inVs.params.extS = true ∧ inVs.params.extH = true := by decide

theorem witness_TrapsNeverLowerPrivilege : s0.priv = .m ∧ (takeTrap .illegalInstruction (trapping inVs .vs)).v = true := by decide

theorem witness_FloatingPointClassFollowsFs :
    fpWrite.isFp = true ∧ s0.mstatus.fs = 0#2 ∧ classDisabled fpWrite (at_ 0x0000000A00003800 .m) = false
      ∧ fpWrite.writesFpState = true ∧ (at_ 0x0000000A00003800 .m).mstatus.fs ≠ 0#2 ∧ fsKind (at_ 0x0000000A00003800 .m) = .rwH
      ∧ classDisabled { fpWrite with writesFpState := false } (at_ 0x0000000A00003800 .m) = false := by decide

theorem witness_VectorClassFollowsVs :
    vectorWrite.isVector = true ∧ s0.mstatus.vs = 0#2 ∧ classDisabled vectorWrite (at_ 0x0000000A00001C00 .m) = false
      ∧ vectorWrite.writesVectorState = true ∧ (at_ 0x0000000A00001C00 .m).mstatus.vs ≠ 0#2
      ∧ vsKind (at_ 0x0000000A00001C00 .m) = .rwH
      ∧ classDisabled { vectorWrite with writesVectorState := false } (at_ 0x0000000A00001C00 .m) = false := by decide

theorem witness_LoadsAndStoresUseTheEffectiveMode :
    s0.mstatus.mprv = false ∧ (at_ 0x0000000A00021800 .m).mstatus.mprv = true ∧ (at_ 0x0000000A00021800 .m).mstatus.mpp = .m
      ∧ (at_ 0x0000000A00020800 .m).mstatus.mprv = true ∧ (at_ 0x0000000A00020800 .m).mstatus.mpp ≠ .m := by decide

/-- Misaligned accesses fault, SUM violations are page faults. -/
def strict : Params := { Params.refA with misalignedAccess := .fault, sumViolation := .pageFault }

/-- Performed and faulting misaligned accesses; neither rule forbids; the marks alone; SUM alone; both; a misaligned fetch; a trap
taken by a load and by a store. -/
theorem witness_AccessesObeyMxrSumAndAlignment :
    s0.params.misalignedAccess = .performed ∧ strict.misalignedAccess = .fault ∧ (0x1001 : Word).toNat % 2 ≠ 0
      ∧ (0x1002 : Word).toNat % 2 = 0 ∧ userCode.user = true ∧ userCode.executable = true ∧ userCode.readable = false
      ∧ (effectiveMode inS).2 = .s ∧ inS.mstatus.sum = false ∧ inS.mstatus.mxr = false
      ∧ (at_ 0x0000000A00080000 .s).mstatus.mxr = true ∧ (at_ 0x0000000A00080000 .s).mstatus.sum = false
      ∧ (at_ 0x0000000A000C0000 .s).mstatus.mxr = true ∧ (at_ 0x0000000A000C0000 .s).mstatus.sum = true
      ∧ (at_ 0x0000000A00040000 .s).mstatus.mxr = false ∧ (at_ 0x0000000A00040000 .s).mstatus.sum = true
      ∧ { configured s0 strict with pc := 2 }.pc.toNat % 4 ≠ 0
      ∧ accessException inS .load 0 1 (some userCode) = some .illegalInstruction
      ∧ accessException (configured inS strict) .store 0 1 (some userCode) = some (.pageFault .store) := by decide

/-- A store of two bytes across the top of the address space. -/
theorem witness_LoadAfterStoreReadsTheValue :
    memWrite s0 0xFFFFFFFFFFFFFFFF 2 none 0x1234 = .done { s0 with mem := [(0, 0x12), (0xFFFFFFFFFFFFFFFF, 0x34)] }
      ∧ accessException { s0 with mem := [(0, 0x12), (0xFFFFFFFFFFFFFFFF, 0x34)] } .load 0xFFFFFFFFFFFFFFFF 2 none = none := by
  decide +kernel

/-- For OnlyTrapsAndReturnsChangeTheMode, StepKeepsLegalStates and StepKeepsParametersAndMemory: a step from a legal state. -/
theorem witness_a_step : (placed 0x30200073).legal = true ∧ (nextState (step (placed 0x30200073))).isSome = true := by decide +kernel

/-- A step that traps into M-mode changes its return address, one that traps into (H)S-mode its own, and the environment sets each where
the software may. -/
theorem witness_StepKeepsParametersAndMemory :
    (nextState (step ((trapping inU .m).withFetchWord 32 0x300023F3))).map (fun t => t.mRetAddr) = some 0x3000
      ∧ (nextState (step ((trapping inU .s).withFetchWord 32 0x300023F3))).map (fun t => t.sRetAddr) = some 0x3000
      ∧ (nextState (step { s0 with envEvents := [some (.setRetAddr .m 8)] })).map (fun t => t.mRetAddr) = some 8
      ∧ (nextState (step { inS with envEvents := [some (.setRetAddr .s 8)] })).map (fun t => t.sRetAddr) = some 8
      ∧ (nextState (step { inVs with envEvents := [some (.setRetAddr .vs 8)] })).map (fun t => t.vsRetAddr) = some 8 := by
  decide +kernel

theorem witness_BelowMachineModeNothingOfMachineModeChanges :
    (nextState (step ({ inS with mstatus := { inS.mstatus with spp := true } }.withFetchWord 32 0x18000073))).map (fun t => t.priv)
      = some .s ∧ inS.priv ≠ .m := by decide +kernel

/-- Draws that R241 allows, and one it forbids for each of its three conditions. -/
theorem witness_ResetLeavesALegalState :
    Params.refA.wellFormed = true ∧ ResetDraws.zero.legal Params.refA = true ∧ Params.refB.wellFormed = true
      ∧ { ResetDraws.zero with uxl := .w32, tvm := true, fs := 3 }.legal Params.refB = true
      ∧ { ResetDraws.zero with sxl := .w32 }.legal Params.refB = false
      ∧ { ResetDraws.zero with tvm := true }.legal Params.refC = false
      ∧ { ResetDraws.zero with fs := 1 }.legal { Params.refA with extF := false, fsLegalValues := [0, 3] } = false := by decide

end Sys2Proof.Tests
end

section
/-! The obligations on what one step of the hart runs and what it keeps (00_scope.md): the instruction the bytes at `pc` decode to, the
parameters and memory, and the exception return addresses. -/

namespace Sys2Proof.Machine

/-! ### The instruction a step runs -/

/-- An aligned fetch of four bytes that have values answers their word (20_memory.md R81). -/
theorem fetch_of_readBytes {s : State} {bytes : List Byte} (haligned : fetchMisaligned s = false)
    (hbytes : readBytes s.mem s.pc 4 = .ok bytes) : fetch s = .word (fetchedWord bytes) := by
  simp [fetch, haligned, hbytes]

/-- A fetched word that decodes to an instruction runs that instruction (30_encoding.md R108). -/
theorem runInstruction_of_decode {s : State} {w : InsnWord} {i : Instr} (hfetch : fetch s = .word w) (hdecode : decode w = .ok i) :
    runInstruction s = exec i s := by
  simp [runInstruction, hfetch, hdecode]

/-- Where the environment does nothing at the boundary and no `wfi` waits, the step is the instruction at `pc` (log 5). -/
theorem step_of_quietBoundary {s : State} (hquiet : boundaryEffect s = none) (hwfi : s.wfiWaiting = false) :
    step s = runInstruction s.pastBoundary := by
  simp [step, hquiet, hwfi]

/-- Settles O5: the step is past the boundary, the fetch there reads the same bytes, and their word is decoded and run. -/
theorem stepRunsDecodedInstruction : Obligations.StepRunsDecodedInstruction := by
  intro s b0 b1 b2 b3 i hquiet hwfi haligned hbytes hdecode
  have hfetch : fetch s.pastBoundary = .word (wordOfBytes b0 b1 b2 b3) :=
    fetch_of_readBytes (s := s.pastBoundary) haligned hbytes
  calc step s = runInstruction s.pastBoundary := step_of_quietBoundary hquiet hwfi
    _ = exec i s.pastBoundary := runInstruction_of_decode hfetch hdecode

/-! ### The exception return addresses, by mode -/

/-- The exception return address recorded for a mode. -/
def State.retAddr (s : State) : TrapTarget → Word
  | .m => s.mRetAddr
  | .s => s.sRetAddr
  | .vs => s.vsRetAddr

/-- Setting the return address of one mode sets that one alone (60_exceptions.md R226). -/
theorem State.retAddr_withRetAddr (s : State) (mode q : TrapTarget) (address : Word) :
    (s.withRetAddr mode address).retAddr q = if q = mode then address else s.retAddr q := by
  cases mode <;> cases q <;> rfl

/-- Only software of M-mode may have the return address of M-mode set (log 40). -/
theorem priv_of_recordReachable_m {s : State} (h : recordReachable s .m = true) : s.priv = .m := by
  simpa [recordReachable] using h

/-- Only software of M-mode or (H)S-mode may have the return address of (H)S-mode set (log 40). -/
theorem priv_of_recordReachable_s {s : State} (h : recordReachable s .s = true) : s.priv ≠ .u ∧ inVsMode s = false := by
  cases hp : s.priv <;> simp_all [recordReachable, inVsMode]

/-- Only software above U-mode may have the return address of VS-mode set (log 40). -/
theorem priv_of_recordReachable_vs {s : State} (h : recordReachable s .vs = true) : s.priv ≠ .u := by
  intro hu
  simp [recordReachable, hu] at h

/-! ### What changes no return address -/

/-- The parameters, memory and the three return addresses are the same in `s` and `t`. -/
structure SameReturnContext (s t : State) : Prop where
  params : t.params = s.params
  mem : t.mem = s.mem
  mRetAddr : t.mRetAddr = s.mRetAddr
  sRetAddr : t.sRetAddr = s.sRetAddr
  vsRetAddr : t.vsRetAddr = s.vsRetAddr

theorem SameReturnContext.retAddr {s t : State} (h : SameReturnContext s t) (mode : TrapTarget) : t.retAddr mode = s.retAddr mode := by
  cases mode with
  | m => exact h.mRetAddr
  | s => exact h.sRetAddr
  | vs => exact h.vsRetAddr

theorem SameReturnContext.trans {s t u : State} (hst : SameReturnContext s t) (htu : SameReturnContext t u) :
    SameReturnContext s u where
  params := htu.params.trans hst.params
  mem := htu.mem.trans hst.mem
  mRetAddr := htu.mRetAddr.trans hst.mRetAddr
  sRetAddr := htu.sRetAddr.trans hst.sRetAddr
  vsRetAddr := htu.vsRetAddr.trans hst.vsRetAddr

theorem sameReturnContext_pastBoundary (s : State) : SameReturnContext s s.pastBoundary := by
  constructor <;> simp

theorem sameReturnContext_of_drawnFrom {s t : State} (h : DrawnFrom s t) : SameReturnContext s t := by
  obtain rfl | rfl | rfl := h <;> constructor <;> simp

theorem sameReturnContext_csrExecute (op : CsrOp) (rd : RegNum) (name : CsrName) (source : CsrSource) (s : State) :
    SameReturnContext s (csrExecute op rd name source s) := by
  obtain ⟨u, regs, hu, -, ht⟩ := csrExecute_eq op rd name source s
  have hwritten : SameReturnContext s u := by
    rw [hu]
    split <;> constructor <;> simp
  rw [ht]
  exact hwritten.trans (by constructor <;> rfl)

theorem sameReturnContext_returnFromM (s : State) : SameReturnContext s (returnFromM s) := by
  constructor <;> simp

theorem sameReturnContext_returnFromS (newV : Bool) (s : State) : SameReturnContext s (returnFromS newV s) := by
  constructor <;> simp

theorem sameReturnContext_dropSretV (s : State) : SameReturnContext s s.dropSretV := by
  constructor <;> simp

theorem sameReturnContext_dropTrapInput (s : State) : SameReturnContext s s.dropTrapInput := by
  constructor <;> simp

/-- A `wfi` that goes on waiting or completes. -/
theorem sameReturnContext_of_wfi {s t : State}
    (h : t = { s.dropWfiDraw with wfiWaiting := true } ∨ t = { s.dropWfiDraw with wfiWaiting := false }.advance) :
    SameReturnContext s t := by
  obtain rfl | rfl := h <;> constructor <;> rfl

theorem sameReturnContext_fenceExecute (fence : Fence) (rs1 rs2 : RegNum) (s : State) :
    SameReturnContext s (fenceExecute fence rs1 rs2 s) := by
  constructor <;> rfl

theorem sameReturnContext_withCause (s : State) (mode : TrapTarget) (cause : Cause) : SameReturnContext s (s.withCause mode cause) := by
  constructor <;> simp

/-! ### What a trap changes -/

/-- `t` is in the given mode, at the handler of that mode in the configuration of `s` (60_exceptions.md R214 to R216). -/
def AtHandler (s t : State) : TrapTarget → Prop
  | .m => t.priv = .m ∧ t.pc = s.params.mVector
  | .s => t.priv = .s ∧ t.v = false ∧ t.pc = s.params.sVector
  | .vs => t.priv = .s ∧ t.v = true ∧ t.pc = s.params.vsVector

/-- From `s` to `t` the parameters and memory are kept, and a mode whose return address changed is the one whose handler `t` enters. -/
structure RetAddrsByTrap (s t : State) : Prop where
  params : t.params = s.params
  mem : t.mem = s.mem
  atHandler : ∀ mode, t.retAddr mode ≠ s.retAddr mode → AtHandler s t mode

theorem SameReturnContext.retAddrsByTrap {s t : State} (h : SameReturnContext s t) : RetAddrsByTrap s t where
  params := h.params
  mem := h.mem
  atHandler mode hne := absurd (h.retAddr mode) hne

theorem AtHandler.congr_params {s₀ s t : State} {mode : TrapTarget} (hp : s₀.params = s.params) (h : AtHandler s₀ t mode) :
    AtHandler s t mode := by
  cases mode <;> simpa only [AtHandler, hp] using h

theorem RetAddrsByTrap.of_sameReturnContext {s s₀ t : State} (hs : SameReturnContext s s₀) (h : RetAddrsByTrap s₀ t) :
    RetAddrsByTrap s t where
  params := h.params.trans hs.params
  mem := h.mem.trans hs.mem
  atHandler mode hne := (h.atHandler mode (by rwa [hs.retAddr mode])).congr_params hs.params

/-- A trap entry stores the return address of its target alone (60_exceptions.md R213). -/
theorem retAddr_trapEntryInto (target q : TrapTarget) (input : TrapInput) (cause : Cause) (s : State) :
    (trapEntryInto target input cause s).retAddr q = if q = target then input.retAddr else s.retAddr q := by
  cases target <;> cases q <;> rfl

/-- A trap entry changes the return address of its target alone, and enters the target's handler (60_exceptions.md R214 to R216). -/
theorem retAddrsByTrap_trapEntryInto (target : TrapTarget) (input : TrapInput) (cause : Cause) (s : State) :
    RetAddrsByTrap s (trapEntryInto target input cause s) where
  params := by cases target <;> rfl
  mem := by cases target <;> rfl
  atHandler mode hne := by
    by_cases hmode : mode = target
    · subst hmode
      cases mode <;> simp [AtHandler, trapEntryInto]
    · rw [retAddr_trapEntryInto, if_neg hmode] at hne
      exact absurd rfl hne

theorem retAddrsByTrap_takeTrap (cause : Cause) (s : State) : RetAddrsByTrap s (takeTrap cause s) :=
  (retAddrsByTrap_trapEntryInto _ _ cause _).of_sameReturnContext (sameReturnContext_dropTrapInput s)

theorem retAddrsByTrap_takeInterrupt (i : Interrupt) (s : State) : RetAddrsByTrap s (takeInterrupt i s) := by
  obtain ⟨-, ht⟩ | ⟨-, ht⟩ := takeInterrupt_cases i s
  · rw [ht]
    exact (retAddrsByTrap_trapEntryInto .m _ _ _).of_sameReturnContext (sameReturnContext_dropTrapInput s)
  · rw [ht]
    exact (retAddrsByTrap_trapEntryInto .s _ _ _).of_sameReturnContext (sameReturnContext_dropTrapInput s)

/-! ### What an instruction and a step change -/

theorem retAddrsByTrap_wfiStep (s : State) : RetAddrsByTrap s (wfiStep s) := by
  obtain ⟨-, ht⟩ | hwaits := wfiStep_cases s
  · rw [ht]
    exact (retAddrsByTrap_takeTrap _ _).of_sameReturnContext (sameReturnContext_of_drawnFrom (.inr (.inr rfl)))
  · exact (sameReturnContext_of_wfi hwaits).retAddrsByTrap

/-- No instruction stores to memory, and one changes a return address only by the trap it raises. -/
theorem retAddrsByTrap_exec {i : Instr} {s t : State} (h : exec i s = .next t) : RetAddrsByTrap s t := by
  cases exec_cases h with
  | trap s₀ hs ht =>
    rw [ht]
    exact (retAddrsByTrap_takeTrap _ s₀).of_sameReturnContext (sameReturnContext_of_drawnFrom hs)
  | csr op rd csr source name s₀ _ _ hs _ ht =>
    rw [ht]
    exact ((sameReturnContext_of_drawnFrom hs).trans (sameReturnContext_csrExecute op rd name source s₀)).retAddrsByTrap
  | mret _ _ ht =>
    rw [ht]
    exact (sameReturnContext_returnFromM s).retAddrsByTrap
  | sret _ _ _ _ ht =>
    obtain ⟨-, ht⟩ | ⟨-, ht⟩ := ht
    · rw [ht]
      exact ((sameReturnContext_dropSretV s).trans (sameReturnContext_returnFromS _ _)).retAddrsByTrap
    · rw [ht]
      exact (sameReturnContext_returnFromS false s).retAddrsByTrap
  | wfi _ ht => exact (sameReturnContext_of_wfi ht).retAddrsByTrap
  | fence fence _ _ r1 r2 _ _ ht =>
    rw [ht]
    exact (sameReturnContext_fenceExecute fence r1 r2 s).retAddrsByTrap

/-- At this boundary the environment set the return address of the mode to the one `t` holds, for software that may have it set; `pc`
and the mode stay (60_exceptions.md R226; log 7, log 40). -/
structure SetByEnvironment (s t : State) (mode : TrapTarget) : Prop where
  reachable : recordReachable s mode = true
  event : s.envEvents.head? = some (some (.setRetAddr mode (t.retAddr mode)))
  pc : t.pc = s.pc
  sameMode : SameMode s t

/-- Where the environment sets a return address, that of the mode it names is the only one that changes. -/
theorem setByEnvironment_of_event {s : State} {mode : TrapTarget} {address : Word} {rest : List (Option EnvEvent)}
    (hevents : s.envEvents = some (.setRetAddr mode address) :: rest) (hreach : recordReachable s mode = true) (q : TrapTarget)
    (hne : (s.pastBoundary.withRetAddr mode address).retAddr q ≠ s.retAddr q) :
    SetByEnvironment s (s.pastBoundary.withRetAddr mode address) q := by
  by_cases hq : q = mode
  · subst hq
    refine ⟨hreach, ?_, by simp, by simp [SameMode]⟩
    rw [State.retAddr_withRetAddr, if_pos rfl, hevents]
    rfl
  · rw [State.retAddr_withRetAddr, if_neg hq] at hne
    exact absurd ((sameReturnContext_pastBoundary s).retAddr q) hne

/-- From `s` to `t` the parameters and memory are kept, and every return address that changed did so by a trap into its mode or was set
by the environment. -/
structure RetAddrsAccounted (s t : State) : Prop where
  params : t.params = s.params
  mem : t.mem = s.mem
  cause : ∀ mode, t.retAddr mode ≠ s.retAddr mode → AtHandler s t mode ∨ SetByEnvironment s t mode

theorem RetAddrsByTrap.accounted {s t : State} (h : RetAddrsByTrap s.pastBoundary t) : RetAddrsAccounted s t := by
  have hs : RetAddrsByTrap s t := h.of_sameReturnContext (sameReturnContext_pastBoundary s)
  exact ⟨hs.params, hs.mem, fun mode hne => .inl (hs.atHandler mode hne)⟩

theorem retAddrsAccounted_of_event {event : EnvEvent} {rest : List (Option EnvEvent)} {s t : State}
    (hevents : s.envEvents = some event :: rest) (h : eventEffect event s.pastBoundary = some t) : RetAddrsAccounted s t := by
  obtain ⟨i, -, -, rfl⟩ | ⟨cause, rfl⟩ | ⟨mode, address, rfl, hreach, rfl⟩ | ⟨mode, cause, -, -, rfl⟩ := eventEffect_cases h
  · exact (retAddrsByTrap_takeInterrupt i _).accounted
  · exact (retAddrsByTrap_takeTrap cause _).accounted
  · exact ⟨by simp, by simp, fun q hne => .inr (setByEnvironment_of_event hevents hreach q hne)⟩
  · exact (sameReturnContext_withCause _ mode cause).retAddrsByTrap.accounted

/-- Every step keeps the parameters and memory and accounts for every return address it changes. -/
theorem retAddrsAccounted_step {s t : State} (h : step s = .next t) : RetAddrsAccounted s t := by
  obtain ⟨event, rest, hevents, heffect⟩ | ⟨-, -, rfl⟩ | ⟨-, -, ⟨cause, -, rfl⟩ | ⟨w, i, -, -, hexec⟩⟩ := step_cases h
  · exact retAddrsAccounted_of_event hevents heffect
  · exact (retAddrsByTrap_wfiStep _).accounted
  · exact (retAddrsByTrap_takeTrap cause _).accounted
  · exact (retAddrsByTrap_exec hexec).accounted

/-- Settles O60: `retAddrsAccounted_step` read off for each of the three modes. -/
theorem stepKeepsParametersAndMemory : Obligations.StepKeepsParametersAndMemory := by
  intro s t hstep
  obtain ⟨hparams, hmem, hcause⟩ := retAddrsAccounted_step hstep
  refine ⟨hparams, fun a => by rw [hmem], fun hm => ?_, fun hs => ?_, fun hvs => ?_⟩
  · refine (hcause .m hm).imp id fun hset => ?_
    exact ⟨priv_of_recordReachable_m hset.reachable, hset.event, hset.pc, hset.sameMode⟩
  · refine (hcause .s hs).imp id fun hset => ?_
    obtain ⟨hpriv, hnotVs⟩ := priv_of_recordReachable_s hset.reachable
    exact ⟨hpriv, hnotVs, hset.event, hset.pc, hset.sameMode⟩
  · refine (hcause .vs hvs).imp id fun hset => ?_
    exact ⟨priv_of_recordReachable_vs hset.reachable, hset.event, hset.pc, hset.sameMode⟩

end Sys2Proof.Machine
end

section
/-! What `mstatus` reads as (10_state.md R25, R28, R31): its value cut at the places R28 gives, and the obligation on it. -/

namespace Sys2Proof.Machine

/-! ### A value cut into fields -/

/-- A field of one bit says what that bit of the value is. -/
theorem getLsbD_of_extract_bit {n i : Nat} {r : BitVec n} {b : Bool} (h : r.extractLsb' i 1 = bit b) : r.getLsbD i = b := by
  have hbit := congrArg (·.getLsbD 0) h
  simpa [bit] using hbit

/-- A field that is 0 says that every bit of the value in its range is 0. -/
theorem getLsbD_of_extract_zero {n start len : Nat} {r : BitVec n} (h : r.extractLsb' start len = 0) {i : Nat} (hlow : start ≤ i)
    (hhigh : i < start + len) : r.getLsbD i = false := by
  have hlen : i - start < len := by omega
  have hbit := congrArg (·.getLsbD (i - start)) h
  simpa [hlen, Nat.add_sub_cancel' hlow] using hbit

/-! ### The computed and the encoded fields -/

/-- XS being 0, SD is decided by FS and VS alone (10_state.md R32, R51). -/
theorem sdBit_eq_true_iff (m : Mstatus) : sdBit m = true ↔ m.fs = 3#2 ∨ m.vs = 3#2 := by
  simp [sdBit, xsBits]

/-- No privilege level is encoded as 2, so no MPP reads as 2 (00_scope.md R17; 10_state.md R31). -/
theorem privBits_ne_two (p : Priv) : privBits p ≠ 2#2 := by
  cases p <;> decide

/-! ### The layout -/

/-- The places of R28 and the gaps of R25, from bit 63 down: at its place `r` holds each field of `m`, and 0 in the bits no field has. -/
structure MstatusLayout (r : Word) (m : Mstatus) : Prop where
  sd : r.extractLsb' 63 1 = bit (sdBit m)
  unnamed62to40 : r.extractLsb' 40 23 = 0
  mpv : r.extractLsb' 39 1 = bit m.mpv
  gva : r.extractLsb' 38 1 = bit m.gva
  mbe : r.extractLsb' 37 1 = bit mbeBit
  sbe : r.extractLsb' 36 1 = bit sbeBit
  sxl : r.extractLsb' 34 2 = widthBits m.sxl
  uxl : r.extractLsb' 32 2 = widthBits m.uxl
  unnamed31to23 : r.extractLsb' 23 9 = 0
  tsr : r.extractLsb' 22 1 = bit m.tsr
  tw : r.extractLsb' 21 1 = bit m.tw
  tvm : r.extractLsb' 20 1 = bit m.tvm
  mxr : r.extractLsb' 19 1 = bit m.mxr
  sum : r.extractLsb' 18 1 = bit m.sum
  mprv : r.extractLsb' 17 1 = bit m.mprv
  xs : r.extractLsb' 15 2 = xsBits
  fs : r.extractLsb' 13 2 = m.fs
  mpp : r.extractLsb' 11 2 = privBits m.mpp
  vs : r.extractLsb' 9 2 = m.vs
  spp : r.extractLsb' 8 1 = bit m.spp
  mpie : r.extractLsb' 7 1 = bit m.mpie
  ube : r.extractLsb' 6 1 = bit ubeBit
  spie : r.extractLsb' 5 1 = bit m.spie
  unnamed4 : r.extractLsb' 4 1 = 0
  mie : r.extractLsb' 3 1 = bit m.mie
  unnamed2 : r.extractLsb' 2 1 = 0
  sie : r.extractLsb' 1 1 = bit m.sie
  unnamed0 : r.extractLsb' 0 1 = 0

/-- Every cut at R28's places falls between two members of the concatenation that `readMstatus` is: the members below it are dropped one by
one, and then the one wanted is the lowest. -/
theorem readMstatus_layout (m : Mstatus) : MstatusLayout (readMstatus m) m := by
  constructor <;>
    simp (disch := omega) only [readMstatus, extract_append_high, extract_append_low, Nat.reduceSub, BitVec.extractLsb'_eq_self]

/-- The bits with no field, and those of the fields hardwired to 0, read as 0 (10_state.md R25, R37, R38, R51, R62). -/
theorem MstatusLayout.getLsbD_eq_false {r : Word} {m : Mstatus} (h : MstatusLayout r m) {i : Nat}
    (hi : (40 ≤ i ∧ i ≤ 62) ∨ i = 37 ∨ i = 36 ∨ (23 ≤ i ∧ i ≤ 31) ∨ i = 16 ∨ i = 15 ∨ i = 6 ∨ i = 4 ∨ i = 2 ∨ i = 0) :
    r.getLsbD i = false := by
  obtain ⟨hlow, hhigh⟩ | rfl | rfl | ⟨hlow, hhigh⟩ | rfl | rfl | rfl | rfl | rfl | rfl := hi
  · exact getLsbD_of_extract_zero h.unnamed62to40 hlow (by omega)
  · exact getLsbD_of_extract_bit h.mbe
  · exact getLsbD_of_extract_bit h.sbe
  · exact getLsbD_of_extract_zero h.unnamed31to23 hlow (by omega)
  · exact getLsbD_of_extract_zero h.xs (by omega) (by omega)
  · exact getLsbD_of_extract_zero h.xs (by omega) (by omega)
  · exact getLsbD_of_extract_bit h.ube
  · exact getLsbD_of_extract_bit h.unnamed4
  · exact getLsbD_of_extract_bit h.unnamed2
  · exact getLsbD_of_extract_bit h.unnamed0

/-- Settles O17: the layout read off row by row, with what SD computes and what MPP encodes. -/
theorem mstatusReadsFieldsAtTheirPlaces : Obligations.MstatusReadsFieldsAtTheirPlaces := by
  intro m r
  have h : MstatusLayout r m := readMstatus_layout m
  have hsd : r.getLsbD 63 = true ↔ m.fs = 3#2 ∨ m.vs = 3#2 := by
    rw [getLsbD_of_extract_bit h.sd, sdBit_eq_true_iff]
  have hmpp : r.extractLsb' 11 2 ≠ 2#2 := h.mpp ▸ privBits_ne_two m.mpp
  exact ⟨hsd, getLsbD_of_extract_bit h.mpv, getLsbD_of_extract_bit h.gva, h.sxl, h.uxl, getLsbD_of_extract_bit h.tsr,
    getLsbD_of_extract_bit h.tw, getLsbD_of_extract_bit h.tvm, getLsbD_of_extract_bit h.mxr, getLsbD_of_extract_bit h.sum,
    getLsbD_of_extract_bit h.mprv, h.fs, h.mpp, hmpp, h.vs, getLsbD_of_extract_bit h.spp, getLsbD_of_extract_bit h.mpie,
    getLsbD_of_extract_bit h.spie, getLsbD_of_extract_bit h.mie, getLsbD_of_extract_bit h.sie, fun _ => h.getLsbD_eq_false⟩

end Sys2Proof.Machine
end

section
/-! The obligations on memory as `mstatus` modifies it (20_memory.md): the checks of an access and the traps they take, the byte order of
fetches and of data, and the effective mode. -/

namespace Sys2Proof.Machine

/-! ### What an access reports -/

/-- The implementation's order, completed, holds every check (log 29). -/
theorem mem_completedOrder (order : List AccessCheck) (check : AccessCheck) : check ∈ order ++ allAccessChecks := by
  cases check <;> simp [allAccessChecks]

/-- What an access reports: nothing where no check fails, and otherwise the cause of one that fails, the implementation's order deciding
which (60_exceptions.md R212, D20). -/
theorem accessException_cases (s : State) (kind : AccessKind) (address : Word) (n : Nat) (page : Option Page) :
    ((∀ check, ¬checkFails s kind address n page check = true) ∧ accessException s kind address n page = none)
      ∨ ∃ check, checkFails s kind address n page check = true
          ∧ accessException s kind address n page = some (checkCause s kind check) := by
  unfold accessException
  cases hfind : (s.params.accessCheckOrder ++ allAccessChecks).find? (checkFails s kind address n page) with
  | none =>
    have hpass := List.find?_eq_none.mp hfind
    exact .inl ⟨fun check => hpass check (mem_completedOrder _ check), rfl⟩
  | some check => exact .inr ⟨check, List.find?_some hfind, rfl⟩

/-! ### When each check fails -/

/-- The access is misaligned and the implementation faults such accesses (20_memory.md R91, D10). -/
def Misaligned (s : State) (address : Word) (n : Nat) : Prop := s.params.misalignedAccess = .fault ∧ address.toNat % n ≠ 0

/-- The marks R, X and MXR permit a load from the page (20_memory.md R88). -/
def MarksPermit (s : State) (page : Page) : Prop := page.readable = true ∨ (s.mstatus.mxr = true ∧ page.executable = true)

/-- SUM forbids an access of the page (20_memory.md R89). -/
def SumForbids (s : State) (page : Page) : Prop := (effectiveMode s).2 = .s ∧ page.user = true ∧ s.mstatus.sum = false

/-- The exception a load that SUM forbids raises (20_memory.md R89, D18). -/
def sumCause (s : State) (kind : AccessKind) : Cause :=
  if s.params.sumViolation = .illegalInstruction then .illegalInstruction else .pageFault kind

theorem not_misaligned {s : State} {address : Word} {n : Nat}
    (h : s.params.misalignedAccess = .performed ∨ address.toNat % n = 0) : ¬Misaligned s address n := by
  rintro ⟨hfault, hodd⟩
  obtain hperformed | haligned := h
  · simp [hperformed] at hfault
  · exact hodd haligned

@[simp] theorem checkFails_alignment {s : State} {kind : AccessKind} {address : Word} {n : Nat} {page : Option Page} :
    checkFails s kind address n page .alignment = true ↔ Misaligned s address n := by
  simp [checkFails, Misaligned]

theorem loadPermitted_iff {s : State} {page : Page} : loadPermitted s.mstatus.mxr page = true ↔ MarksPermit s page := by
  cases hmxr : s.mstatus.mxr <;> simp [loadPermitted, MarksPermit, hmxr]

theorem sumViolated_iff {s : State} {page : Page} : sumViolated s page = true ↔ SumForbids s page := by
  simp [sumViolated, SumForbids, and_assoc]

@[simp] theorem checkFails_sum_load {s : State} {address : Word} {n : Nat} {page : Page} :
    checkFails s .load address n (some page) .sum = true ↔ SumForbids s page := by
  simp [checkFails, sumViolated_iff]

@[simp] theorem checkFails_mxr_load {s : State} {address : Word} {n : Nat} {page : Page} :
    checkFails s .load address n (some page) .mxr = true ↔ ¬MarksPermit s page := by
  simp [checkFails, ← loadPermitted_iff]

@[simp] theorem checkFails_sum_store {s : State} {address : Word} {n : Nat} {page : Page} :
    checkFails s .store address n (some page) .sum = true ↔ SumForbids s page ∧ s.params.sumViolation = .pageFault := by
  simp [checkFails, sumViolated_iff]

@[simp] theorem checkFails_mxr_store {s : State} {address : Word} {n : Nat} {page : Page} :
    checkFails s .store address n (some page) .mxr = false := rfl

@[simp] theorem checkFails_sum_noPage {s : State} {kind : AccessKind} {address : Word} {n : Nat} :
    checkFails s kind address n none .sum = false := rfl

@[simp] theorem checkFails_mxr_noPage {s : State} {kind : AccessKind} {address : Word} {n : Nat} :
    checkFails s kind address n none .mxr = false := rfl

theorem checkCause_sum (s : State) (kind : AccessKind) : checkCause s kind .sum = sumCause s kind := by
  cases h : s.params.sumViolation <;> simp [checkCause, sumCause, h]

theorem sumCause_of_pageFault {s : State} (h : s.params.sumViolation = .pageFault) (kind : AccessKind) :
    sumCause s kind = .pageFault kind := by
  simp [sumCause, h]

/-! ### What a load and a store report -/

/-- A load passes every check, or reports one that fails: alignment, the rule of SUM, or the marks (20_memory.md R88, R89, R91). -/
theorem accessException_load_cases (s : State) (address : Word) (n : Nat) (page : Page) :
    (¬Misaligned s address n ∧ MarksPermit s page ∧ ¬SumForbids s page ∧ accessException s .load address n (some page) = none)
      ∨ (Misaligned s address n ∧ accessException s .load address n (some page) = some (.environment (.misaligned .load)))
      ∨ (SumForbids s page ∧ accessException s .load address n (some page) = some (sumCause s .load))
      ∨ (¬MarksPermit s page ∧ accessException s .load address n (some page) = some (.pageFault .load)) := by
  obtain ⟨hpass, hnone⟩ | ⟨check, hfails, hsome⟩ := accessException_cases s .load address n (some page)
  · exact .inl ⟨by simpa using hpass .alignment, by simpa using hpass .mxr, by simpa using hpass .sum, hnone⟩
  · cases check with
    | alignment => exact .inr (.inl ⟨checkFails_alignment.mp hfails, hsome⟩)
    | sum => exact .inr (.inr (.inl ⟨checkFails_sum_load.mp hfails, checkCause_sum s .load ▸ hsome⟩))
    | mxr => exact .inr (.inr (.inr ⟨checkFails_mxr_load.mp hfails, hsome⟩))

/-- A store passes every check, or reports alignment, or the rule of SUM where that is a page fault (20_memory.md R89, R91; log 28). -/
theorem accessException_store_cases (s : State) (address : Word) (n : Nat) (page : Page) :
    (¬Misaligned s address n ∧ ¬(SumForbids s page ∧ s.params.sumViolation = .pageFault)
        ∧ accessException s .store address n (some page) = none)
      ∨ (Misaligned s address n ∧ accessException s .store address n (some page) = some (.environment (.misaligned .store)))
      ∨ (SumForbids s page ∧ s.params.sumViolation = .pageFault
          ∧ accessException s .store address n (some page) = some (.pageFault .store)) := by
  obtain ⟨hpass, hnone⟩ | ⟨check, hfails, hsome⟩ := accessException_cases s .store address n (some page)
  · exact .inl ⟨checkFails_alignment.not.mp (hpass .alignment), checkFails_sum_store.not.mp (hpass .sum), hnone⟩
  · cases check with
    | alignment => exact .inr (.inl ⟨checkFails_alignment.mp hfails, hsome⟩)
    | sum =>
      obtain ⟨hforbids, hviolation⟩ := checkFails_sum_store.mp hfails
      rw [checkCause_sum, sumCause_of_pageFault hviolation] at hsome
      exact .inr (.inr ⟨hforbids, hviolation, hsome⟩)
    | mxr => simp at hfails

/-- With no translation an access reports alignment alone (20_memory.md R90). -/
theorem accessException_noPage_cases (s : State) (kind : AccessKind) (address : Word) (n : Nat) :
    (¬Misaligned s address n ∧ accessException s kind address n none = none)
      ∨ (Misaligned s address n ∧ accessException s kind address n none = some (.environment (.misaligned kind))) := by
  obtain ⟨hpass, hnone⟩ | ⟨check, hfails, hsome⟩ := accessException_cases s kind address n none
  · exact .inl ⟨checkFails_alignment.not.mp (hpass .alignment), hnone⟩
  · cases check with
    | alignment => exact .inr ⟨checkFails_alignment.mp hfails, hsome⟩
    | sum => simp at hfails
    | mxr => simp at hfails

/-! ### The traps of a fetch, a load and a store -/

theorem fetch_of_misaligned {s : State} (hfault : s.params.misalignedAccess = .fault) (hodd : s.pc.toNat % 4 ≠ 0) :
    fetch s = .raised (.environment (.misaligned .fetch)) := by
  simp [fetch, fetchMisaligned, hfault, hodd]

theorem loadStep_of_exception {s : State} {address : Word} {n : Nat} {page : Option Page} {cause : Cause}
    (h : accessException s .load address n page = some cause) (use : Nat → State → State) :
    loadStep use address n page s = .next (takeTrap cause s) := by
  simp [loadStep, memRead, h, accessOutcome, raise]

theorem storeStep_of_exception {s : State} {address : Word} {n : Nat} {page : Option Page} {cause : Cause}
    (h : accessException s .store address n page = some cause) (value : Nat) :
    storeStep value address n page s = .next (takeTrap cause s) := by
  simp [storeStep, memWrite, h, accessOutcome, raise]

/-- Settles O53: what each kind of access can report, in the cases of an access that is not misaligned and of one that is. -/
theorem accessesObeyMxrSumAndAlignment : Obligations.AccessesObeyMxrSumAndAlignment := by
  intro s address n page permitted forbidden causeOfSum load store
  have hload : (¬Misaligned s address n ∧ permitted ∧ ¬forbidden ∧ load = none)
      ∨ (Misaligned s address n ∧ load = some (.environment (.misaligned .load)))
      ∨ (forbidden ∧ load = some (causeOfSum .load)) ∨ (¬permitted ∧ load = some (.pageFault .load)) :=
    accessException_load_cases s address n page
  have hstore : (¬Misaligned s address n ∧ ¬(forbidden ∧ s.params.sumViolation = .pageFault) ∧ store = none)
      ∨ (Misaligned s address n ∧ store = some (.environment (.misaligned .store)))
      ∨ (forbidden ∧ s.params.sumViolation = .pageFault ∧ store = some (.pageFault .store)) :=
    accessException_store_cases s address n page
  -- Each clause about a page is what its hypotheses leave of `hload` or of `hstore`.
  refine ⟨fun haligned => ?_, fun hfault hodd => ?_, fetch_of_misaligned,
    fun use _ h => loadStep_of_exception h use, fun value _ h => storeStep_of_exception h value⟩
  · have hmis : ¬Misaligned s address n := not_misaligned haligned
    have hnoPage (kind : AccessKind) : accessException s kind address n none = none :=
      ((accessException_noPage_cases s kind address n).resolve_right fun ⟨h, _⟩ => hmis h).2
    exact ⟨by grind, by grind, by grind, by grind, by grind, by grind, hnoPage⟩
  · have hmis : Misaligned s address n := ⟨hfault, hodd⟩
    have hnoPage (kind : AccessKind) : accessException s kind address n none = some (.environment (.misaligned kind)) :=
      ((accessException_noPage_cases s kind address n).resolve_left fun ⟨h, _⟩ => h hmis).2
    exact ⟨hnoPage, by grind, by grind, by grind, by grind⟩

/-! ### The byte order of a fetch -/

/-- A read of bytes answers the byte at the address before the bytes from the next address up (20_memory.md R84). -/
theorem readBytes_succ {m : Memory} {a : Word} {n : Nat} {b : Byte} {bytes : List Byte} (hbyte : readByte m a.toNat = some b)
    (hrest : readBytes m (a + 1) n = .ok bytes) : readBytes m a (n + 1) = .ok (b :: bytes) := by
  simp only [readBytes, hbyte, hrest]

/-- Four bytes that have values are read in the order of their addresses. -/
theorem readBytes_four {m : Memory} {a : Word} {b0 b1 b2 b3 : Byte} (h0 : readByte m a.toNat = some b0)
    (h1 : readByte m (a + 1).toNat = some b1) (h2 : readByte m (a + 2).toNat = some b2) (h3 : readByte m (a + 3).toNat = some b3) :
    readBytes m a 4 = .ok [b0, b1, b2, b3] := by
  have htwo : a + 1 + 1 = a + 2 := BitVec.add_assoc a 1 1
  have hthree : a + 2 + 1 = a + 3 := BitVec.add_assoc a 2 1
  rw [← hthree, ← htwo] at h3
  rw [← htwo] at h2
  exact readBytes_succ h0 (readBytes_succ h1 (readBytes_succ h2 (readBytes_succ h3 rfl)))

/-- Settles O8: neither the alignment of the fetch nor the bytes it reads depend on `mstatus`, and their word is b3 b2 b1 b0. -/
theorem fetchIsLittleEndian : Obligations.FetchIsLittleEndian := by
  intro s b0 b1 b2 b3 haligned h0 h1 h2 h3 m
  have hbytes : readBytes s.mem s.pc 4 = .ok [b0, b1, b2, b3] := readBytes_four h0 h1 h2 h3
  exact fetch_of_readBytes (s := { s with mstatus := m }) haligned hbytes

/-! ### The byte order of data -/

/-- MBE, SBE and UBE, hardwired, read as 0 (10_state.md R37, R38, R62). -/
theorem readMstatus_endianBits (m : Mstatus) :
    (readMstatus m).getLsbD 37 = false ∧ (readMstatus m).getLsbD 36 = false ∧ (readMstatus m).getLsbD 6 = false :=
  have h := readMstatus_layout m
  ⟨h.getLsbD_eq_false (by simp), h.getLsbD_eq_false (by simp), h.getLsbD_eq_false (by simp)⟩

/-- Settles O19: the access executes, the three bits are hardwired in every `mstatus`, and data is little-endian in every state. -/
theorem byteOrderCannotBeSwitched : Obligations.ByteOrderCannotBeSwitched := by
  intro s op rd source hm
  have hexec : exec (csrInstr op rd 0x300#12 source) s = .next (csrExecute op rd .mstatus source s) := by
    rw [exec_csrInstr, csrAccess_mstatus_of_m hm]
  obtain ⟨hmbe, hsbe, hube⟩ := readMstatus_endianBits (csrExecute op rd .mstatus source s).mstatus
  exact ⟨_, hexec, hmbe, hsbe, hube, fun bytes => by rw [inDataOrder_eq, inDataOrder_eq]⟩

/-! ### The effective mode -/

theorem effectiveMode_of_mprv_clear {s : State} (h : s.mstatus.mprv = false) : effectiveMode s = (s.v, s.priv) := by
  simp [effectiveMode, h]

theorem effectiveMode_of_mprv_set {s : State} (h : s.mstatus.mprv = true) :
    effectiveMode s = (if s.mstatus.mpp = .m then false else s.mstatus.mpv, s.mstatus.mpp) := by
  simp [effectiveMode, h]

/-- Settles O52: MPRV selects between the current mode and the recorded one, and the fetch has no such choice. -/
theorem loadsAndStoresUseTheEffectiveMode : Obligations.LoadsAndStoresUseTheEffectiveMode := by
  intro s
  refine ⟨effectiveMode_of_mprv_clear, fun hset hm => ?_, fun hset hbelow => ?_, rfl⟩
  · rw [effectiveMode_of_mprv_set hset, if_pos hm, hm]
  · rw [effectiveMode_of_mprv_set hset, if_neg hbelow]

end Sys2Proof.Machine
end

section
/-! The obligations on the encoding (30_encoding.md): the decoder and the encoder are inverse to each other, and a word decodes to an
instruction exactly when it matches the instruction's row of the opcode table. -/

namespace Sys2Proof

/-! ### A word and its fields -/

/-- The CSR field is `funct7` above `rs2` (30_encoding.md R101, R103). -/
theorem fieldCsr_eq_append (w : InsnWord) : fieldCsr w = fieldFunct7 w ++ fieldRs2 w := by
  unfold fieldCsr fieldFunct7 fieldRs2
  rw [BitVec.extractLsb'_append_extractLsb'_eq_extractLsb' (by rfl)]

/-- The fields of format CSR-R, side by side, are the word (30_encoding.md R101). -/
theorem word_eq_fields (w : InsnWord) : fieldCsr w ++ fieldRs1 w ++ fieldFunct3 w ++ fieldRd w ++ fieldOpcode w = w := by
  unfold fieldCsr fieldRs1 fieldFunct3 fieldRd fieldOpcode
  iterate 4 rw [BitVec.extractLsb'_append_extractLsb'_eq_extractLsb' (by rfl)]
  exact BitVec.extractLsb'_eq_self

theorem encodeCsr_fields {w : InsnWord} (hop : fieldOpcode w = systemOpcode) :
    encodeCsr (fieldFunct3 w) (fieldRd w) (fieldCsr w) (fieldRs1 w) = w := by
  rw [encodeCsr, ← hop, word_eq_fields]

theorem encodeSys_fields {w : InsnWord} (hop : fieldOpcode w = systemOpcode) (hf3 : fieldFunct3 w = 0) (hrd : fieldRd w = 0) :
    encodeSys (fieldFunct7 w) (fieldRs2 w) (fieldRs1 w) = w := by
  rw [encodeSys_eq, ← fieldCsr_eq_append, ← hf3, ← hrd, encodeCsr_fields hop]

/-! ### Decoding an encoded instruction -/

/-- A word of format CSR-R or CSR-I with `funct3` not 000 goes to the decoder of CSR access instructions (30_encoding.md R108). -/
theorem decode_encodeCsr {f3 : BitVec 3} (hf3 : f3 ≠ 0) (rd src : BitVec 5) (csr : CsrNum) :
    decode (encodeCsr f3 rd csr src) = decodeCsr (encodeCsr f3 rd csr src) := by
  unfold decode
  rw [fieldOpcode_encodeCsr, fieldFunct3_encodeCsr, if_neg (not_not.mpr rfl), if_pos hf3]

/-- A word of format SYS-R goes to the decoder of returns, wait and fences (30_encoding.md R108). -/
theorem decode_encodeSys (f7 : BitVec 7) (rs2 rs1 : BitVec 5) :
    decode (encodeSys f7 rs2 rs1) = decodeSys (encodeSys f7 rs2 rs1) := by
  simp [decode]

/-- Settles O1: each instruction's format leads to its decoder, which reads back `funct3` or `funct7` and the operands. -/
theorem decodeInvertsEncode : Obligations.DecodeInvertsEncode := by
  intro i
  cases i with
  | csrrw | csrrs | csrrc | csrrwi | csrrsi | csrrci =>
    rw [encode, decode_encodeCsr (by decide)]
    simp [decodeCsr]
  | sret | mret | wfi | sfenceVma | sinvalVma | sfenceWInval | sfenceInvalIr | hfenceVvma | hfenceGvma | hinvalGvma =>
    rw [encode, decode_encodeSys]
    simp [decodeSys]

/-! ### Encoding a decoded word -/

/-- The decoder of CSR access instructions keeps `funct3` in the instruction and the other fields as operands. -/
theorem encode_of_decodeCsr {w : InsnWord} {i : Instr} (h : decodeCsr w = .ok i) :
    encode i = encodeCsr (fieldFunct3 w) (fieldRd w) (fieldCsr w) (fieldRs1 w) := by
  unfold decodeCsr at h
  split_ifs at h <;> cases h
  all_goals simp [encode, *]

/-- The decoder of returns, wait and fences accepts `rd` 00000 alone, and keeps `funct7`, `rs2` and `rs1` in the instruction. -/
theorem encode_of_decodeSys {w : InsnWord} {i : Instr} (h : decodeSys w = .ok i) :
    fieldRd w = 0 ∧ encode i = encodeSys (fieldFunct7 w) (fieldRs2 w) (fieldRs1 w) := by
  unfold decodeSys at h
  dsimp only at h
  by_cases hrd : fieldRd w = 0
  · refine ⟨hrd, ?_⟩
    rw [if_neg (not_not.mpr hrd)] at h
    split_ifs at h <;> cases h
    all_goals simp [encode, *]
  · rw [if_pos hrd] at h
    cases h

/-- Settles O2: the word has the major opcode, and its fields, all of them kept, make it up again. -/
theorem encodeInvertsDecode : Obligations.EncodeInvertsDecode := by
  intro w i h
  unfold decode at h
  split_ifs at h with hop hf3
  · rw [encode_of_decodeCsr h, encodeCsr_fields (not_not.mp hop)]
  · obtain ⟨hrd, hi⟩ := encode_of_decodeSys h
    rw [hi, encodeSys_fields (not_not.mp hop) (not_not.mp hf3) hrd]

/-- The decoder is the inverse of the encoder: it answers an instruction for the words of instructions alone. -/
theorem decode_eq_ok_iff {w : InsnWord} {i : Instr} : decode w = .ok i ↔ encode i = w :=
  ⟨encodeInvertsDecode w i, fun h => h ▸ decodeInvertsEncode i⟩

/-! ### The rows of the opcode table -/

/-- Two values laid out in a row are the same exactly when each is. -/
theorem append_eq_append_iff {n m : Nat} {a c : BitVec n} {b d : BitVec m} : a ++ b = c ++ d ↔ a = c ∧ b = d := by
  refine ⟨fun h => ⟨?_, ?_⟩, fun ⟨hac, hbd⟩ => hac ▸ hbd ▸ rfl⟩
  · simpa [extract_append_high, BitVec.extractLsb'_eq_self] using congrArg (·.extractLsb' m n) h
  · simpa [extract_append_low, BitVec.extractLsb'_eq_self] using congrArg (·.extractLsb' 0 m) h

/-- The mask of the rows of 30_encoding.md R105 keeps `funct3` and the opcode. -/
theorem and_csrMask_eq_iff {w : InsnWord} {f3 : BitVec 3} :
    w &&& 0x0000707F#32 = encodeCsr f3 0 0 0 ↔ ∃ rd csr src, encodeCsr f3 rd csr src = w := by
  have hmask : 0x0000707F#32 = (0 : BitVec 12) ++ (0 : BitVec 5) ++ BitVec.allOnes 3 ++ (0 : BitVec 5) ++ BitVec.allOnes 7 := by
    decide
  have hfields : w &&& 0x0000707F#32 = encodeCsr f3 0 0 0 ↔ fieldFunct3 w = f3 ∧ fieldOpcode w = systemOpcode := by
    conv_lhs => rw [← word_eq_fields w, hmask]
    rw [encodeCsr]
    iterate 4 rw [BitVec.and_append, append_eq_append_iff]
    simp [-BitVec.reduceAllOnes]
  rw [hfields]
  constructor
  · rintro ⟨rfl, hop⟩
    exact ⟨_, _, _, encodeCsr_fields hop⟩
  · rintro ⟨rd, csr, src, rfl⟩
    simp

/-- The mask of the rows of 30_encoding.md R106 with register operands keeps all but `rs2` and `rs1`. -/
theorem and_sysMask_eq_iff {w : InsnWord} {f7 : BitVec 7} :
    w &&& 0xFE007FFF#32 = encodeSys f7 0 0 ↔ ∃ rs2 rs1, encodeSys f7 rs2 rs1 = w := by
  have hmask : 0xFE007FFF#32 = BitVec.allOnes 7 ++ (0 : BitVec 5) ++ (0 : BitVec 5) ++ BitVec.allOnes 3 ++ BitVec.allOnes 5
      ++ BitVec.allOnes 7 := by
    decide
  have hfields : w &&& 0xFE007FFF#32 = encodeSys f7 0 0
      ↔ fieldFunct7 w = f7 ∧ fieldFunct3 w = 0 ∧ fieldRd w = 0 ∧ fieldOpcode w = systemOpcode := by
    conv_lhs => rw [← word_eq_fields w, fieldCsr_eq_append, hmask]
    rw [encodeSys]
    iterate 5 rw [BitVec.and_append, append_eq_append_iff]
    simp [-BitVec.reduceAllOnes, and_assoc]
  rw [hfields]
  constructor
  · rintro ⟨rfl, hf3, hrd, hop⟩
    exact ⟨_, _, encodeSys_fields hop hf3 hrd⟩
  · rintro ⟨rs2, rs1, rfl⟩
    simp

/-- The mask of the rows of 30_encoding.md R106 without operands keeps every bit. -/
theorem and_fullMask (w : InsnWord) : w &&& 0xFFFFFFFF#32 = w := BitVec.and_allOnes

/-- The word of an instruction matches a row of its mnemonic. -/
theorem exists_row_of_instr (i : Instr) : ∃ row ∈ opcodeRows, row.1 = i.mnemonic ∧ encode i &&& row.2.2 = row.2.1 := by
  have hcsr (f3 : BitVec 3) (rd : RegNum) (csr : CsrNum) (src : BitVec 5) :
      encodeCsr f3 rd csr src &&& 0x0000707F#32 = encodeCsr f3 0 0 0 := and_csrMask_eq_iff.mpr ⟨rd, csr, src, rfl⟩
  have hsys (f7 : BitVec 7) (rs2 rs1 : BitVec 5) :
      encodeSys f7 rs2 rs1 &&& 0xFE007FFF#32 = encodeSys f7 0 0 := and_sysMask_eq_iff.mpr ⟨rs2, rs1, rfl⟩
  cases i with
  | csrrw rd csr src => exact ⟨("csrrw", 0x00001073, 0x0000707F), by simp [opcodeRows], rfl, hcsr _ rd csr src⟩
  | csrrs rd csr src => exact ⟨("csrrs", 0x00002073, 0x0000707F), by simp [opcodeRows], rfl, hcsr _ rd csr src⟩
  | csrrc rd csr src => exact ⟨("csrrc", 0x00003073, 0x0000707F), by simp [opcodeRows], rfl, hcsr _ rd csr src⟩
  | csrrwi rd csr src => exact ⟨("csrrwi", 0x00005073, 0x0000707F), by simp [opcodeRows], rfl, hcsr _ rd csr src⟩
  | csrrsi rd csr src => exact ⟨("csrrsi", 0x00006073, 0x0000707F), by simp [opcodeRows], rfl, hcsr _ rd csr src⟩
  | csrrci rd csr src => exact ⟨("csrrci", 0x00007073, 0x0000707F), by simp [opcodeRows], rfl, hcsr _ rd csr src⟩
  | sret => exact ⟨("sret", 0x10200073, 0xFFFFFFFF), by simp [opcodeRows], rfl, rfl⟩
  | mret => exact ⟨("mret", 0x30200073, 0xFFFFFFFF), by simp [opcodeRows], rfl, rfl⟩
  | wfi => exact ⟨("wfi", 0x10500073, 0xFFFFFFFF), by simp [opcodeRows], rfl, rfl⟩
  | sfenceVma rs1 rs2 => exact ⟨("sfence.vma", 0x12000073, 0xFE007FFF), by simp [opcodeRows], rfl, hsys _ rs2 rs1⟩
  | sinvalVma rs1 rs2 => exact ⟨("sinval.vma", 0x16000073, 0xFE007FFF), by simp [opcodeRows], rfl, hsys _ rs2 rs1⟩
  | sfenceWInval => exact ⟨("sfence.w.inval", 0x18000073, 0xFFFFFFFF), by simp [opcodeRows], rfl, rfl⟩
  | sfenceInvalIr => exact ⟨("sfence.inval.ir", 0x18100073, 0xFFFFFFFF), by simp [opcodeRows], rfl, rfl⟩
  | hfenceVvma rs1 rs2 => exact ⟨("hfence.vvma", 0x22000073, 0xFE007FFF), by simp [opcodeRows], rfl, hsys _ rs2 rs1⟩
  | hfenceGvma rs1 rs2 => exact ⟨("hfence.gvma", 0x62000073, 0xFE007FFF), by simp [opcodeRows], rfl, hsys _ rs2 rs1⟩
  | hinvalGvma rs1 rs2 => exact ⟨("hinval.gvma", 0x66000073, 0xFE007FFF), by simp [opcodeRows], rfl, hsys _ rs2 rs1⟩

/-- A word that matches the row of a CSR access instruction is the word of one. -/
theorem exists_instr_of_csrRow {w : InsnWord} {name : String} {f3 : BitVec 3} {make : RegNum → CsrNum → BitVec 5 → Instr}
    (hmake : ∀ rd csr src, encode (make rd csr src) = encodeCsr f3 rd csr src ∧ (make rd csr src).mnemonic = name)
    (hw : w &&& 0x0000707F#32 = encodeCsr f3 0 0 0) : ∃ i, encode i = w ∧ i.mnemonic = name := by
  obtain ⟨rd, csr, src, rfl⟩ := and_csrMask_eq_iff.mp hw
  exact ⟨make rd csr src, hmake rd csr src⟩

/-- A word that matches the row of a fence with register operands is the word of one. -/
theorem exists_instr_of_sysRow {w : InsnWord} {name : String} {f7 : BitVec 7} {make : RegNum → RegNum → Instr}
    (hmake : ∀ rs2 rs1, encode (make rs2 rs1) = encodeSys f7 rs2 rs1 ∧ (make rs2 rs1).mnemonic = name)
    (hw : w &&& 0xFE007FFF#32 = encodeSys f7 0 0) : ∃ i, encode i = w ∧ i.mnemonic = name := by
  obtain ⟨rs2, rs1, rfl⟩ := and_sysMask_eq_iff.mp hw
  exact ⟨make rs2 rs1, hmake rs2 rs1⟩

/-- A word that matches a row is the word of an instruction of the row's mnemonic. -/
theorem exists_instr_of_row {w : InsnWord} {row : String × InsnWord × InsnWord} (hrow : row ∈ opcodeRows)
    (hw : w &&& row.2.2 = row.2.1) : ∃ i, encode i = w ∧ i.mnemonic = row.1 := by
  simp only [opcodeRows, List.mem_cons, List.not_mem_nil, or_false] at hrow
  obtain rfl | rfl | rfl | rfl | rfl | rfl | rfl | rfl | rfl | rfl | rfl | rfl | rfl | rfl | rfl | rfl := hrow
  · exact exists_instr_of_csrRow (make := .csrrw) (fun _ _ _ => ⟨rfl, rfl⟩) hw
  · exact exists_instr_of_csrRow (make := .csrrs) (fun _ _ _ => ⟨rfl, rfl⟩) hw
  · exact exists_instr_of_csrRow (make := .csrrc) (fun _ _ _ => ⟨rfl, rfl⟩) hw
  · exact exists_instr_of_csrRow (make := .csrrwi) (fun _ _ _ => ⟨rfl, rfl⟩) hw
  · exact exists_instr_of_csrRow (make := .csrrsi) (fun _ _ _ => ⟨rfl, rfl⟩) hw
  · exact exists_instr_of_csrRow (make := .csrrci) (fun _ _ _ => ⟨rfl, rfl⟩) hw
  · exact ⟨.sret, ((and_fullMask w).symm.trans hw).symm, rfl⟩
  · exact ⟨.mret, ((and_fullMask w).symm.trans hw).symm, rfl⟩
  · exact ⟨.wfi, ((and_fullMask w).symm.trans hw).symm, rfl⟩
  · exact exists_instr_of_sysRow (make := fun rs2 rs1 => .sfenceVma rs1 rs2) (fun _ _ => ⟨rfl, rfl⟩) hw
  · exact exists_instr_of_sysRow (make := fun rs2 rs1 => .sinvalVma rs1 rs2) (fun _ _ => ⟨rfl, rfl⟩) hw
  · exact ⟨.sfenceWInval, ((and_fullMask w).symm.trans hw).symm, rfl⟩
  · exact ⟨.sfenceInvalIr, ((and_fullMask w).symm.trans hw).symm, rfl⟩
  · exact exists_instr_of_sysRow (make := fun rs2 rs1 => .hfenceVvma rs1 rs2) (fun _ _ => ⟨rfl, rfl⟩) hw
  · exact exists_instr_of_sysRow (make := fun rs2 rs1 => .hfenceGvma rs1 rs2) (fun _ _ => ⟨rfl, rfl⟩) hw
  · exact exists_instr_of_sysRow (make := fun rs2 rs1 => .hinvalGvma rs1 rs2) (fun _ _ => ⟨rfl, rfl⟩) hw

/-- Settles O3: the words that decode to an instruction are those of the instructions, and these are the words the rows match. -/
theorem decodeAgreesWithOpcodeTable : Obligations.DecodeAgreesWithOpcodeTable := by
  intro w name
  simp only [decode_eq_ok_iff]
  constructor
  · rintro ⟨i, rfl, rfl⟩
    exact exists_row_of_instr i
  · rintro ⟨row, hrow, rfl, hw⟩
    exact exists_instr_of_row hrow hw

end Sys2Proof

namespace Sys2Proof.Machine

/-- A word that no row of the opcode table matches decodes to no instruction (30_encoding.md R113). -/
theorem decode_of_noRow {w : InsnWord} (h : ∀ row ∈ opcodeRows, w &&& row.2.2 ≠ row.2.1) : ∃ why, decode w = .error why := by
  cases hd : decode w with
  | error why => exact ⟨why, rfl⟩
  | ok i =>
    obtain ⟨row, hrow, -, hw⟩ := (decodeAgreesWithOpcodeTable w i.mnemonic).mp ⟨i, hd, rfl⟩
    exact absurd hw (h row hrow)

theorem runInstruction_of_decode_error {s : State} {w : InsnWord} {why : DecodeRefusal} (hfetch : fetch s = .word w)
    (hdecode : decode w = .error why) : runInstruction s = .refused (.outsideSpec why) := by
  simp [runInstruction, hfetch, hdecode]

/-- Settles O6: the step is past the boundary, the fetch there reads the same bytes, and the decoder refuses their word. -/
theorem stepRefusesWordsOfNoRow : Obligations.StepRefusesWordsOfNoRow := by
  intro s b0 b1 b2 b3 hquiet hwfi haligned hbytes hrows
  have hfetch : fetch s.pastBoundary = .word (wordOfBytes b0 b1 b2 b3) :=
    fetch_of_readBytes (s := s.pastBoundary) haligned hbytes
  obtain ⟨why, hdecode⟩ := decode_of_noRow hrows
  refine ⟨why, ?_⟩
  rw [step_of_quietBoundary hquiet hwfi, runInstruction_of_decode_error hfetch hdecode]

end Sys2Proof.Machine
end

section
/-! The obligation on the immediate forms (40_csr_access.md R136 to R138): a written value that agrees with what `mstatus` reads as above the
immediate's reach writes every field back as held, but for MIE and SIE. -/

namespace Sys2Proof.Machine

/-! ### Writing a field back -/

@[simp] theorem privOfBits_privBits (p : Priv) : privOfBits (privBits p) = some p := by
  cases p <;> rfl

@[simp] theorem widthOfBits_widthBits (w : Width) : widthOfBits (widthBits w) = some w := by
  cases w <;> rfl

/-- A width written back as held is the one presented, whatever the field's type. -/
@[simp] theorem presentedWidth_held (type : AccessType) (held : Width) : presentedWidth type (widthBits held) held = some held := by
  simp [presentedWidth]

/-- A written MPP that is an implemented level is stored (40_csr_access.md R127). -/
theorem swWriteMpp_of_legal {s : State} {value : Word} {p : Priv} (hwritten : value.extractLsb' 11 2 = privBits p)
    (hlegal : p ∈ mppLegal s.params) : swWriteMpp s value = p := by
  simp [swWriteMpp, hwritten, hlegal]

/-- A legal pair written back to SXL and UXL is stored (40_csr_access.md R128). -/
theorem swWriteXl_of_held {s : State} {value : Word} (hsxl : value.extractLsb' 34 2 = widthBits s.mstatus.sxl)
    (huxl : value.extractLsb' 32 2 = widthBits s.mstatus.uxl) (hlegal : xlLegal s.params s.mstatus.sxl s.mstatus.uxl = true) :
    swWriteXl s value = (s.mstatus.sxl, s.mstatus.uxl) := by
  simp only [xlLegal, Bool.and_eq_true, decide_eq_true_eq] at hlegal
  obtain ⟨⟨⟨hsupS, hsupU⟩, hle⟩, -⟩ := hlegal
  simp [swWriteXl, hsxl, huxl, hsupS, hsupU, hle]

/-- A TVM written back as held stays (40_csr_access.md R130). -/
theorem swWriteTvm_of_held {s : State} {value : Word} (h : value.getLsbD 20 = s.mstatus.tvm) : swWriteTvm s value = s.mstatus.tvm := by
  unfold swWriteTvm
  split
  · exact h
  · rfl

/-- A legal FS or VS written back as held stays (40_csr_access.md R131, R132). -/
theorem swWriteContext_of_held {kind : ContextKind} {held : BitVec 2} (hlegal : held ∈ contextLegal kind) (index : Nat) :
    swWriteContext kind held held index = held := by
  cases kind with
  | rwH | roZero | roSingle => rfl
  | rw legal => exact if_pos hlegal

/-- In a legal state every field of `mstatus` holds a member of its legal set (10_state.md R30). -/
theorem State.legal_mstatus {s : State} (h : s.legal = true) :
    s.mstatus.mpp ∈ mppLegal s.params ∧ xlLegal s.params s.mstatus.sxl s.mstatus.uxl = true
      ∧ s.mstatus.fs ∈ contextLegal (fsKind s) ∧ s.mstatus.vs ∈ contextLegal (vsKind s) := by
  simp only [State.legal, mstatusLegal, Bool.and_eq_true, decide_eq_true_eq] at h
  obtain ⟨⟨⟨⟨⟨-, ⟨⟨⟨hmpp, hxl⟩, -⟩, hfs⟩, hvs⟩, -⟩, -⟩, -⟩, -⟩ := h
  exact ⟨hmpp, hxl, hfs, hvs⟩

/-! ### The bits a 5-bit immediate cannot reach -/

/-- The two values have the same bits from bit 5 up, where a zero-extended immediate has none (30_encoding.md R104). -/
def SameAboveImmediate (value r : Word) : Prop := ∀ i, 5 ≤ i → value.getLsbD i = r.getLsbD i

theorem getLsbD_imm_high (uimm : BitVec 5) {i : Nat} (h : 5 ≤ i) : (uimm.setWidth 64).getLsbD i = false := by
  simp [BitVec.getLsbD_setWidth, BitVec.getLsbD_of_ge uimm i h]

theorem sameAboveImmediate_or (r : Word) (uimm : BitVec 5) : SameAboveImmediate (r ||| uimm.setWidth 64) r := fun i hi => by
  rw [BitVec.getLsbD_or, getLsbD_imm_high uimm hi, Bool.or_false]

theorem sameAboveImmediate_andNot (r : Word) (uimm : BitVec 5) : SameAboveImmediate (r &&& ~~~(uimm.setWidth 64)) r := fun i hi => by
  have hbelow : r.getLsbD i = true → i < 64 := BitVec.lt_of_getLsbD
  rw [BitVec.getLsbD_and, BitVec.getLsbD_not, getLsbD_imm_high uimm hi]
  cases hr : r.getLsbD i <;> simp_all

theorem SameAboveImmediate.extract {value r : Word} (h : SameAboveImmediate value r) {start : Nat} (hstart : 5 ≤ start) (len : Nat) :
    value.extractLsb' start len = r.extractLsb' start len := by
  apply BitVec.eq_of_getLsbD_eq
  intro i _
  rw [BitVec.getLsbD_extractLsb', BitVec.getLsbD_extractLsb', h _ (by omega)]

/-- Writing what `mstatus` reads as, but for the low five bits, writes every field back as held, but for MIE and SIE. -/
theorem writeMstatus_of_sameAboveImmediate {s : State} {value : Word} (hlegal : s.legal = true)
    (h : SameAboveImmediate value (readMstatus s.mstatus)) :
    writeMstatus s value = { s.mstatus with mie := value.getLsbD 3, sie := value.getLsbD 1 } := by
  have hr := readMstatus_layout s.mstatus
  obtain ⟨hmpp, hxl, hfs, hvs⟩ := State.legal_mstatus hlegal
  have hfield {start len : Nat} {x : BitVec len} (hx : (readMstatus s.mstatus).extractLsb' start len = x) (hstart : 5 ≤ start) :
      value.extractLsb' start len = x := (h.extract hstart len).trans hx
  have hbit {i : Nat} {b : Bool} (hb : (readMstatus s.mstatus).extractLsb' i 1 = bit b) (hi : 5 ≤ i) : value.getLsbD i = b :=
    getLsbD_of_extract_bit (hfield hb hi)
  have hfsKept : swWriteFs s value = s.mstatus.fs := by
    rw [swWriteFs, hfield hr.fs (by decide), swWriteContext_of_held hfs]
  have hvsKept : swWriteVs s value = s.mstatus.vs := by
    rw [swWriteVs, hfield hr.vs (by decide), swWriteContext_of_held hvs]
  rw [writeMstatus, swWriteXl_of_held (hfield hr.sxl (by decide)) (hfield hr.uxl (by decide)) hxl,
    swWriteTvm_of_held (hbit hr.tvm (by decide)), swWriteMpp_of_legal (hfield hr.mpp (by decide)) hmpp, hfsKept, hvsKept, swWriteSpp,
    hbit hr.mpv (by decide), hbit hr.gva (by decide), hbit hr.tsr (by decide), hbit hr.tw (by decide), hbit hr.mxr (by decide),
    hbit hr.sum (by decide), hbit hr.mprv (by decide), hbit hr.spp (by decide), hbit hr.mpie (by decide), hbit hr.spie (by decide)]

/-- The bits a write stores from a zero-extended immediate alone (40_csr_access.md R136; 30_encoding.md R104). -/
theorem writeMstatus_imm (s : State) (uimm : BitVec 5) :
    let n := writeMstatus s (uimm.setWidth 64)
    n.mie = uimm.getLsbD 3 ∧ n.sie = uimm.getLsbD 1 ∧ n.mpv = false ∧ n.gva = false ∧ n.tsr = false ∧ n.tw = false
      ∧ n.mxr = false ∧ n.sum = false ∧ n.mprv = false ∧ n.spp = false ∧ n.mpie = false ∧ n.spie = false := by
  have hlow (i : Nat) (hi : i < 64) : (uimm.setWidth 64).getLsbD i = uimm.getLsbD i := by
    simp [hi]
  have hhigh (i : Nat) (hi : 5 ≤ i) : (uimm.setWidth 64).getLsbD i = false := getLsbD_imm_high uimm hi
  exact ⟨hlow 3 (by decide), hlow 1 (by decide), hhigh 39 (by decide), hhigh 38 (by decide), hhigh 22 (by decide),
    hhigh 21 (by decide), hhigh 19 (by decide), hhigh 18 (by decide), hhigh 17 (by decide), hhigh 8 (by decide),
    hhigh 7 (by decide), hhigh 5 (by decide)⟩

/-- Settles O16: the set and clear forms present the value read, changed below bit 5 alone. -/
theorem immediateFormsReachOnlyMieAndSie : Obligations.ImmediateFormsReachOnlyMieAndSie := by
  intro s uimm hlegal
  exact ⟨⟨_, _, writeMstatus_of_sameAboveImmediate hlegal (sameAboveImmediate_or _ uimm)⟩,
    ⟨_, _, writeMstatus_of_sameAboveImmediate hlegal (sameAboveImmediate_andNot _ uimm)⟩, writeMstatus_imm s uimm⟩

end Sys2Proof.Machine
end

section
/-! The obligation on the accesses of the CSRs beside `mstatus` (30_encoding.md R107; 10_state.md R73): where the checks let one execute,
what it writes and what it leaves. -/

namespace Sys2Proof.Machine

/-! ### What a CSR access writes -/

/-- The state after the write of a CSR access instruction, if it makes one, and before `rd` and `pc` (40_csr_access.md R133 to R138). -/
def csrWritten (op : CsrOp) (name : CsrName) (source : CsrSource) (s : State) : State :=
  if performsWrite op source then csrWrite s name (presentedValue op (csrRead s name) (sourceValue s source)) else s

/-- An access that executes is its write, with general registers of its own and `pc` advanced. -/
theorem csrExecute_eq_csrWritten (op : CsrOp) (rd : RegNum) (name : CsrName) (source : CsrSource) (s : State) :
    ∃ regs, csrExecute op rd name source s
      = { csrWritten op name source s with regs := regs, pc := (csrWritten op name source s).pc + 4 } := by
  obtain ⟨u, regs, hu, -, ht⟩ := csrExecute_eq op rd name source s
  exact ⟨regs, by rw [ht, hu]; rfl⟩

theorem csrWritten_of_noWrite {op : CsrOp} {source : CsrSource} (h : performsWrite op source = false) (name : CsrName) (s : State) :
    csrWritten op name source s = s := by
  simp [csrWritten, h]

theorem csrWritten_of_write {op : CsrOp} {source : CsrSource} (h : performsWrite op source = true) (name : CsrName) (s : State) :
    csrWritten op name source s = csrWrite s name (presentedValue op (csrRead s name) (sourceValue s source)) := by
  simp [csrWritten, h]

/-- What holds where nothing is written and after every write holds of what an access writes. -/
theorem csrWritten_induction {motive : State → Prop} {name : CsrName} {s : State} (keep : motive s)
    (write : ∀ value, motive (csrWrite s name value)) (op : CsrOp) (source : CsrSource) : motive (csrWritten op name source s) := by
  unfold csrWritten
  split
  · exact write _
  · exact keep

/-! ### What a write of another CSR leaves -/

/-- A write of a CSR leaves what every other one reads as, but for `mstatus`, and for `vsstatus` under a write of `fcsr` with `V = 1`
(log 13, log 16). -/
theorem csrRead_csrWrite_other {s : State} {name other : CsrName} (value : Word) (hne : other ≠ name) (hmstatus : other ≠ .mstatus)
    (hvsstatus : other = .vsstatus → name = .fcsr → s.v = false) : csrRead (csrWrite s name value) other = csrRead s other := by
  cases other with
  | mstatus => exact absurd rfl hmstatus
  | vsstatus =>
    cases name with
    | vsstatus => exact absurd rfl hne
    | fcsr => simp [csrRead, csrWrite, writeFcsr, hvsstatus rfl rfl]
    | _ => rfl
  | _ => cases name <;> simp_all [csrRead, csrWrite, writeMisa, writeFcsr]

/-- Only a write of `mstatus` itself, of `misa` or of `fcsr` changes `mstatus`. -/
theorem csrWrite_mstatus_other {s : State} {name : CsrName} (value : Word) (hmstatus : name ≠ .mstatus) (hmisa : name ≠ .misa)
    (hfcsr : name ≠ .fcsr) : (csrWrite s name value).mstatus = s.mstatus := by
  cases name with
  | mstatus => exact absurd rfl hmstatus
  | misa => exact absurd rfl hmisa
  | fcsr => exact absurd rfl hfcsr
  | _ => rfl

/-! ### A write of misa -/

/-- A field whose type a write of `misa` changed holds what the new type asks for (10_state.md R26, D9; log 15). -/
theorem settledField_settledContext (kind : ContextKind) (held : BitVec 2) (index : Nat) :
    SettledField kind held (settledContext kind held index) := by
  cases kind with
  | rwH | roZero | roSingle => simp [SettledField, settledContext]
  | rw legal =>
    refine ⟨by simp, by simp, by simp, ?_⟩
    rintro _ ⟨rfl⟩
    by_cases hheld : held ∈ legal
    · simp [settledContext, hheld]
    · simpa [settledContext, hheld] using pick_mem legal index held

theorem tvmType_eq_rw_iff {s : State} : tvmType s = .rw ↔ misaS s = true := by
  simp [tvmType]

/-- What the types of TVM, FS and VS in `t` ask of them when a write of `misa` led there from `s`; the other fields of `mstatus` stay. -/
structure SettledAfterMisa (s t : State) : Prop where
  tvmKept : misaS t = true → t.mstatus.tvm = s.mstatus.tvm
  tvmZero : misaS t = false → t.mstatus.tvm = false
  fs : SettledField (fsKind t) s.mstatus.fs t.mstatus.fs
  vs : SettledField (vsKind t) s.mstatus.vs t.mstatus.vs
  rest : { t.mstatus with tvm := s.mstatus.tvm, fs := s.mstatus.fs, vs := s.mstatus.vs } = s.mstatus

/-- The types depend on the parameters and on `misa` alone, so settling `mstatus` does not change them again. -/
theorem settledAfterMisa_settledMstatus (s : State) : SettledAfterMisa s { s with mstatus := settledMstatus s } where
  tvmKept h := if_pos (tvmType_eq_rw_iff.mpr h)
  tvmZero h := if_neg fun htype => ne_true_of_eq_false h (tvmType_eq_rw_iff.mp htype)
  fs := settledField_settledContext _ _ _
  vs := settledField_settledContext _ _ _
  rest := rfl

/-- A write of `misa` settles `mstatus` at once. -/
theorem settledAfterMisa_csrWrite (s : State) (value : Word) : SettledAfterMisa s (csrWrite s .misa value) :=
  have h := settledAfterMisa_settledMstatus { s with misa := Config.misaKeeps s.misa value }
  ⟨h.tvmKept, h.tvmZero, h.fs, h.vs, h.rest⟩

/-! ### The access executes -/

/-- An access that no check stops executes (40_csr_access.md R121; 42_wfi_tvm_fences.md R177 to R179; 43_fp_vector_status.md R191). -/
theorem csrAccess_of_checks {s : State} {csr : CsrNum} {name : CsrName} (op : CsrOp) (rd : RegNum) (source : CsrSource)
    (hname : csrOfNumber csr = some name) (hmisa : name = .misa → s.params.misaImplemented = true)
    (haccess : csrAccessible s csr = true)
    (htvm : tvmGuarded name = true → tvmTrap s = false ∧ (inVsMode s = false ∨ s.hstatus.vtvm = false))
    (hfcsr : name = .fcsr → s.params.fcsrIsFp = true → fpDisabled s = false) :
    csrAccess op rd csr source s = .next (csrExecute op rd name source s) := by
  have hpresent : ¬(name = .misa ∧ s.params.misaImplemented = false) := by
    rintro ⟨hn, habsent⟩
    simp [hmisa hn] at habsent
  have hnoTvm : ¬(tvmGuarded name = true ∧ tvmTrap s = true) := by
    rintro ⟨hguarded, htrap⟩
    simp [(htvm hguarded).1] at htrap
  have hnoVtvm : ¬(tvmGuarded name = true ∧ inVsMode s = true ∧ s.hstatus.vtvm = true) := by
    rintro ⟨hguarded, hvs, hvtvm⟩
    simpa [hvs, hvtvm] using (htvm hguarded).2
  have henabled : fcsrDisabled s name = false := by
    by_contra hdisabled
    simp only [fcsrDisabled, Bool.not_eq_false, Bool.and_eq_true, beq_iff_eq] at hdisabled
    obtain ⟨⟨hn, hclass⟩, hoff⟩ := hdisabled
    simp [hfcsr hn hclass] at hoff
  unfold csrAccess
  simp only [hname]
  rw [if_neg hpresent, if_neg (by simp [haccess]), if_neg hnoTvm, if_neg hnoVtvm, if_neg (by simp [henabled])]

/-- `rd` gets what the CSR read as before the access (40_csr_access.md R133 to R138). -/
theorem registerResult_csrExecute (op : CsrOp) (rd : RegNum) (name : CsrName) (source : CsrSource) (s : State) :
    RegisterResult s (csrExecute op rd name source s) rd (csrRead s name) := by
  intro r
  have hregs : (csrWritten op name source s).regs = s.regs :=
    csrWritten_induction (motive := fun u => u.regs = s.regs) rfl (by simp) op source
  calc (csrExecute op rd name source s).readReg r
      = ((csrWritten op name source s).writeReg rd (csrRead s name)).readReg r := rfl
    _ = if r = rd ∧ r ≠ 0 then csrRead s name else (csrWritten op name source s).readReg r := readReg_writeReg _ _ _ _
    _ = if r = rd ∧ r ≠ 0 then csrRead s name else s.readReg r := by rw [State.readReg_congr hregs]

/-- What no CSR access that executes changes, whatever it writes; and `pc` advances. -/
structure CsrAccessFrame (s t : State) : Prop where
  pc : t.pc = s.pc + 4
  mode : SameMode s t
  mem : t.mem = s.mem
  trapRecord : SameTrapRecord s t
  translation : t.translation = s.translation
  wfiWaiting : t.wfiWaiting = s.wfiWaiting
  params : t.params = s.params

theorem csrAccessFrame_csrExecute (op : CsrOp) (rd : RegNum) (name : CsrName) (source : CsrSource) (s : State) :
    CsrAccessFrame s (csrExecute op rd name source s) := by
  obtain ⟨regs, ht⟩ := csrExecute_eq_csrWritten op rd name source s
  rw [ht]
  refine csrWritten_induction (motive := fun u => CsrAccessFrame s { u with regs := regs, pc := u.pc + 4 }) ?_ ?_ op source
  · exact ⟨rfl, ⟨rfl, rfl⟩, rfl, ⟨rfl, rfl, rfl, rfl, rfl, rfl⟩, rfl, rfl, rfl⟩
  · intro value
    constructor <;> simp [SameMode, SameTrapRecord]

/-- An access leaves what every other CSR reads as, with the two exceptions of `csrRead_csrWrite_other`. -/
theorem csrRead_csrExecute_other {s : State} {name other : CsrName} (op : CsrOp) (rd : RegNum) (source : CsrSource)
    (hne : other ≠ name) (hmstatus : other ≠ .mstatus) (hvsstatus : other = .vsstatus → name = .fcsr → s.v = false) :
    csrRead (csrExecute op rd name source s) other = csrRead s other := by
  obtain ⟨regs, ht⟩ := csrExecute_eq_csrWritten op rd name source s
  have hexecute : csrRead (csrExecute op rd name source s) other = csrRead (csrWritten op name source s) other := by
    rw [ht]
    cases other <;> rfl
  have hwritten : csrRead (csrWritten op name source s) other = csrRead s other :=
    csrWritten_induction (motive := fun u => csrRead u other = csrRead s other) rfl
      (fun value => csrRead_csrWrite_other value hne hmstatus hvsstatus) op source
  exact hexecute.trans hwritten

/-- An access of a CSR whose write does not touch `mstatus` leaves it. -/
theorem csrExecute_mstatus_other {s : State} {name : CsrName} (op : CsrOp) (rd : RegNum) (source : CsrSource)
    (hmstatus : name ≠ .mstatus) (hmisa : name ≠ .misa) (hfcsr : name ≠ .fcsr) :
    (csrExecute op rd name source s).mstatus = s.mstatus := by
  obtain ⟨regs, ht⟩ := csrExecute_eq_csrWritten op rd name source s
  rw [ht]
  exact csrWritten_induction (motive := fun u => u.mstatus = s.mstatus) rfl
    (fun value => csrWrite_mstatus_other value hmstatus hmisa hfcsr) op source

/-- An access of `misa` that writes settles `mstatus`. -/
theorem settledAfterMisa_csrExecute {op : CsrOp} {source : CsrSource} (hwrite : performsWrite op source = true) (rd : RegNum)
    (s : State) : SettledAfterMisa s (csrExecute op rd .misa source s) := by
  obtain ⟨regs, ht⟩ := csrExecute_eq_csrWritten op rd .misa source s
  have h : SettledAfterMisa s (csrWritten op .misa source s) := by
    rw [csrWritten_of_write hwrite]
    exact settledAfterMisa_csrWrite s _
  rw [ht]
  exact ⟨h.tvmKept, h.tvmZero, h.fs, h.vs, h.rest⟩

/-- An access that writes nothing changes `rd` and `pc` alone. -/
theorem csrExecute_of_noWrite {op : CsrOp} {source : CsrSource} (h : performsWrite op source = false) (rd : RegNum) (name : CsrName)
    (s : State) : { csrExecute op rd name source s with regs := s.regs, pc := s.pc } = s := by
  obtain ⟨regs, ht⟩ := csrExecute_eq_csrWritten op rd name source s
  rw [ht, csrWritten_of_noWrite h]

/-- Settles O24: no check stops the access, and what it leaves is what its write leaves, `rd` and `pc` aside. -/
theorem otherCsrAccessExecutes : Obligations.OtherCsrAccessExecutes := by
  intro s op rd csr source name hname hmstatus hmisa haccess htvm hfcsr
  have hexec : exec (csrInstr op rd csr source) s = .next (csrExecute op rd name source s) := by
    rw [exec_csrInstr, csrAccess_of_checks op rd source hname hmisa haccess htvm hfcsr]
  obtain ⟨hpc, hmode, hmem, hrecord, htranslation, hwfi, hparams⟩ := csrAccessFrame_csrExecute op rd name source s
  refine ⟨_, hexec, registerResult_csrExecute op rd name source s, hpc, hmode, fun a => by rw [hmem], hrecord, htranslation, hwfi,
    hparams, fun other => csrRead_csrExecute_other op rd source, csrExecute_mstatus_other op rd source hmstatus, ?_,
    fun hnone => csrExecute_of_noWrite hnone rd name s⟩
  rintro rfl hwrite
  obtain ⟨hkept, hzero, hfs, hvs, hrest⟩ := settledAfterMisa_csrExecute hwrite rd s
  exact ⟨hkept, hzero, hfs, hvs, hrest⟩

end Sys2Proof.Machine
end

section
/-! The obligations on the accesses of `mstatus` (40_csr_access.md R121, R133 to R138): in M-mode an access is its write and its frame,
below M-mode it is a trap. -/

namespace Sys2Proof.Machine

/-! ### An access in M-mode -/

/-- An access of `mstatus` from M-mode executes: `rd` gets the value read, `mstatus` is what the access writes, and the frame keeps the
rest. -/
theorem mstatusAccess_csrInstr {s : State} (h : s.priv = .m) (op : CsrOp) (rd : RegNum) (source : CsrSource) :
    MstatusAccess s (csrInstr op rd 0x300#12 source) rd (csrWritten op .mstatus source s).mstatus := by
  have hexec : exec (csrInstr op rd 0x300#12 source) s = .next (csrExecute op rd .mstatus source s) := by
    rw [exec_csrInstr, csrAccess_mstatus_of_m h]
  have hframe := csrAccessFrame_csrExecute op rd .mstatus source s
  have hresult := registerResult_csrExecute op rd .mstatus source s
  obtain ⟨regs, ht⟩ := csrExecute_eq_csrWritten op rd .mstatus source s
  have hmstatus : (csrExecute op rd .mstatus source s).mstatus = (csrWritten op .mstatus source s).mstatus := by rw [ht]
  have hrest : { csrExecute op rd .mstatus source s with mstatus := s.mstatus, regs := s.regs, pc := s.pc } = s := by
    rw [ht]
    exact csrWritten_induction (motive := fun u => { u with mstatus := s.mstatus, regs := s.regs, pc := s.pc } = s) rfl
      (fun _ => rfl) op source
  exact ⟨_, hexec, hmstatus, hresult, hframe.pc, fun a => by rw [hframe.mem], hrest⟩

/-! ### What an access writes to mstatus -/

/-- The write form presents its source, whatever it is (40_csr_access.md R133, R136). -/
theorem csrWritten_write_mstatus (s : State) (source : CsrSource) :
    (csrWritten .write .mstatus source s).mstatus = writeMstatus s (sourceValue s source) := by
  rw [csrWritten_of_write rfl]
  rfl

/-- The set and clear forms present the value read with the source's bits set or cleared, and write nothing when the source FIELD is 0
(40_csr_access.md R134, R135, R137, R138). -/
theorem csrWritten_modify_mstatus {op : CsrOp} (hop : op ≠ .write) (s : State) (source : CsrSource) :
    (csrWritten op .mstatus source s).mstatus
      = if sourceField source = 0 then s.mstatus
        else writeMstatus s (presentedValue op (readMstatus s.mstatus) (sourceValue s source)) := by
  by_cases hfield : sourceField source = 0
  · rw [if_pos hfield, csrWritten_of_noWrite (by simp [performsWrite, hop, hfield])]
  · rw [if_neg hfield, csrWritten_of_write (by simpa [performsWrite] using .inr hfield)]
    rfl

theorem mstatusAccess_write {s : State} (h : s.priv = .m) (rd : RegNum) (source : CsrSource) :
    MstatusAccess s (csrInstr .write rd 0x300#12 source) rd (writeMstatus s (sourceValue s source)) :=
  csrWritten_write_mstatus s source ▸ mstatusAccess_csrInstr h .write rd source

theorem mstatusAccess_modify {s : State} (h : s.priv = .m) {op : CsrOp} (hop : op ≠ .write) (rd : RegNum) (source : CsrSource) :
    MstatusAccess s (csrInstr op rd 0x300#12 source) rd
      (if sourceField source = 0 then s.mstatus
        else writeMstatus s (presentedValue op (readMstatus s.mstatus) (sourceValue s source))) :=
  csrWritten_modify_mstatus hop s source ▸ mstatusAccess_csrInstr h op rd source

/-- Settles O12: the write form, from a register and from an immediate. -/
theorem csrrwWritesMstatus : Obligations.CsrrwWritesMstatus := by
  intro s rd rs1 uimm h
  exact ⟨mstatusAccess_write h rd (.reg rs1), mstatusAccess_write h rd (.imm uimm)⟩

/-- Settles O13: the set form, from a register and from an immediate. -/
theorem csrrsSetsMstatusBits : Obligations.CsrrsSetsMstatusBits := by
  intro s rd rs1 uimm h
  have hop : CsrOp.set ≠ .write := by decide
  exact ⟨mstatusAccess_modify h hop rd (.reg rs1), mstatusAccess_modify h hop rd (.imm uimm)⟩

/-- Settles O14: the clear form, from a register and from an immediate. -/
theorem csrrcClearsMstatusBits : Obligations.CsrrcClearsMstatusBits := by
  intro s rd rs1 uimm h
  have hop : CsrOp.clear ≠ .write := by decide
  exact ⟨mstatusAccess_modify h hop rd (.reg rs1), mstatusAccess_modify h hop rd (.imm uimm)⟩

/-! ### An access below M-mode -/

/-- No trap entry writes a general register (60_exceptions.md R214 to R216). -/
@[simp] theorem takeTrap_regs (cause : Cause) (s : State) : (takeTrap cause s).regs = s.regs := by
  obtain ht | ⟨-, -, ht⟩ | ⟨-, -, -, -, ht⟩ := takeTrap_cases cause s <;> rw [ht] <;> simp

/-- Settles O15: the privilege check fails before anything is read or written, and the trap keeps the general registers. -/
theorem mstatusAccessBelowMachineModeTraps : Obligations.MstatusAccessBelowMachineModeTraps := by
  intro s op rd source h
  exact ⟨by rw [exec_csrInstr, csrAccess_mstatus_below_m h], takeTrap_regs .illegalInstruction s⟩

end Sys2Proof.Machine
end

section
/-! The obligations on what a software write of `mstatus` stores (40_csr_access.md R124, R127 to R132): the bits stored as written, MPP, the
pair of SXL and UXL, TVM, FS and VS. -/

namespace Sys2Proof.Machine

/-! ### The plain bits -/

/-- Settles O18: each of the twelve is read back at its own place in the layout, where the write put it. -/
theorem softwareWriteStoresPlainBits : Obligations.SoftwareWriteStoresPlainBits := by
  intro s value i hi
  have h := readMstatus_layout (writeMstatus s value)
  simp only [List.mem_cons, List.not_mem_nil, or_false] at hi
  obtain rfl | rfl | rfl | rfl | rfl | rfl | rfl | rfl | rfl | rfl | rfl | rfl := hi
  · exact getLsbD_of_extract_bit h.mpv
  · exact getLsbD_of_extract_bit h.gva
  · exact getLsbD_of_extract_bit h.tsr
  · exact getLsbD_of_extract_bit h.tw
  · exact getLsbD_of_extract_bit h.mxr
  · exact getLsbD_of_extract_bit h.sum
  · exact getLsbD_of_extract_bit h.mprv
  · exact getLsbD_of_extract_bit h.spp
  · exact getLsbD_of_extract_bit h.mpie
  · exact getLsbD_of_extract_bit h.spie
  · exact getLsbD_of_extract_bit h.mie
  · exact getLsbD_of_extract_bit h.sie

/-! ### MPP -/

/-- The implemented levels: M always, S and U where the configuration has them (10_state.md R30, D29). -/
theorem mem_mppLegal {params : Params} {p : Priv} :
    p ∈ mppLegal params ↔ p = .m ∨ (p = .s ∧ params.extS = true) ∨ (p = .u ∧ params.extU = true) := by
  cases p <;> simp [mppLegal]

/-- Written or picked, what MPP stores is an implemented level (40_csr_access.md R127). -/
theorem swWriteMpp_mem (s : State) (value : Word) : swWriteMpp s value ∈ mppLegal s.params := by
  have hpicked (index : Nat) : pick (mppLegal s.params) index .m ∈ mppLegal s.params :=
    pick_mem _ index _ (List.ne_nil_of_mem (mem_mppLegal.mpr (.inl rfl)))
  unfold swWriteMpp
  split
  · split
    · assumption
    · exact hpicked _
  · exact hpicked _

@[simp] theorem State.architectural_params (s : State) : s.architectural.params = s.params := rfl

/-- What MPP stores depends on the state of the hart and the value alone, not on the scripts of inputs (00_scope.md R16). -/
theorem swWriteMpp_congr {s s' : State} (h : s'.architectural = s.architectural) (value : Word) :
    swWriteMpp s' value = swWriteMpp s value := by
  have hparams : s'.params = s.params := by rw [← State.architectural_params, h, State.architectural_params]
  rw [swWriteMpp, swWriteMpp, hparams, h]

/-- Settles O21: a written level that is implemented is stored, and any other value picks one by the hart's state. -/
theorem mppWriteStoresAnImplementedLevel : Obligations.MppWriteStoresAnImplementedLevel := by
  intro s s' value written mpp
  have hstored {p : Priv} (hwritten : written = privBits p) (hlegal : p ∈ mppLegal s.params) : mpp = p :=
    swWriteMpp_of_legal hwritten hlegal
  exact ⟨fun h => hstored h (mem_mppLegal.mpr (.inl rfl)),
    fun h hS => hstored h (mem_mppLegal.mpr (.inr (.inl ⟨rfl, hS⟩))),
    fun h hU => hstored h (mem_mppLegal.mpr (.inr (.inr ⟨rfl, hU⟩))),
    mem_mppLegal.mp (swWriteMpp_mem s value), fun h => swWriteMpp_congr h value⟩

/-! ### The widths a field may take -/

/-- What SXL and UXL have in common: an RW field may take every supported width, an RO one the width it holds. -/
def widthChoices (type : AccessType) (supported : List Width) (held : Width) : List Width :=
  if type = .rw then supported else [held]

theorem sxlChoices_eq (p : Params) (old : Mstatus) : sxlChoices p old = widthChoices (sxlType p) p.sxlen old.sxl := rfl

theorem uxlChoices_eq (p : Params) (old : Mstatus) : uxlChoices p old = widthChoices (uxlType p) p.uxlen old.uxl := rfl

section
variable {type : AccessType} {supported : List Width} {held w : Width}

theorem held_mem_widthChoices (h : held ∈ supported) : held ∈ widthChoices type supported held := by
  unfold widthChoices
  split
  · exact h
  · exact List.mem_singleton_self held

/-- Beside a supported width held, every choice is supported. -/
theorem mem_supported_of_mem_widthChoices (hheld : held ∈ supported) (h : w ∈ widthChoices type supported held) : w ∈ supported := by
  unfold widthChoices at h
  split at h
  · exact h
  · rwa [List.mem_singleton.mp h]

/-- A field that is not RW can only keep its width. -/
theorem eq_held_of_mem_widthChoices (htype : type ≠ .rw) (h : w ∈ widthChoices type supported held) : w = held := by
  rw [widthChoices, if_neg htype] at h
  exact List.mem_singleton.mp h

/-- A supported width a field presents is one of its choices. -/
theorem mem_widthChoices_of_presented {written : BitVec 2} (hpresented : presentedWidth type written held = some w)
    (h : w ∈ supported) : w ∈ widthChoices type supported held := by
  unfold presentedWidth at hpresented
  unfold widthChoices
  split at hpresented
  · rwa [if_pos ‹_›]
  · cases hpresented
    exact if_neg ‹type ≠ .rw› ▸ List.mem_singleton_self held

theorem presentedWidth_of_rw {written : BitVec 2} (htype : type = .rw) (hwritten : written = widthBits w) :
    presentedWidth type written held = some w := by
  rw [presentedWidth, if_pos htype, hwritten, widthOfBits_widthBits]

theorem presentedWidth_of_ro (htype : type = .ro) (written : BitVec 2) : presentedWidth type written held = some held := by
  simp [presentedWidth, htype]

end

/-! ### SXL and UXL -/

theorem mem_xlPairs {p : Params} {old : Mstatus} {sx ux : Width} :
    (sx, ux) ∈ xlPairs p old ↔ sx ∈ sxlChoices p old ∧ ux ∈ uxlChoices p old ∧ ux.le sx = true := by
  simp [xlPairs]

theorem xlLegal_iff {p : Params} {sx ux : Width} :
    xlLegal p sx ux = true
      ↔ sx ∈ p.sxlen ∧ ux ∈ p.uxlen ∧ ux.le sx = true ∧ (sxlType p ≠ .rw → sx = Width.largest p.sxlen) := by
  simp [xlLegal, and_assoc, Decidable.or_iff_not_imp_left]

/-- From a legal pair held, every pair the write may choose is legal: an RO SXL keeps its hardwired width (10_state.md R39, R41). -/
theorem xlLegal_of_mem_xlPairs {p : Params} {old : Mstatus} {sx ux : Width} (hold : xlLegal p old.sxl old.uxl = true)
    (h : (sx, ux) ∈ xlPairs p old) : xlLegal p sx ux = true := by
  obtain ⟨hheldS, hheldU, -, hhardwired⟩ := xlLegal_iff.mp hold
  obtain ⟨hsx, hux, hle⟩ := mem_xlPairs.mp h
  rw [sxlChoices_eq] at hsx
  rw [uxlChoices_eq] at hux
  exact xlLegal_iff.mpr ⟨mem_supported_of_mem_widthChoices hheldS hsx, mem_supported_of_mem_widthChoices hheldU hux, hle,
    fun htype => (eq_held_of_mem_widthChoices htype hsx).trans (hhardwired htype)⟩

/-- Written or picked, the pair stored is one of the choices, since the pair held is one (40_csr_access.md R128). -/
theorem swWriteXl_mem {s : State} (hlegal : xlLegal s.params s.mstatus.sxl s.mstatus.uxl = true) (value : Word) :
    swWriteXl s value ∈ xlPairs s.params s.mstatus := by
  obtain ⟨hheldS, hheldU, hheldLe, -⟩ := xlLegal_iff.mp hlegal
  have hheld : (s.mstatus.sxl, s.mstatus.uxl) ∈ xlPairs s.params s.mstatus :=
    mem_xlPairs.mpr ⟨held_mem_widthChoices hheldS, held_mem_widthChoices hheldU, hheldLe⟩
  have hpicked (index : Nat) : pick (xlPairs s.params s.mstatus) index (s.mstatus.sxl, s.mstatus.uxl) ∈ xlPairs s.params s.mstatus :=
    pick_mem _ index _ (List.ne_nil_of_mem hheld)
  unfold swWriteXl
  dsimp only
  split
  · rename_i sx ux hsx hux
    split
    · rename_i hwritten
      obtain ⟨hsupS, hsupU, hle⟩ := hwritten
      exact mem_xlPairs.mpr ⟨mem_widthChoices_of_presented hsx hsupS, mem_widthChoices_of_presented hux hsupU, hle⟩
    · exact hpicked _
  · exact hpicked _

/-- A legal pair presented is stored (40_csr_access.md R128). -/
theorem swWriteXl_of_presented {s : State} {value : Word} {sx ux : Width}
    (hsx : presentedWidth (sxlType s.params) (value.extractLsb' 34 2) s.mstatus.sxl = some sx)
    (hux : presentedWidth (uxlType s.params) (value.extractLsb' 32 2) s.mstatus.uxl = some ux)
    (hsupS : sx ∈ s.params.sxlen) (hsupU : ux ∈ s.params.uxlen) (hle : ux.le sx = true) : swWriteXl s value = (sx, ux) := by
  simp [swWriteXl, hsx, hux, hsupS, hsupU, hle]

/-- Settles O22: the pair stored is one of the choices, and it is the pair presented where that one is legal. -/
theorem xlWriteStoresALegalPair : Obligations.XlWriteStoresALegalPair := by
  intro s value hlegal n
  obtain ⟨-, hheld, -, -⟩ := State.legal_mstatus hlegal
  obtain ⟨hheldS, hheldU, -, -⟩ := xlLegal_iff.mp hheld
  have hmem : (n.sxl, n.uxl) ∈ xlPairs s.params s.mstatus := swWriteXl_mem hheld value
  obtain ⟨hsxl, huxl, -⟩ := mem_xlPairs.mp hmem
  have hstored {sx ux : Width} (h : swWriteXl s value = (sx, ux)) : n.sxl = sx ∧ n.uxl = ux :=
    ⟨congrArg Prod.fst h, congrArg Prod.snd h⟩
  refine ⟨xlLegal_of_mem_xlPairs hheld hmem, ?sxlKept, ?uxlKept, ?bothRw, ?sxlRw, ?uxlRw⟩
  case sxlKept => exact fun htype => eq_held_of_mem_widthChoices (by simp [htype]) hsxl
  case uxlKept => exact fun htype => eq_held_of_mem_widthChoices (by simp [htype]) huxl
  case bothRw =>
    intro sx ux htypeS htypeU hsupS hsupU hle hsx hux
    exact hstored (swWriteXl_of_presented (presentedWidth_of_rw htypeS hsx) (presentedWidth_of_rw htypeU hux) hsupS hsupU hle)
  case sxlRw =>
    intro sx htypeS htypeU hsupS hle hsx
    exact hstored (swWriteXl_of_presented (presentedWidth_of_rw htypeS hsx) (presentedWidth_of_ro htypeU _) hsupS hheldU hle)
  case uxlRw =>
    intro ux htypeS htypeU hsupU hle hux
    exact hstored (swWriteXl_of_presented (presentedWidth_of_ro htypeS _) (presentedWidth_of_rw htypeU hux) hheldS hsupU hle)

/-! ### TVM, FS and VS -/

theorem swWriteTvm_of_misaS {s : State} (h : misaS s = true) (value : Word) : swWriteTvm s value = value.getLsbD 20 :=
  if_pos (tvmType_eq_rw_iff.mpr h)

theorem swWriteTvm_of_not_misaS {s : State} (h : misaS s = false) (value : Word) : swWriteTvm s value = s.mstatus.tvm :=
  if_neg fun htype => ne_true_of_eq_false h (tvmType_eq_rw_iff.mp htype)

/-- The legal values of an RW context-status field are the list the configuration gives (10_state.md R52, R57). -/
theorem contextKind_rw {ext misaImplemented bitS bitX : Bool} {legal l : List (BitVec 2)}
    (h : contextKind ext misaImplemented bitS bitX legal = .rw l) : l = legal := by
  unfold contextKind at h
  split at h
  · cases h
  · split at h
    · cases h
    · split at h <;> cases h
      rfl

/-- A well-formed configuration gives FS and VS some legal value (00_scope.md R8). -/
theorem Params.wellFormed_contextLegal {p : Params} (h : p.wellFormed = true) : p.fsLegalValues ≠ [] ∧ p.vsLegalValues ≠ [] := by
  simp only [Params.wellFormed, Bool.and_eq_true, Bool.not_eq_true', List.isEmpty_eq_false_iff] at h
  obtain ⟨⟨⟨⟨-, hfs⟩, hvs⟩, -⟩, -⟩ := h
  exact ⟨hfs, hvs⟩

/-- What a software write makes of a context-status field, by its kind (40_csr_access.md R131, R132). -/
structure ContextWrite (kind : ContextKind) (held written after : BitVec 2) : Prop where
  rwH : kind = .rwH → after = written
  roZero : kind = .roZero → after = held
  roSingle : ∀ v, kind = .roSingle v → after = held
  rw : ∀ l, kind = .rw l → after ∈ l ∧ (written ∈ l → after = written)

theorem contextWrite_swWriteContext {kind : ContextKind} (hne : ∀ l, kind = .rw l → l ≠ []) (held written : BitVec 2) (index : Nat) :
    ContextWrite kind held written (swWriteContext kind held written index) := by
  cases kind with
  | rwH | roZero | roSingle => constructor <;> simp [swWriteContext]
  | rw legal =>
    refine ⟨by simp, by simp, by simp, ?_⟩
    rintro _ ⟨rfl⟩
    by_cases hwritten : written ∈ legal
    · simp [swWriteContext, hwritten]
    · simpa [swWriteContext, hwritten] using pick_mem legal index held (hne legal rfl)

/-- Settles O23: TVM by `misa.S`, FS and VS by the one rule of the context-status fields. -/
theorem tvmFsVsWritesFollowTheirTypes : Obligations.TvmFsVsWritesFollowTheirTypes := by
  intro s value hwf n
  obtain ⟨hfsLegal, hvsLegal⟩ := Params.wellFormed_contextLegal hwf
  have hfs : ContextWrite (fsKind s) s.mstatus.fs (value.extractLsb' 13 2) n.fs :=
    contextWrite_swWriteContext (fun l hl => contextKind_rw hl ▸ hfsLegal) _ _ _
  have hvs : ContextWrite (vsKind s) s.mstatus.vs (value.extractLsb' 9 2) n.vs :=
    contextWrite_swWriteContext (fun l hl => contextKind_rw hl ▸ hvsLegal) _ _ _
  exact ⟨fun h => swWriteTvm_of_misaS h value, fun h => swWriteTvm_of_not_misaS h value, hfs.rwH, hfs.roZero, hfs.roSingle, hfs.rw,
    hvs.rwH, hvs.roZero, hvs.roSingle, hvs.rw⟩

end Sys2Proof.Machine
end

section
/-! The obligations on the trap returns (41_trap_return.md): where `mret` and `sret` trap, where `sret` is refused, and where they return,
what they leave. -/

namespace Sys2Proof.Machine

theorem exec_mret (s : State) : exec .mret s = execMret s := rfl

theorem exec_sret (s : State) : exec .sret s = execSret s := rfl

/-! ### The fields `mret` gives by a parameter -/

section
variable {s : State}

/-- M-mode is entered with V = 0, and so is every mode without the hypervisor feature set (41_trap_return.md R150). -/
theorem returnFromM_v_of_m_or_not_extH (h : s.mstatus.mpp = .m ∨ s.params.extH = false) : (returnFromM s).v = false := if_pos h

theorem returnFromM_v_of_extH (hmpp : s.mstatus.mpp ≠ .m) (hH : s.params.extH = true) : (returnFromM s).v = s.mstatus.mpv :=
  if_neg (by simp [hmpp, hH])

/-- MPP becomes the least-privileged level there is (41_trap_return.md R150). -/
theorem returnFromM_mpp_of_extU (h : s.params.extU = true) : (returnFromM s).mstatus.mpp = .u := if_pos h

theorem returnFromM_mpp_of_not_extU (h : s.params.extU = false) : (returnFromM s).mstatus.mpp = .m := if_neg (by simp [h])

/-- MPRV is cleared but on a return to M-mode where the parameter keeps it (41_trap_return.md R153). -/
theorem returnFromM_mprv_cleared (h : s.mstatus.mpp ≠ .m ∨ s.params.mprvClearedOnReturnToM = true) :
    (returnFromM s).mstatus.mprv = false :=
  if_neg fun ⟨hmpp, hkept⟩ => h.elim (· hmpp) (by simp [hkept])

theorem returnFromM_mprv_kept (hmpp : s.mstatus.mpp = .m) (hkept : s.params.mprvClearedOnReturnToM = false) :
    (returnFromM s).mstatus.mprv = s.mstatus.mprv :=
  if_pos ⟨hmpp, hkept⟩

/-- MPV follows its parameter (41_trap_return.md R152). -/
theorem returnFromM_mpv_unchanged (h : s.params.mpvAfterMret = .unchanged) : (returnFromM s).mstatus.mpv = s.mstatus.mpv := by
  simp [returnFromM, h]

theorem returnFromM_mpv_zero (h : s.params.mpvAfterMret = .zero) : (returnFromM s).mstatus.mpv = false := by
  simp [returnFromM, h]

/-! ### mret -/

theorem execMret_of_m (h : s.priv = .m) : execMret s = .next (returnFromM s) := if_neg (not_not.mpr h)

theorem execMret_below_m (h : s.priv ≠ .m) : execMret s = .next (takeTrap .illegalInstruction s) := if_pos h

/-! ### sret -/

theorem inVsMode_eq_true_iff : inVsMode s = true ↔ s.priv = .s ∧ s.v = true := by
  simp [inVsMode]

/-- `sret` raises Illegal Instruction without S-mode, in U-mode, and in (H)S-mode under TSR (41_trap_return.md R155, R156, R158). -/
theorem execSret_traps (h : s.params.extS = false ∨ s.priv = .u ∨ (s.priv = .s ∧ s.v = false ∧ s.mstatus.tsr = true)) :
    execSret s = .next (takeTrap .illegalInstruction s) := by
  unfold execSret
  by_cases habsent : s.params.extS = false ∨ s.priv = .u
  · rw [if_pos habsent]
    rfl
  · obtain ⟨hp, hv, htsr⟩ := (or_assoc.mpr h).resolve_left habsent
    have hvs : ¬ inVsMode s = true := by simp [inVsMode_eq_true_iff, hv]
    rw [if_neg habsent, if_neg hvs, if_pos ⟨hp, htsr⟩]
    rfl

/-- `sret` in VS-mode is refused, whatever `mstatus` holds (41_trap_return.md R157; log 19). -/
theorem execSret_refused_of_vs (hS : s.params.extS = true) (hp : s.priv = .s) (hv : s.v = true) :
    execSret s = .refused .sretInVsMode := by
  unfold execSret
  rw [if_neg (by simp [hS, hp]), if_pos (inVsMode_eq_true_iff.mpr ⟨hp, hv⟩)]

/-- Where no check stops it, `sret` is the return with V = 0 without the hypervisor feature set, and else the return that draws V from
the environment (41_trap_return.md R155, R159; log 32). -/
theorem execSret_returns (hS : s.params.extS = true) (hu : s.priv ≠ .u) (hvs : ¬(s.priv = .s ∧ s.v = true))
    (htsr : ¬(s.priv = .s ∧ s.mstatus.tsr = true)) :
    execSret s = .next (if s.params.extH then returnFromS s.nextSretV s.dropSretV else returnFromS false s) := by
  have habsent : ¬(s.params.extS = false ∨ s.priv = .u) := by simp [hS, hu]
  unfold execSret
  rw [if_neg habsent, if_neg (mt inVsMode_eq_true_iff.mp hvs), if_neg htsr]
  split <;> rfl

/-- The return of `sret`, whether V is drawn or not, is a return with some V from a state that differs in the draws alone. -/
theorem execSret_returns_drawn (hS : s.params.extS = true) (hu : s.priv ≠ .u) (hvs : ¬(s.priv = .s ∧ s.v = true))
    (htsr : ¬(s.priv = .s ∧ s.mstatus.tsr = true)) :
    ∃ (newV : Bool) (inputs : List Bool) (count : Nat),
      execSret s = .next (returnFromS newV { s with sretVInputs := inputs, drawCount := count })
        ∧ (s.params.extH = false → newV = false)
        ∧ (s.params.extH = true → newV = s.nextSretV ∧ inputs = s.sretVInputs.tail) := by
  rw [execSret_returns hS hu hvs htsr]
  cases hH : s.params.extH with
  | false => exact ⟨false, s.sretVInputs, s.drawCount, rfl, fun _ => rfl, nofun⟩
  | true => exact ⟨s.nextSretV, s.dropSretV.sretVInputs, s.dropSretV.drawCount, rfl, nofun, fun _ => ⟨rfl, rfl⟩⟩

end

/-! ### The obligations -/

/-- Settles O32: in M-mode `mret` is the return, which is read off field by field. -/
theorem mretReturnsToTheRecordedMode : Obligations.MretReturnsToTheRecordedMode := by
  intro s hm
  exact ⟨returnFromM s, (exec_mret s).trans (execMret_of_m hm), rfl, returnFromM_v_of_m_or_not_extH, returnFromM_v_of_extH, rfl, rfl,
    returnFromM_mpp_of_extU, returnFromM_mpp_of_not_extU, returnFromM_mprv_cleared, returnFromM_mprv_kept,
    returnFromM_mpv_unchanged, returnFromM_mpv_zero, rfl, fun _ => rfl, rfl, rfl⟩

/-- Settles O33: no check stops `sret`, and what it leaves does not depend on the draw, but for V and the draws themselves. -/
theorem sretReturnsToTheRecordedMode : Obligations.SretReturnsToTheRecordedMode := by
  intro s hS hu hvs htsr
  obtain ⟨newV, inputs, count, hexec, hzero, hdrawn⟩ := execSret_returns_drawn hS hu hvs htsr
  refine ⟨_, (exec_sret s).trans hexec, rfl, hzero, ?_, rfl, rfl, rfl, rfl, rfl, fun _ => rfl, rfl, rfl⟩
  intro input rest hH hinputs
  obtain ⟨hnewV, hrest⟩ := hdrawn hH
  exact ⟨by simp [hnewV, State.nextSretV, hinputs], by simp [hrest, hinputs]⟩

/-- Settles O34: the mode check of `mret`, and the checks of `sret`. -/
theorem trapReturnsTrapWhereTheyMayNotExecute : Obligations.TrapReturnsTrapWhereTheyMayNotExecute :=
  ⟨fun s h => (exec_mret s).trans (execMret_below_m h), fun s h => (exec_sret s).trans (execSret_traps h)⟩

/-- Settles O35: the trap under TSR, the return in (H)S-mode without TSR and in M-mode, and in VS-mode the refusal, which comes before
the check of TSR. -/
theorem tsrTrapsSretInSupervisorModeOnly : Obligations.TsrTrapsSretInSupervisorModeOnly := by
  intro s hS
  have hreturns (hu : s.priv ≠ .u) (hvs : ¬(s.priv = .s ∧ s.v = true)) (htsr : ¬(s.priv = .s ∧ s.mstatus.tsr = true)) :
      ∃ t, exec .sret s = .next t ∧ t.pc = s.sRetAddr ∧ t.priv = (if s.mstatus.spp then .s else .u) := by
    obtain ⟨newV, inputs, count, hexec, -, -⟩ := execSret_returns_drawn hS hu hvs htsr
    exact ⟨_, (exec_sret s).trans hexec, rfl, rfl⟩
  refine ⟨?_, ?_, ?_, ?_⟩
  · intro hp hv htsr
    exact (exec_sret s).trans (execSret_traps (.inr (.inr ⟨hp, hv, htsr⟩)))
  · intro hp hv htsr
    exact hreturns (by simp [hp]) (by simp [hv]) (by simp [htsr])
  · intro hp
    exact hreturns (by simp [hp]) (by simp [hp]) (by simp [hp])
  · intro hp hv b c
    have hrefused (tsr : Bool) :
        exec .sret { s with mstatus := { s.mstatus with tsr := tsr } } = .refused .sretInVsMode :=
      (exec_sret _).trans (execSret_refused_of_vs hS hp hv)
    exact (hrefused b).trans (hrefused c).symm

end Sys2Proof.Machine
end

section
/-! The obligations on `wfi` and the fences (42_wfi_tvm_fences.md R166, R179, R180): where they trap, and what VS-mode refuses. -/

namespace Sys2Proof.Machine

theorem exec_wfi (s : State) : exec .wfi s = .next (wfiStep s) := rfl

theorem exec_sfenceVma (rs1 rs2 : RegNum) (s : State) : exec (.sfenceVma rs1 rs2) s = supervisorFence .sfenceVma true rs1 rs2 s := rfl

theorem exec_sinvalVma (rs1 rs2 : RegNum) (s : State) : exec (.sinvalVma rs1 rs2) s = supervisorFence .sinvalVma true rs1 rs2 s := rfl

section
variable {s : State}

/-! ### wfi -/

/-- `wfi` may trap below M-mode under TW, in U-mode, and in a guest (42_wfi_tvm_fences.md R166). -/
theorem wfiMayTrap_iff : wfiMayTrap s = true ↔ s.priv ≠ .m ∧ (s.mstatus.tw = true ∨ s.priv = .u ∨ s.v = true) := by
  simp [wfiMayTrap, or_assoc]

/-- The head of the script is the next draw of `wfi` (log 9). -/
theorem State.nextWfiDraw_cons {draw : WfiDraw} {rest : List WfiDraw} (h : s.wfiInputs = draw :: rest) : s.nextWfiDraw = draw := by
  simp [State.nextWfiDraw, h]

/-- A scripted draw consumes the head of the script and nothing else (log 9). -/
theorem State.dropWfiDraw_cons {draw : WfiDraw} {rest : List WfiDraw} (h : s.wfiInputs = draw :: rest) :
    s.dropWfiDraw = { s with wfiInputs := rest } := by
  simp [State.dropWfiDraw, h]

/-- Where `wfi` may trap and the draw says so, it traps, from the state past the draw (42_wfi_tvm_fences.md R167). -/
theorem wfiStep_traps (hmay : wfiMayTrap s = true) (hdraw : s.nextWfiDraw = .trap) :
    wfiStep s = takeTrap .illegalInstruction s.dropWfiDraw :=
  if_pos (by rw [hmay, hdraw]; rfl)

/-! ### TVM and VTVM -/

/-- TVM traps nothing in a guest (42_wfi_tvm_fences.md R179). -/
theorem tvmTrap_of_guest (hv : s.v = true) : tvmTrap s = false := by
  simp [tvmTrap, hv]

/-- An access of `satp` in VS-mode under VTVM is refused: its level allows it and TVM does not trap it (42_wfi_tvm_fences.md R179;
log 18). -/
theorem csrAccess_satp_refused_of_vtvm (hp : s.priv = .s) (hv : s.v = true) (hvtvm : s.hstatus.vtvm = true) (op : CsrOp) (rd : RegNum)
    (source : CsrSource) : csrAccess op rd 0x180#12 source s = .refused .vtvmTrapUndescribed := by
  have hname : csrOfNumber 0x180#12 = some .satp := by decide
  have hlevel : csrLevel 0x180#12 = 1 := by decide
  have haccess : csrAccessible s 0x180#12 = true := by simp [csrAccessible, hlevel, hp]
  have hvs : inVsMode s = true := inVsMode_eq_true_iff.mpr ⟨hp, hv⟩
  unfold csrAccess
  simp only [hname]
  rw [if_neg (by simp), if_neg (by simp [haccess]), if_neg (by simp [tvmTrap_of_guest hv]), if_pos ⟨rfl, hvs, hvtvm⟩]

/-- A fence of the supervisor that TVM traps is refused in VS-mode under VTVM (42_wfi_tvm_fences.md R179; log 18). -/
theorem supervisorFence_refused_of_vtvm (hp : s.priv = .s) (hv : s.v = true) (hvtvm : s.hstatus.vtvm = true) (fence : Fence)
    (rs1 rs2 : RegNum) : supervisorFence fence true rs1 rs2 s = .refused .vtvmTrapUndescribed := by
  have hvs : inVsMode s = true := inVsMode_eq_true_iff.mpr ⟨hp, hv⟩
  unfold supervisorFence
  rw [if_neg (by simp [hp]), if_neg (by simp [tvmTrap_of_guest hv]), if_pos (by simp [hvs, hvtvm])]

/-! ### The modes a fence needs -/

/-- The mode check of a fence of the supervisor comes before that of TVM (42_wfi_tvm_fences.md R180). -/
theorem supervisorFence_traps_of_u (hu : s.priv = .u) (fence : Fence) (underTvm : Bool) (rs1 rs2 : RegNum) :
    supervisorFence fence underTvm rs1 rs2 s = .next (takeTrap .illegalInstruction s) := if_pos hu

/-- The mode check of a fence of the hypervisor comes before that of TVM (42_wfi_tvm_fences.md R180, D22; log 17). -/
theorem hypervisorFence_traps (h : s.priv = .u ∨ inVsMode s = true) (fence : Fence) (underTvm : Bool) (rs1 rs2 : RegNum) :
    hypervisorFence fence underTvm rs1 rs2 s = .next (takeTrap .illegalInstruction s) := if_pos h

end

/-! ### The obligations -/

/-- Settles O31: `sret` by its check of VS-mode, the others by that of VTVM, as TVM traps nothing in a guest. -/
theorem vsModeStopsWhereTheSpecDescribesNothing : Obligations.VsModeStopsWhereTheSpecDescribesNothing := by
  intro s hp hv
  refine ⟨fun hS => (exec_sret s).trans (execSret_refused_of_vs hS hp hv), fun hvtvm op rd rs1 rs2 source => ⟨?_, ?_, ?_⟩⟩
  · exact (exec_csrInstr op rd _ source s).trans (csrAccess_satp_refused_of_vtvm hp hv hvtvm op rd source)
  · exact (exec_sfenceVma rs1 rs2 s).trans (supervisorFence_refused_of_vtvm hp hv hvtvm .sfenceVma rs1 rs2)
  · exact (exec_sinvalVma rs1 rs2 s).trans (supervisorFence_refused_of_vtvm hp hv hvtvm .sinvalVma rs1 rs2)

/-- Settles O38: the hypotheses are the check of R166, and the draw is the head of the script. -/
theorem wfiTrapsWhenDrawnAndAllowed : Obligations.WfiTrapsWhenDrawnAndAllowed := by
  intro s rest hinputs hm hallowed
  have hstep : wfiStep s = takeTrap .illegalInstruction s.dropWfiDraw :=
    wfiStep_traps (wfiMayTrap_iff.mpr ⟨hm, hallowed⟩) (State.nextWfiDraw_cons hinputs)
  rw [exec_wfi, hstep, State.dropWfiDraw_cons hinputs]

/-- Settles O42: a fence of the hypervisor fails its mode check in U-mode and in VS-mode, one of the supervisor in U-mode. -/
theorem fencesTrapBelowTheirMode : Obligations.FencesTrapBelowTheirMode := by
  intro s fence rs1 rs2 hmode
  obtain ⟨r1, r2, hexec⟩ := exec_fenceInstr fence rs1 rs2 s
  rw [hexec]
  cases hhyp : fenceOfHypervisor fence with
  | true =>
    have hbelow : s.priv = .u ∨ inVsMode s = true := hmode.imp_right fun ⟨hp, hv, _⟩ => inVsMode_eq_true_iff.mpr ⟨hp, hv⟩
    exact hypervisorFence_traps hbelow fence _ r1 r2
  | false =>
    have hu : s.priv = .u := hmode.resolve_right fun ⟨_, _, hfence⟩ => by simp [hhyp] at hfence
    exact supervisorFence_traps_of_u hu fence _ r1 r2

end Sys2Proof.Machine
end

section
/-! The obligations on FS and VS as hardware writes them (43_fp_vector_status.md R192, R194, R195, R198): by a write of `fcsr`, and by
an instruction of the vector class. -/

namespace Sys2Proof.Machine

/-! ### A context-status field after its state was written -/

/-- A field that is on becomes 3 where its type is RW-H, and is kept elsewhere (43_fp_vector_status.md R192, R195). -/
theorem dirtied_of_ne_zero {held : BitVec 2} (h : held ≠ 0#2) (kind : ContextKind) :
    dirtied kind held = if kind = .rwH then 3#2 else held := by
  simp [dirtied, h]

/-- A field that is off, or whose type is not RW-H, is kept (43_fp_vector_status.md R192, R195). -/
theorem dirtied_of_kept {kind : ContextKind} {held : BitVec 2} (h : held = 0#2 ∨ kind ≠ .rwH) : dirtied kind held = held :=
  if_neg fun ⟨hkind, hon⟩ => h.elim hon (absurd hkind)

/-! ### A write of fcsr -/

/-- Any mode reaches `fcsr`: its number asks for level 0 (30_encoding.md R107). -/
theorem csrAccessible_fcsr (s : State) : csrAccessible s 0x003#12 = true := by
  have hlevel : csrLevel 0x003#12 = 0 := by decide
  simp [csrAccessible, hlevel]

/-- Outside a guest FS alone decides whether floating point is disabled (43_fp_vector_status.md R191; log 16). -/
theorem fpDisabled_of_not_guest {s : State} (hv : s.v = false) (hfs : s.mstatus.fs ≠ 0#2) : fpDisabled s = false := by
  simp [fpDisabled, hv, hfs]

/-- An access of `fcsr` executes where floating point is not disabled (43_fp_vector_status.md R191). -/
theorem exec_csrInstr_fcsr {s : State} (h : fpDisabled s = false) (op : CsrOp) (rd : RegNum) (source : CsrSource) :
    exec (csrInstr op rd 0x003#12 source) s = .next (csrExecute op rd .fcsr source s) := by
  have hname : csrOfNumber 0x003#12 = some .fcsr := by decide
  rw [exec_csrInstr, csrAccess_of_checks op rd source hname (by simp) (csrAccessible_fcsr s) (by simp [tvmGuarded]) fun _ _ => h]

/-- A write of `fcsr` records itself in FS, by the type FS has before the write (43_fp_vector_status.md R192). -/
theorem writeFcsr_mstatus (s : State) (value : Word) :
    (writeFcsr s value).mstatus = { s.mstatus with fs := fsDirtied s } := rfl

/-- Outside a guest a write of `fcsr` changes `fcsr` and `mstatus` alone (43_fp_vector_status.md R192; log 16). -/
theorem writeFcsr_frame {s : State} (hv : s.v = false) (value : Word) :
    { writeFcsr s value with mstatus := s.mstatus, fcsr := s.fcsr } = s := by
  have hvsstatus : (writeFcsr s value).vsstatus = s.vsstatus := by simp [writeFcsr, hv]
  calc { writeFcsr s value with mstatus := s.mstatus, fcsr := s.fcsr }
      = { s with vsstatus := (writeFcsr s value).vsstatus } := rfl
    _ = s := by rw [hvsstatus]

/-- Settles O29: FS is on, so no check stops the access, and its write is `writeFcsr`. -/
theorem fcsrWriteMarksFsDirty : Obligations.FcsrWriteMarksFsDirty := by
  intro s op rd source hv hfs hwrite
  have hresult : RegisterResult s (csrExecute op rd .fcsr source s) rd s.fcsr := registerResult_csrExecute op rd .fcsr source s
  refine ⟨_, exec_csrInstr_fcsr (fpDisabled_of_not_guest hv hfs) op rd source, hresult, ?_⟩
  obtain ⟨regs, ht⟩ := csrExecute_eq_csrWritten op rd .fcsr source s
  rw [ht, csrWritten_of_write hwrite]
  generalize presentedValue op (csrRead s .fcsr) (sourceValue s source) = value
  have hmstatus : (writeFcsr s value).mstatus = { s.mstatus with fs := if fsKind s = .rwH then 3#2 else s.mstatus.fs } := by
    rw [writeFcsr_mstatus, fsDirtied, dirtied_of_ne_zero hfs]
  exact ⟨hmstatus, congrArg (fun u : State => { u with regs := s.regs, pc := s.pc }) (writeFcsr_frame hv value)⟩

/-! ### An instruction of a class -/

/-- A disabled instruction traps (43_fp_vector_status.md R198). -/
theorem classStep_of_disabled {c : InsnClass} {s : State} (h : classDisabled c s = true) :
    classStep c s = takeTrap .illegalInstruction s := if_pos h

/-- An instruction that is not disabled records what it wrote, and `pc` advances (43_fp_vector_status.md R198). -/
theorem classStep_of_enabled {c : InsnClass} {s : State} (h : classDisabled c s = false) :
    classStep c s = (classWritten c s).advance := if_neg (by simp [h])

/-- VS = 0 disables the vector class (43_fp_vector_status.md R194). -/
theorem classDisabled_of_vs_zero {c : InsnClass} {s : State} (hvector : c.isVector = true) (hvs : s.mstatus.vs = 0#2) :
    classDisabled c s = true := by
  simp [classDisabled, vectorDisabled, hvector, hvs]

/-- VS records a write of vector state, whether or not floating-point state is written as well (43_fp_vector_status.md R195, R198). -/
theorem classWritten_vs (c : InsnClass) (s : State) :
    (classWritten c s).mstatus.vs = if c.writesVectorState then vsDirtied s else s.mstatus.vs := by
  unfold classWritten
  cases c.writesFpState <;> cases c.writesVectorState <;> rfl

/-- No trap entry writes VS (60_exceptions.md R214 to R216). -/
@[simp] theorem takeTrap_mstatus_vs (cause : Cause) (s : State) : (takeTrap cause s).mstatus.vs = s.mstatus.vs := by
  obtain ht | ⟨-, -, ht⟩ | ⟨-, -, -, -, ht⟩ := takeTrap_cases cause s <;> rw [ht] <;> simp

/-- Settles O51: VS = 0 disables the class, and the trap keeps VS; an instruction that executes leaves in VS what `classWritten` does. -/
theorem vectorClassFollowsVs : Obligations.VectorClassFollowsVs := by
  intro s c
  refine ⟨fun hvector hvs => ?_, fun henabled => ?_⟩
  · have htrap : classStep c s = takeTrap .illegalInstruction s := classStep_of_disabled (classDisabled_of_vs_zero hvector hvs)
    exact ⟨htrap, by rw [htrap, takeTrap_mstatus_vs, hvs]⟩
  · have hstep : (classStep c s).mstatus.vs = if c.writesVectorState then vsDirtied s else s.mstatus.vs := by
      rw [classStep_of_enabled henabled, State.advance_mstatus, classWritten_vs]
    refine ⟨fun hwrites hon hkind => ?_, fun hkept => ?_⟩
    · rw [hstep, if_pos hwrites, vsDirtied, dirtied_of_ne_zero hon, if_pos hkind]
    · obtain hnone | hkept := hkept
      · rw [hstep, if_neg (by simp [hnone])]
      · rw [hstep, vsDirtied, dirtied_of_kept hkept, ite_self]

end Sys2Proof.Machine
end

section
/-! The obligations on exceptions and interrupts (60_exceptions.md): what the environment does at a boundary, what a trap records and what it
keeps, what a return from it restores, and that only traps raise privilege. -/

namespace Sys2Proof.Machine

/-! ### Trap entry with scripted inputs -/

section
variable {s : State} {input : TrapInput} {rest : List TrapInput}

/-- The head of the script is what the next trap gets (log 4). -/
theorem State.nextTrapInput_cons (h : s.trapInputs = input :: rest) : s.nextTrapInput = input := by
  simp [State.nextTrapInput, h]

/-- A trap consumes the head of the script and nothing else (log 4). -/
theorem State.dropTrapInput_cons (h : s.trapInputs = input :: rest) : s.dropTrapInput = { s with trapInputs := rest } := by
  simp [State.dropTrapInput, h]

/-- From M-mode, and where the environment names M-mode, a trap goes to M-mode (60_exceptions.md R213, R227). -/
theorem admissibleTarget_eq_m {target : TrapTarget} (h : s.priv = .m ∨ target = .m) : admissibleTarget s target = .m := by
  obtain hm | rfl := h
  · exact admissibleTarget_of_m hm target
  · exact ite_self _

theorem admissibleTarget_eq_s (hm : s.priv ≠ .m) (hS : s.params.extS = true) : admissibleTarget s .s = .s := by
  simp [admissibleTarget, hm, hS]

theorem admissibleTarget_eq_vs (hm : s.priv ≠ .m) (hS : s.params.extS = true) (hH : s.params.extH = true) (hv : s.v = true) :
    admissibleTarget s .vs = .vs := by
  simp [admissibleTarget, hm, hS, hH, hv]

/-- An exception with scripted inputs is the entry into the admissible target (60_exceptions.md R213). -/
theorem takeTrap_cons (h : s.trapInputs = input :: rest) (cause : Cause) :
    takeTrap cause s = trapEntryInto (admissibleTarget s input.target) input cause { s with trapInputs := rest } := by
  rw [takeTrap, State.nextTrapInput_cons h, State.dropTrapInput_cons h]

theorem takeTrap_into_m (h : s.trapInputs = input :: rest) (htarget : s.priv = .m ∨ input.target = .m) (cause : Cause) :
    takeTrap cause s = trapEntryM input cause { s with trapInputs := rest } := by
  rw [takeTrap_cons h, admissibleTarget_eq_m htarget, trapEntryInto]

theorem takeTrap_into_s (h : s.trapInputs = input :: rest) (htarget : input.target = .s) (hm : s.priv ≠ .m)
    (hS : s.params.extS = true) (cause : Cause) : takeTrap cause s = trapEntryS input cause { s with trapInputs := rest } := by
  rw [takeTrap_cons h, htarget, admissibleTarget_eq_s hm hS, trapEntryInto]

theorem takeTrap_into_vs (h : s.trapInputs = input :: rest) (htarget : input.target = .vs) (hm : s.priv ≠ .m) (hv : s.v = true)
    (hS : s.params.extS = true) (hH : s.params.extH = true) (cause : Cause) :
    takeTrap cause s = trapEntryVs input cause { s with trapInputs := rest } := by
  rw [takeTrap_cons h, htarget, admissibleTarget_eq_vs hm hS hH hv, trapEntryInto]

theorem takeInterrupt_into_m (h : s.trapInputs = input :: rest) (n : Nat) :
    takeInterrupt { handler := .m, number := n } s = trapEntryM input (.interrupt n) { s with trapInputs := rest } := by
  rw [← State.dropTrapInput_cons h, ← State.nextTrapInput_cons h]
  rfl

theorem takeInterrupt_into_s (h : s.trapInputs = input :: rest) (n : Nat) :
    takeInterrupt { handler := .s, number := n } s = trapEntryS input (.interrupt n) { s with trapInputs := rest } := by
  rw [← State.dropTrapInput_cons h, ← State.nextTrapInput_cons h]
  rfl

end

/-! ### What a trap records -/

theorem machineTrapRecord_trapEntryM (s : State) (input : TrapInput) (rest : List TrapInput) (cause : Cause) :
    MachineTrapRecord s (trapEntryM input cause { s with trapInputs := rest }) input rest cause :=
  ⟨rfl, rfl, rfl, rfl, rfl, rfl, rfl, rfl, rfl, rfl, rfl, rfl, rfl, rfl, rfl⟩

theorem supervisorTrapRecord_trapEntryS (s : State) (input : TrapInput) (rest : List TrapInput) (cause : Cause) :
    SupervisorTrapRecord s (trapEntryS input cause { s with trapInputs := rest }) input rest cause :=
  ⟨fun hs => by simp [hs], fun hu => by simp [hu], rfl, rfl, rfl, rfl, rfl, rfl, rfl, rfl, rfl, rfl, rfl⟩

/-- Settles O43: the exception and the interrupt are one and the same entry into M-mode. -/
theorem trapIntoMachineModeRecordsTheState : Obligations.TrapIntoMachineModeRecordsTheState := by
  intro s input rest hinputs
  refine ⟨fun cause htarget => ?_, fun n => ?_⟩
  · rw [takeTrap_into_m hinputs htarget]
    exact machineTrapRecord_trapEntryM s input rest cause
  · rw [takeInterrupt_into_m hinputs]
    exact machineTrapRecord_trapEntryM s input rest (.interrupt n)

/-- Settles O44: the exception and the interrupt are one and the same entry into (H)S-mode. -/
theorem trapIntoSupervisorModeRecordsTheState : Obligations.TrapIntoSupervisorModeRecordsTheState := by
  intro s input rest hinputs hm hS
  refine ⟨fun cause htarget => ?_, fun n => ?_⟩
  · rw [takeTrap_into_s hinputs htarget hm hS]
    exact supervisorTrapRecord_trapEntryS s input rest cause
  · rw [takeInterrupt_into_s hinputs]
    exact supervisorTrapRecord_trapEntryS s input rest (.interrupt n)

/-- Settles O45: VS-mode is admissible, and its entry writes `vsstatus` in place of `mstatus`. -/
theorem trapIntoVsModeLeavesMstatus : Obligations.TrapIntoVsModeLeavesMstatus := by
  intro s cause input rest hinputs htarget hm hv hS hH
  rw [takeTrap_into_vs hinputs htarget hm hv hS hH]
  exact ⟨rfl, rfl, rfl, rfl, rfl, rfl, rfl⟩

/-- Settles O49: the first trap leaves M-mode with MIE = 0, and that is the state the second one records. -/
theorem secondTrapOverwritesTheRecord : Obligations.SecondTrapOverwritesTheRecord := by
  intro s first second input rest hinputs htarget
  rw [takeTrap_into_m hinputs htarget, takeTrap_of_m rfl]
  exact ⟨rfl, rfl, rfl, rfl, rfl, rfl⟩

/-! ### Privilege levels and the mode a trap enters -/

theorem privBits_le_m (p : Priv) : (privBits p).toNat ≤ (privBits .m).toNat := by
  cases p <;> decide

theorem privBits_le_s {p : Priv} (h : p ≠ .m) : (privBits p).toNat ≤ (privBits .s).toNat := by
  cases p with
  | u => decide
  | s => exact le_rfl
  | m => exact absurd rfl h

theorem privBits_s_le {p : Priv} (h : p ≠ .u) : (privBits .s).toNat ≤ (privBits p).toNat := by
  cases p with
  | u => exact absurd rfl h
  | s => exact le_rfl
  | m => decide

section
variable {s t : State}

/-- A handler's level is not below that of the mode the trap came from (60_exceptions.md R227). -/
theorem EnteredHandler.level_le (h : EnteredHandler s t) : (privBits s.priv).toNat ≤ (privBits t.priv).toNat := by
  obtain ⟨ht, -, -⟩ | ⟨hm, ht, -, -⟩ | ⟨hm, -, ht, -, -⟩ := h
  · exact ht ▸ privBits_le_m s.priv
  · exact ht ▸ privBits_le_s hm
  · exact ht ▸ privBits_le_s hm

/-- From M-mode only the handler of M-mode is entered (60_exceptions.md R227). -/
theorem EnteredHandler.priv_of_m (h : EnteredHandler s t) (hm : s.priv = .m) : t.priv = .m := by
  obtain ⟨ht, -, -⟩ | ⟨hbelow, -⟩ | ⟨hbelow, -⟩ := h
  · exact ht
  · exact absurd hm hbelow
  · exact absurd hm hbelow

/-- A guest's handler is entered from a guest alone (60_exceptions.md R216). -/
theorem EnteredHandler.v_of_v (h : EnteredHandler s t) (hv : t.v = true) : s.v = true := by
  obtain ⟨-, ht, -⟩ | ⟨-, -, ht, -⟩ | ⟨-, hs, -⟩ := h
  · simp [ht] at hv
  · simp [ht] at hv
  · exact hs

/-- What a draw of the environment changes has no part in the mode. -/
theorem EnteredHandler.of_drawnFrom {s₀ : State} (hs : DrawnFrom s s₀) (h : EnteredHandler s₀ t) : EnteredHandler s t := by
  obtain rfl | rfl | rfl := hs <;> exact h

end

/-- Every exception enters a handler (60_exceptions.md R213 to R216). -/
theorem enteredHandler_takeTrap (cause : Cause) (s : State) : EnteredHandler s (takeTrap cause s) := by
  obtain ht | ⟨hm, -, ht⟩ | ⟨hm, -, -, hv, ht⟩ := takeTrap_cases cause s
  · exact .inl (ht ▸ ⟨rfl, rfl, rfl⟩)
  · exact .inr (.inl (ht ▸ ⟨hm, rfl, rfl, rfl⟩))
  · exact .inr (.inr (ht ▸ ⟨hm, hv, rfl, rfl, rfl⟩))

/-- An interrupt whose gate is open enters a handler: the gate of (H)S-mode is closed in M-mode (60_exceptions.md R207, R208). -/
theorem enteredHandler_takeInterrupt {s : State} {i : Interrupt} (henabled : interruptEnabled s i = true) :
    EnteredHandler s (takeInterrupt i s) := by
  obtain ⟨-, ht⟩ | ⟨hhandler, ht⟩ := takeInterrupt_cases i s
  · exact .inl (ht ▸ ⟨rfl, rfl, rfl⟩)
  · have hm : s.priv ≠ .m := by
      intro hm
      simp [interruptEnabled, hhandler, sInterruptsEnabled, hm] at henabled
    exact .inr (.inl (ht ▸ ⟨hm, rfl, rfl, rfl⟩))

/-- The fields of `mstatus` outside the record of M-mode and that of (H)S-mode are the same in `m` and `n`: those no trap entry writes
(60_exceptions.md R214 to R216). -/
def SameOutsideTrapRecords (m n : Mstatus) : Prop :=
  { n with mpv := m.mpv, gva := m.gva, mpp := m.mpp, mpie := m.mpie, mie := m.mie, spp := m.spp, spie := m.spie, sie := m.sie } = m

theorem sameOutsideTrapRecords_takeTrap (cause : Cause) (s : State) : SameOutsideTrapRecords s.mstatus (takeTrap cause s).mstatus := by
  obtain ht | ⟨-, -, ht⟩ | ⟨-, -, -, -, ht⟩ := takeTrap_cases cause s
  · exact ht ▸ rfl
  · exact ht ▸ rfl
  · exact ht ▸ rfl

/-- Settles O46: the mode is that of a handler, and the control fields stand outside the records a trap writes. -/
theorem trapsNeverLowerPrivilege : Obligations.TrapsNeverLowerPrivilege := by
  intro s cause
  have hmode : EnteredHandler s (takeTrap cause s) := enteredHandler_takeTrap cause s
  have hmem : (takeTrap cause s).mem = s.mem := (retAddrsByTrap_takeTrap cause s).mem
  have hkept {α : Type} (field : Mstatus → α) := congrArg field (sameOutsideTrapRecords_takeTrap cause s)
  exact ⟨hmode.level_le, hmode.priv_of_m, hmode.v_of_v, takeTrap_regs cause s, fun a => by rw [hmem], hkept Mstatus.mprv,
    hkept Mstatus.fs, hkept Mstatus.vs, hkept Mstatus.tsr, hkept Mstatus.tw, hkept Mstatus.tvm, hkept Mstatus.mxr, hkept Mstatus.sum,
    hkept Mstatus.sxl, hkept Mstatus.uxl⟩

/-! ### The mode a step leads to -/

/-- How a step may change the mode (60_exceptions.md R231). -/
def ModeChange (s t : State) : Prop := SameMode s t ∨ EnteredHandler s t ∨ ReturnedFromM s t ∨ ReturnedFromS s t

section
variable {s t : State}

theorem ModeChange.same (h : SameMode s t) : ModeChange s t := .inl h

theorem ModeChange.handler (h : EnteredHandler s t) : ModeChange s t := .inr (.inl h)

/-- A return of M-mode leads to no level above M-mode. -/
theorem ReturnedFromM.level_le (h : ReturnedFromM s t) : (privBits t.priv).toNat ≤ (privBits s.priv).toNat := by
  obtain ⟨hm, -⟩ := h
  exact hm ▸ privBits_le_m t.priv

/-- A return of (H)S-mode leads to S or U, and `sret` does not execute in U-mode. -/
theorem ReturnedFromS.level_le (h : ReturnedFromS s t) : (privBits t.priv).toNat ≤ (privBits s.priv).toNat := by
  obtain ⟨hu, -, ht, -⟩ := h
  have hbelow : t.priv ≠ .m := by
    rw [ht]
    split <;> decide
  exact (privBits_le_s hbelow).trans (privBits_s_le hu)

/-- Of the ways a step may change the mode, only the entry of a handler raises the level (60_exceptions.md R231). -/
theorem ModeChange.enteredHandler_of_raised (h : ModeChange s t) (hraised : (privBits s.priv).toNat < (privBits t.priv).toNat) :
    EnteredHandler s t := by
  obtain ⟨hpriv, -⟩ | hhandler | hM | hS := h
  · exact absurd hraised (by simp [hpriv])
  · exact hhandler
  · exact absurd hM.level_le hraised.not_ge
  · exact absurd hS.level_le hraised.not_ge

end

theorem sameMode_csrExecute_of_drawnFrom {s s₀ : State} (hs : DrawnFrom s s₀) (op : CsrOp) (rd : RegNum) (name : CsrName)
    (source : CsrSource) : SameMode s (csrExecute op rd name source s₀) := by
  obtain rfl | rfl | rfl := hs <;> exact (csrAccessFrame_csrExecute op rd name source _).mode

/-- The mode `mret` enters in M-mode (41_trap_return.md R150). -/
theorem returnedFromM_returnFromM {s : State} (hm : s.priv = .m) : ReturnedFromM s (returnFromM s) := by
  refine ⟨hm, rfl, rfl, ?_⟩
  rw [returnFromM_v]
  split_ifs with hzero
  · obtain hmpp | hH := hzero
    · simp [hmpp]
    · simp [hH]
  · obtain ⟨hmpp, hH⟩ := not_or.mp hzero
    simp [hmpp, hH]

/-- The mode `sret` enters where it executes, its V drawn or 0 (41_trap_return.md R155, R159). -/
theorem returnedFromS_of_sret {s t : State} (hu : s.priv ≠ .u) (hvs : inVsMode s = false)
    (ht : (s.params.extH = true ∧ t = returnFromS s.nextSretV s.dropSretV) ∨ (s.params.extH = false ∧ t = returnFromS false s)) :
    ReturnedFromS s t := by
  obtain ⟨hH, rfl⟩ | ⟨-, rfl⟩ := ht
  · exact ⟨hu, hvs, rfl, rfl, fun habsent => by simp [hH] at habsent⟩
  · exact ⟨hu, hvs, rfl, rfl, fun _ => rfl⟩

theorem modeChange_exec {i : Instr} {s t : State} (h : exec i s = .next t) : ModeChange s t := by
  cases exec_cases h with
  | trap s₀ hs ht => exact ht ▸ .handler ((enteredHandler_takeTrap _ s₀).of_drawnFrom hs)
  | csr op rd csr source name s₀ _ _ hs _ ht => exact ht ▸ .same (sameMode_csrExecute_of_drawnFrom hs op rd name source)
  | mret _ hm ht => exact ht ▸ .inr (.inr (.inl (returnedFromM_returnFromM hm)))
  | sret _ _ hu hvs ht => exact .inr (.inr (.inr (returnedFromS_of_sret hu hvs ht)))
  | wfi _ ht => obtain rfl | rfl := ht <;> exact .same ⟨rfl, rfl⟩
  | fence fence _ _ r1 r2 _ _ ht => exact ht ▸ .same ⟨rfl, rfl⟩

theorem modeChange_of_event {event : EnvEvent} {s t : State} (h : eventEffect event s = some t) : ModeChange s t := by
  obtain ⟨i, -, henabled, rfl⟩ | ⟨cause, rfl⟩ | ⟨mode, address, -, -, rfl⟩ | ⟨mode, cause, -, -, rfl⟩ := eventEffect_cases h
  · exact .handler (enteredHandler_takeInterrupt henabled)
  · exact .handler (enteredHandler_takeTrap cause s)
  · exact .same ⟨by simp, by simp⟩
  · exact .same ⟨by simp, by simp⟩

/-- The boundary being past changes nothing of the mode, and each way a step goes on changes it as `ModeChange` says. -/
theorem modeChange_step {s t : State} (h : step s = .next t) : ModeChange s t := by
  change ModeChange s.pastBoundary t
  obtain ⟨event, rest, -, heffect⟩ | ⟨-, -, ht⟩ | ⟨-, -, ⟨cause, -, rfl⟩ | ⟨w, i, -, -, hexec⟩⟩ := step_cases h
  · exact modeChange_of_event heffect
  · exact modeChange_exec (i := .wfi) (by rw [exec_wfi, ht])
  · exact .handler (enteredHandler_takeTrap cause _)
  · exact modeChange_exec hexec

/-- Settles O58: `modeChange_step`, and of its four ways only the entry of a handler raises the level. -/
theorem onlyTrapsAndReturnsChangeTheMode : Obligations.OnlyTrapsAndReturnsChangeTheMode := by
  intro s t hstep
  have hchange : ModeChange s t := modeChange_step hstep
  exact ⟨hchange, hchange.enteredHandler_of_raised⟩

/-! ### A trap and the return from it -/

/-- In a mode that exists V is 0 in M-mode and without the hypervisor feature set (10_state.md R68; 60_exceptions.md R234). -/
theorem v_of_modeLegal {s : State} (hlegal : modeLegal s = true) (h : s.priv = .m ∨ s.params.extH = false) : s.v = false := by
  simp only [modeLegal, Bool.and_eq_true] at hlegal
  obtain ⟨-, hv⟩ := hlegal
  obtain hm | hH := h
  · simpa [hm] using hv
  · simpa [hH] using hv

/-- `mret` enters the virtualization mode the trap recorded: where it enters 0 by rule, the trap came from V = 0. -/
theorem returnFromM_v_of_recorded {s u : State} (hlegal : modeLegal s = true) (hmpp : u.mstatus.mpp = s.priv)
    (hmpv : u.mstatus.mpv = s.v) (hparams : u.params = s.params) : (returnFromM u).v = s.v := by
  rw [returnFromM_v, hmpp, hmpv, hparams]
  split
  · exact (v_of_modeLegal hlegal ‹_›).symm
  · rfl

/-- Settles O47: `mret` executes in the handler, and what it restores is what the entry into M-mode recorded. -/
theorem mretUndoesATrapIntoMachineMode : Obligations.MretUndoesATrapIntoMachineMode := by
  intro s cause input rest hinputs htarget hlegal hU
  rw [takeTrap_into_m hinputs htarget, exec_mret, execMret_of_m rfl]
  have hunchanged := returnFromM_mpv_unchanged (s := trapEntryM input cause { s with trapInputs := rest })
  have hzero := returnFromM_mpv_zero (s := trapEntryM input cause { s with trapInputs := rest })
  exact ⟨_, rfl, rfl, returnFromM_v_of_recorded hlegal rfl rfl rfl, rfl, rfl, returnFromM_mpp_of_extU hU, rfl, rfl,
    hunchanged, hzero, fun hcleared => returnFromM_mprv_cleared (.inr hcleared), rfl, rfl, rfl, rfl⟩

/-- SPP records the level a trap into (H)S-mode came from (60_exceptions.md R215). -/
theorem priv_of_recordedSpp {p : Priv} (h : p ≠ .m) : (if (p == .s) = true then Priv.s else .u) = p := by
  cases p with
  | u => rfl
  | s => rfl
  | m => exact absurd rfl h

/-- Settles O48: (H)S-mode with TSR = 0 lets `sret` execute, and what it restores is what the entry into (H)S-mode recorded. -/
theorem sretUndoesATrapIntoSupervisorMode : Obligations.SretUndoesATrapIntoSupervisorMode := by
  intro s cause input rest hinputs htarget hm hS htsr
  rw [takeTrap_into_s hinputs htarget hm hS, exec_sret]
  obtain ⟨newV, inputs, count, hexec, -, -⟩ :=
    execSret_returns_drawn (s := trapEntryS input cause { s with trapInputs := rest }) hS (by simp) (by simp) (by simp [htsr])
  exact ⟨_, hexec, priv_of_recordedSpp hm, rfl, rfl, rfl, rfl, rfl, rfl, rfl, rfl, rfl⟩

/-! ### The gates of interrupts -/

theorem interruptEnabled_m_iff {s : State} {n : Nat} :
    interruptEnabled s { handler := .m, number := n } = true ↔ s.priv ≠ .m ∨ s.mstatus.mie = true := by
  simp [interruptEnabled, mInterruptsEnabled]

theorem interruptEnabled_s_iff {s : State} {n : Nat} (hS : s.params.extS = true) :
    interruptEnabled s { handler := .s, number := n } = true ↔ s.priv ≠ .m ∧ (s.priv = .u ∨ s.v = true ∨ s.mstatus.sie = true) := by
  simp [interruptEnabled, sInterruptsEnabled, hS, or_assoc]

/-- Below M-mode the third alternative of R207 is the one left where the first two fail: priv is S and V is 0. -/
theorem sGate_iff {s : State} (hm : s.priv ≠ .m) :
    (s.priv = .u ∨ s.v = true ∨ s.mstatus.sie = true)
      ↔ (s.priv = .u ∨ s.v = true ∨ (s.priv = .s ∧ s.v = false ∧ s.mstatus.sie = true)) := by
  cases hp : s.priv with
  | u => simp
  | s => cases hv : s.v <;> simp
  | m => exact absurd hp hm

/-- Settles O10: the gate of M-mode as it stands, that of (H)S-mode below M-mode with its last alternative spelled out. -/
theorem interruptGatesFollowMieAndSie : Obligations.InterruptGatesFollowMieAndSie := by
  intro s n
  exact ⟨interruptEnabled_m_iff, fun hS => (interruptEnabled_s_iff hS).trans (and_congr_right sGate_iff)⟩

/-! ### The environment's event at a boundary -/

section
variable {s : State} {event : EnvEvent} {rest : List (Option EnvEvent)}

theorem boundaryEffect_cons (h : s.envEvents = some event :: rest) :
    boundaryEffect s = eventEffect event { s with envEvents := rest } := by
  simp [boundaryEffect, State.pastBoundary, h]

theorem step_of_boundaryEffect {t : State} (h : boundaryEffect s = some t) : step s = .next t := by
  simp [step, h]

/-- A step at whose boundary nothing acts does not depend on what the environment attempted there (log 5). -/
theorem step_of_idleEvent (h : s.envEvents = some event :: rest) (hidle : boundaryEffect s = none) :
    step s = step { s with envEvents := none :: rest } := by
  have hpast : s.pastBoundary = ({ s with envEvents := none :: rest } : State).pastBoundary := by
    simp [State.pastBoundary, h]
  have hnothing : boundaryEffect { s with envEvents := none :: rest } = none := rfl
  simp only [step, hidle, hnothing, hpast]

/-- An event behind a gate acts in place of the instruction where the gate is open, and is as if it were not where it is closed. -/
theorem step_of_gatedEvent {gate : Bool} {t : State} (h : s.envEvents = some event :: rest)
    (heffect : eventEffect event { s with envEvents := rest } = if gate then some t else none) :
    (gate = true → step s = .next t) ∧ (gate = false → step s = step { s with envEvents := none :: rest }) := by
  rw [← boundaryEffect_cons h] at heffect
  refine ⟨fun hopen => step_of_boundaryEffect ?_, fun hclosed => step_of_idleEvent h ?_⟩
  · rw [heffect, if_pos hopen]
  · rw [heffect, if_neg (by simp [hclosed])]

end

/-! ### Whose record the software may have set -/

section
variable {s : State} {P Q : Prop}

theorem recordReachable_m_iff : recordReachable s .m = true ↔ s.priv = .m := by
  simp [recordReachable]

theorem recordReachable_s_iff : recordReachable s .s = true ↔ s.priv = .m ∨ (s.priv = .s ∧ s.v = false) := by
  simp [recordReachable]

theorem recordReachable_vs_iff : recordReachable s .vs = true ↔ s.priv ≠ .u := by
  cases hp : s.priv <;> simp [recordReachable, hp]

/-- M-mode's record: in M-mode, and not below (log 40). -/
theorem recordGate_m (h : (recordReachable s .m = true → P) ∧ (recordReachable s .m = false → Q)) :
    (s.priv = .m → P) ∧ (s.priv ≠ .m → Q) := by
  rwa [← Bool.not_eq_true, recordReachable_m_iff] at h

/-- (H)S-mode's record: in M-mode and (H)S-mode, and not in VS-mode nor in U-mode (log 40). -/
theorem recordGate_s (h : (recordReachable s .s = true → P) ∧ (recordReachable s .s = false → Q)) :
    (s.priv = .m ∨ (s.priv = .s ∧ s.v = false) → P) ∧ (s.priv = .u ∨ (s.priv = .s ∧ s.v = true) → Q) := by
  rw [← Bool.not_eq_true, recordReachable_s_iff] at h
  obtain ⟨hact, hidle⟩ := h
  refine ⟨hact, fun hbelow => hidle ?_⟩
  obtain hu | ⟨hs, hv⟩ := hbelow
  · simp [hu]
  · simp [hs, hv]

/-- VS-mode's record: above U-mode, and not in it (log 40). -/
theorem recordGate_vs (h : (recordReachable s .vs = true → P) ∧ (recordReachable s .vs = false → Q)) :
    (s.priv ≠ .u → P) ∧ (s.priv = .u → Q) := by
  rwa [← Bool.not_eq_true, recordReachable_vs_iff, not_not] at h

end

/-- Settles O9: an exception acts always, an interrupt behind its global enable, a setting of a record where the software may have it. -/
theorem boundaryActsOnTheEnvironmentsEvent : Obligations.BoundaryActsOnTheEnvironmentsEvent := by
  intro s event rest hevents past nothing
  have hraised {t : State} (heffect : eventEffect event past = some t) : step s = .next t :=
    step_of_boundaryEffect ((boundaryEffect_cons hevents).trans heffect)
  have hretAddr (mode : TrapTarget) (a : Word) (he : event = .setRetAddr mode a) :
      (recordReachable s mode = true → step s = .next (past.withRetAddr mode a))
        ∧ (recordReachable s mode = false → step s = nothing) :=
    step_of_gatedEvent hevents (he ▸ rfl)
  have hcause (mode : TrapTarget) (cause : Cause) (he : event = .setCause mode cause) :
      (recordReachable s mode = true → step s = .next (past.withCause mode cause))
        ∧ (recordReachable s mode = false → step s = nothing) :=
    step_of_gatedEvent hevents (he ▸ rfl)
  exact ⟨fun i he => step_of_gatedEvent hevents (he ▸ rfl), fun e he => hraised (he ▸ rfl), fun kind he => hraised (he ▸ rfl),
    fun a he => recordGate_m (hretAddr .m a he), fun a he => recordGate_s (hretAddr .s a he),
    fun a he => recordGate_vs (hretAddr .vs a he),
    fun cause he => recordGate_m (hcause .m cause he), fun cause he => recordGate_s (hcause .s cause he),
    fun cause he => recordGate_vs (hcause .vs cause he)⟩

end Sys2Proof.Machine
end

section
/-! The obligation on reset (70_reset_and_hazards.md R241, R242): a draw from the legal sets of the configuration lands in the legal sets of
the state that reset leaves, since `misa` holds at reset the extensions the configuration has. -/

namespace Sys2Proof.Machine

section
variable (p : Params) (d : ResetDraws) (vector : Word)

/-! ### The cases the fields are in after reset -/

/-- With or without `misa`, its S bit is at reset whether S-mode exists (10_state.md R26, D9). -/
theorem misaS_resetWith : misaS (State.resetWith p d vector) = p.extS := ite_self _

/-- With or without `misa`, its F bit is at reset whether F is implemented (10_state.md R26, D9). -/
theorem misaF_resetWith : misaF (State.resetWith p d vector) = p.extF := ite_self _

/-- With or without `misa`, its V bit is at reset whether V is implemented (10_state.md R26, D9). -/
theorem misaV_resetWith : misaV (State.resetWith p d vector) = p.extV := ite_self _

theorem tvmType_resetWith_eq_rw_iff : tvmType (State.resetWith p d vector) = .rw ↔ p.extS = true := by
  rw [tvmType_eq_rw_iff, misaS_resetWith]

theorem fsKind_resetWith :
    fsKind (State.resetWith p d vector) = contextKind p.extF p.misaImplemented p.extS p.extF p.fsLegalValues := by
  rw [fsKind, misaS_resetWith, misaF_resetWith]
  rfl

theorem vsKind_resetWith :
    vsKind (State.resetWith p d vector) = contextKind p.extV p.misaImplemented p.extS p.extV p.vsLegalValues := by
  rw [vsKind, misaS_resetWith, misaV_resetWith]
  rfl

/-! ### The parts of a legal state -/

variable {p d}

/-- Row by row of 70_reset_and_hazards.md R241: the fixed MPP is M, and each draw is legal for the case its field is in. -/
theorem mstatusLegal_resetWith (hlegal : d.legal p = true) : mstatusLegal (State.resetWith p d vector) = true := by
  simp only [ResetDraws.legal, Bool.and_eq_true, Bool.or_eq_true, decide_eq_true_eq] at hlegal
  obtain ⟨⟨⟨hxl, htvm⟩, hfs⟩, hvs⟩ := hlegal
  rw [← fsKind_resetWith p d vector] at hfs
  rw [← vsKind_resetWith p d vector] at hvs
  rw [← tvmType_resetWith_eq_rw_iff p d vector] at htvm
  simp only [mstatusLegal, Bool.and_eq_true, Bool.or_eq_true, decide_eq_true_eq, beq_iff_eq]
  exact ⟨⟨⟨⟨mem_mppLegal.mpr (.inl rfl), hxl⟩, htvm⟩, hfs⟩, hvs⟩

variable (p d)

/-- Reset enters M-mode, which every configuration has, with V = 0 (70_reset_and_hazards.md R244). -/
theorem modeLegal_resetWith : modeLegal (State.resetWith p d vector) = true := by
  have hpriv : (State.resetWith p d vector).priv ∈ mppLegal p := mem_mppLegal.mpr (.inl rfl)
  have hv : (State.resetWith p d vector).v = false := rfl
  simp only [modeLegal, Bool.and_eq_true, decide_eq_true_eq]
  exact ⟨hpriv, by simp [hv]⟩

/-- Reset leaves MPRV = 0 (70_reset_and_hazards.md R241). -/
theorem mprvLegal_resetWith : mprvLegal (State.resetWith p d vector) = true := rfl

/-- Every general register, x0 among them, holds 0 (10_state.md R70; log 3). -/
theorem regs_zero_resetWith : (State.resetWith p d vector).regs[0] = 0 := rfl

end

/-! ### The obligation -/

/-- Settles O56: the configuration is well-formed and the draws legal by hypothesis, the fixed values are legal in every configuration. -/
theorem resetLeavesALegalState : Obligations.ResetLeavesALegalState := by
  intro p d vector hwf hlegal
  have hmstatus := mstatusLegal_resetWith vector hlegal
  have hmode := modeLegal_resetWith p d vector
  have hmprv := mprvLegal_resetWith p d vector
  have hmem : Memory.wf (State.resetWith p d vector).mem = true := wf_nil
  have hx0 := regs_zero_resetWith p d vector
  simp only [State.legal, Bool.and_eq_true, beq_iff_eq]
  exact ⟨⟨⟨⟨⟨hwf, hmstatus⟩, hmode⟩, hmprv⟩, hmem⟩, hx0⟩

end Sys2Proof.Machine
end

section
/-! The levels that CSR numbers ask for (30_encoding.md R107), and the obligations on the accesses that the level, an undefined number,
or FS stops. -/

namespace Sys2Proof.Machine

/-! ### Numbers and levels -/

/-- Each CSR the source names has one number (30_encoding.md R107). -/
theorem eq_csrNumber_of_csrOfNumber {csr : CsrNum} {name : CsrName} (h : csrOfNumber csr = some name) : csr = csrNumber name := by
  unfold csrOfNumber at h
  split_ifs at h <;> cases h <;> assumption

/-- Only M-mode reaches a CSR whose number asks for level 3 (30_encoding.md R107). -/
theorem priv_of_accessible_level3 {s : State} {csr : CsrNum} (hlevel : csrLevel csr = 3#2) (h : csrAccessible s csr = true) :
    s.priv = .m := by
  simpa [csrAccessible, hlevel] using h

/-! ### Accesses that the level or the number stops -/

/-- The three ways an access can be below the level its number asks for (30_encoding.md R107; log 14). -/
theorem csrAccessible_eq_false {s : State} {csr : CsrNum}
    (h : (csrLevel csr = 3#2 ∧ s.priv ≠ .m) ∨ (csrLevel csr = 1#2 ∧ s.priv = .u)
      ∨ (csrLevel csr = 2#2 ∧ (s.priv = .u ∨ (s.priv = .s ∧ s.v = true)))) : csrAccessible s csr = false := by
  obtain ⟨hlevel, hm⟩ | ⟨hlevel, hu⟩ | ⟨hlevel, hu | ⟨hs, hv⟩⟩ := h
  · simp [csrAccessible, hlevel, hm]
  · simp [csrAccessible, hlevel, hu]
  · simp [csrAccessible, hlevel, hu]
  · simp [csrAccessible, hlevel, hs, hv]

/-- An access of a CSR that exists is stopped by its level before TVM and FS are looked at (40_csr_access.md R121). -/
theorem csrAccess_traps_of_level {s : State} {csr : CsrNum} {name : CsrName} (hname : csrOfNumber csr = some name)
    (hmisa : name = .misa → s.params.misaImplemented = true) (hacc : csrAccessible s csr = false) (op : CsrOp) (rd : RegNum)
    (source : CsrSource) : csrAccess op rd csr source s = .next (takeTrap .illegalInstruction s) := by
  have hpresent : ¬(name = .misa ∧ s.params.misaImplemented = false) := fun ⟨hn, habsent⟩ => ne_true_of_eq_false habsent (hmisa hn)
  unfold csrAccess
  simp only [hname]
  rw [if_neg hpresent, if_pos hacc]
  rfl

/-- Settles O25: the level check fails, and it is the first check of a CSR that exists. -/
theorem csrAccessBelowItsLevelTraps : Obligations.CsrAccessBelowItsLevelTraps := by
  intro s op rd csr source name hname hmisa hbelow
  exact (exec_csrInstr op rd csr source s).trans (csrAccess_traps_of_level hname hmisa (csrAccessible_eq_false hbelow) op rd source)

theorem csrAccess_of_undefined {csr : CsrNum} (h : csrOfNumber csr = none) (op : CsrOp) (rd : RegNum) (source : CsrSource)
    (s : State) : csrAccess op rd csr source s = .refused (.undefinedCsr csr) := by
  unfold csrAccess
  rw [h]

theorem csrAccess_of_misaAbsent {s : State} (h : s.params.misaImplemented = false) (op : CsrOp) (rd : RegNum) (source : CsrSource) :
    csrAccess op rd 0x301#12 source s = .refused .misaAbsent := by
  have hname : csrOfNumber 0x301#12 = some .misa := by decide
  unfold csrAccess
  simp only [hname]
  rw [if_pos (by simp [h])]

/-- Settles O26: both refusals come before every check of the access. -/
theorem undefinedCsrIsRefused : Obligations.UndefinedCsrIsRefused := by
  intro s op rd csr source
  refine ⟨fun hnone => ?_, fun hmisa habsent => ?_⟩
  · rw [exec_csrInstr, csrAccess_of_undefined hnone]
  · rw [exec_csrInstr, hmisa, csrAccess_of_misaAbsent habsent]

/-! ### Accesses that FS stops -/

/-- Any mode reaches `fcsr`, so that FS is what stops its access (43_fp_vector_status.md R190, R191; log 16). -/
theorem csrAccess_fcsr_traps {s : State} (hclass : s.params.fcsrIsFp = true) (hfs : s.mstatus.fs = 0#2) (op : CsrOp) (rd : RegNum)
    (source : CsrSource) : csrAccess op rd 0x003#12 source s = .next (takeTrap .illegalInstruction s) := by
  have hname : csrOfNumber 0x003#12 = some .fcsr := by decide
  have hdisabled : fcsrDisabled s .fcsr = true := by simp [fcsrDisabled, hclass, fpDisabled, hfs]
  unfold csrAccess
  simp only [hname]
  rw [if_neg (by simp), if_neg (by simp [csrAccessible_fcsr]), if_neg (by simp [tvmGuarded]), if_neg (by simp [tvmGuarded]),
    if_pos hdisabled]
  rfl

/-- No trap entry writes FS (60_exceptions.md R214 to R216). -/
@[simp] theorem takeTrap_mstatus_fs (cause : Cause) (s : State) : (takeTrap cause s).mstatus.fs = s.mstatus.fs := by
  have hfs := congrArg Mstatus.fs (sameOutsideTrapRecords_takeTrap cause s)
  exact hfs

/-- Settles O30: FS = 0 disables the class of the access, and the trap leaves FS. -/
theorem fcsrAccessTrapsWhenFsIsOff : Obligations.FcsrAccessTrapsWhenFsIsOff := by
  intro s op rd source hclass hfs
  exact ⟨(exec_csrInstr op rd _ source s).trans (csrAccess_fcsr_traps hclass hfs op rd source),
    (takeTrap_mstatus_fs _ s).trans hfs⟩

end Sys2Proof.Machine
end

section
/-! The obligations on `satp` and `hgatp` under TVM (42_wfi_tvm_fences.md R177, R178; D31): a write traps, a read does what is drawn. -/

namespace Sys2Proof.Machine

section
variable {s : State}

/-- TVM traps in (H)S-mode alone (42_wfi_tvm_fences.md R169). -/
theorem tvmTrap_eq_true_iff : tvmTrap s = true ↔ s.mstatus.tvm = true ∧ s.priv = .s ∧ s.v = false := by
  simp [tvmTrap, and_assoc]

/-- The two numbers name CSRs that TVM guards and that (H)S-mode reaches (30_encoding.md R107; 42_wfi_tvm_fences.md R177, R178). -/
theorem tvmGuarded_of_number {csr : CsrNum} (hcsr : csr = 0x180#12 ∨ csr = 0x680#12) (hp : s.priv = .s) (hv : s.v = false) :
    ∃ name, csrOfNumber csr = some name ∧ tvmGuarded name = true ∧ csrAccessible s csr = true
      ∧ csrRead s name = if csr = 0x180#12 then s.satp else s.hgatp := by
  obtain rfl | rfl := hcsr
  · have hlevel : csrLevel 0x180#12 = 1 := by decide
    exact ⟨.satp, by decide, rfl, by simp [csrAccessible, hlevel, hp], rfl⟩
  · have hlevel : csrLevel 0x680#12 = 2 := by decide
    exact ⟨.hgatp, by decide, rfl, by simp [csrAccessible, hlevel, hp, hv], rfl⟩

/-- Under TVM an access of a guarded CSR traps where it writes, and else does what the next draw says (D31). -/
theorem csrAccess_of_tvmTrap {csr : CsrNum} {name : CsrName} (hname : csrOfNumber csr = some name)
    (hguarded : tvmGuarded name = true) (hacc : csrAccessible s csr = true) (htrap : tvmTrap s = true) (op : CsrOp) (rd : RegNum)
    (source : CsrSource) :
    csrAccess op rd csr source s
      = if performsWrite op source then .next (takeTrap .illegalInstruction s)
        else if s.nextTvmReadTraps then .next (takeTrap .illegalInstruction s.dropTvmRead)
        else .next (csrExecute op rd name source s.dropTvmRead) := by
  have hmisa : ¬(name = .misa ∧ s.params.misaImplemented = false) := by
    rintro ⟨rfl, -⟩
    simp [tvmGuarded] at hguarded
  unfold csrAccess
  simp only [hname]
  rw [if_neg hmisa, if_neg (by simp [hacc]), if_pos ⟨hguarded, htrap⟩]
  rfl

/-- The head of the script is the next draw of a read under TVM (log 4). -/
theorem State.nextTvmReadTraps_cons {traps : Bool} {rest : List Bool} (h : s.tvmReadInputs = traps :: rest) :
    s.nextTvmReadTraps = traps := by
  simp [State.nextTvmReadTraps, h]

/-- A scripted draw consumes the head of the script and nothing else (log 4). -/
theorem State.dropTvmRead_cons {traps : Bool} {rest : List Bool} (h : s.tvmReadInputs = traps :: rest) :
    s.dropTvmRead = { s with tvmReadInputs := rest } := by
  simp [State.dropTvmRead, h]

end

/-- No trap entry writes `satp` (60_exceptions.md R214 to R216). -/
@[simp] theorem takeTrap_satp (cause : Cause) (s : State) : (takeTrap cause s).satp = s.satp := by
  obtain ht | ⟨-, -, ht⟩ | ⟨-, -, -, -, ht⟩ := takeTrap_cases cause s <;> rw [ht] <;> simp

/-- No trap entry writes `hgatp` (60_exceptions.md R214 to R216). -/
@[simp] theorem takeTrap_hgatp (cause : Cause) (s : State) : (takeTrap cause s).hgatp = s.hgatp := by
  obtain ht | ⟨-, -, ht⟩ | ⟨-, -, -, -, ht⟩ := takeTrap_cases cause s <;> rw [ht] <;> simp

/-- Settles O27: the access writes, so TVM traps it with no draw, and the trap keeps the registers. -/
theorem tvmTrapsWritesOfSatpAndHgatp : Obligations.TvmTrapsWritesOfSatpAndHgatp := by
  intro s op rd csr source hcsr htvm hp hv hform
  obtain ⟨name, hname, hguarded, hacc, -⟩ := tvmGuarded_of_number hcsr hp hv
  have hwrite : performsWrite op source = true := by simpa [performsWrite] using hform
  refine ⟨?_, takeTrap_satp _ s, takeTrap_hgatp _ s, takeTrap_regs _ s⟩
  rw [exec_csrInstr, csrAccess_of_tvmTrap hname hguarded hacc (tvmTrap_eq_true_iff.mpr ⟨htvm, hp, hv⟩), if_pos hwrite]

/-- Settles O28: the access writes nothing, so the draw decides between the trap and the access, each from the state past the draw. -/
theorem readOfSatpUnderTvmFollowsTheDraw : Obligations.ReadOfSatpUnderTvmFollowsTheDraw := by
  intro s op rd csr source traps rest hcsr htvm hp hv hop hfield hinputs
  obtain ⟨name, hname, hguarded, hacc, hread⟩ := tvmGuarded_of_number hcsr hp hv
  have hnoWrite : performsWrite op source = false := by simp [performsWrite, hop, hfield]
  have hreadDrawn : csrRead { s with tvmReadInputs := rest } name = if csr = 0x180#12 then s.satp else s.hgatp := by
    rw [← hread]
    cases name <;> rfl
  have hexec : exec (csrInstr op rd csr source) s
      = if traps then .next (takeTrap .illegalInstruction { s with tvmReadInputs := rest })
        else .next (csrExecute op rd name source { s with tvmReadInputs := rest }) := by
    rw [exec_csrInstr, csrAccess_of_tvmTrap hname hguarded hacc (tvmTrap_eq_true_iff.mpr ⟨htvm, hp, hv⟩), if_neg (by simp [hnoWrite]),
      State.nextTvmReadTraps_cons hinputs, State.dropTvmRead_cons hinputs]
  refine ⟨fun htraps => by rw [hexec, if_pos htraps], fun hreturns => ⟨_, by rw [hexec, if_neg (by simp [hreturns])], ?_, ?_, ?_⟩⟩
  · exact hreadDrawn ▸ registerResult_csrExecute op rd name source { s with tvmReadInputs := rest }
  · exact (csrAccessFrame_csrExecute op rd name source _).pc
  · exact congrArg (fun u : State => { u with tvmReadInputs := s.tvmReadInputs }) (csrExecute_of_noWrite hnoWrite rd name _)

end Sys2Proof.Machine
end

section
/-! The obligation that every step keeps the legal states (10_state.md R30, R31, R68; 20_memory.md R86): the clauses of `State.legal` as an
invariant, kept by each operation that a step is made of. -/

namespace Sys2Proof.Machine

/-! ### The clauses of a legal state -/

/-- The clauses of `State.legal`, each as the steps that keep it need it. -/
structure LegalState (s : State) : Prop where
  params : s.params.wellFormed = true
  mpp : s.mstatus.mpp ∈ mppLegal s.params
  xl : xlLegal s.params s.mstatus.sxl s.mstatus.uxl = true
  tvm : misaS s = false → s.mstatus.tvm = false
  fs : s.mstatus.fs ∈ contextLegal (fsKind s)
  vs : s.mstatus.vs ∈ contextLegal (vsKind s)
  priv : s.priv ∈ mppLegal s.params
  v : s.v = true → s.params.extH = true ∧ s.priv ≠ .m
  mprv : s.mstatus.mprv = true → s.priv = .m
  mem : Memory.wf s.mem = true
  x0 : s.regs[0] = 0

theorem tvmType_ne_rw_iff {s : State} : tvmType s ≠ .rw ↔ misaS s = false := by
  rw [ne_eq, tvmType_eq_rw_iff, Bool.not_eq_true]

theorem tvmClause_iff {s : State} : (tvmType s == .rw || !s.mstatus.tvm) = true ↔ (misaS s = false → s.mstatus.tvm = false) := by
  simp [← tvmType_ne_rw_iff, Decidable.or_iff_not_imp_left]

theorem modeLegal_iff {s : State} :
    modeLegal s = true ↔ s.priv ∈ mppLegal s.params ∧ (s.v = true → s.params.extH = true ∧ s.priv ≠ .m) := by
  cases hv : s.v <;> simp [modeLegal, hv]

theorem mprvLegal_iff {s : State} : mprvLegal s = true ↔ (s.mstatus.mprv = true → s.priv = .m) := by
  cases hmprv : s.mstatus.mprv <;> simp [mprvLegal, hmprv]

theorem legal_iff {s : State} : s.legal = true ↔ LegalState s := by
  simp only [State.legal, mstatusLegal, Bool.and_eq_true, decide_eq_true_eq, beq_iff_eq, tvmClause_iff, modeLegal_iff, mprvLegal_iff]
  constructor
  · rintro ⟨⟨⟨⟨⟨hparams, ⟨⟨⟨hmpp, hxl⟩, htvm⟩, hfs⟩, hvs⟩, hpriv, hv⟩, hmprv⟩, hmem⟩, hx0⟩
    exact ⟨hparams, hmpp, hxl, htvm, hfs, hvs, hpriv, hv, hmprv, hmem, hx0⟩
  · rintro ⟨hparams, hmpp, hxl, htvm, hfs, hvs, hpriv, hv, hmprv, hmem, hx0⟩
    exact ⟨⟨⟨⟨⟨hparams, ⟨⟨⟨hmpp, hxl⟩, htvm⟩, hfs⟩, hvs⟩, hpriv, hv⟩, hmprv⟩, hmem⟩, hx0⟩

section
variable {s : State}

theorem m_mem_mppLegal (p : Params) : Priv.m ∈ mppLegal p := mem_mppLegal.mpr (.inl rfl)

theorem s_mem_mppLegal {p : Params} (h : p.extS = true) : Priv.s ∈ mppLegal p := mem_mppLegal.mpr (.inr (.inl ⟨rfl, h⟩))

theorem u_mem_mppLegal {p : Params} (h : p.extU = true) : Priv.u ∈ mppLegal p := mem_mppLegal.mpr (.inr (.inr ⟨rfl, h⟩))

/-- A well-formed configuration with S-mode has U-mode (log 35). -/
theorem Params.extU_of_extS {p : Params} (hwf : p.wellFormed = true) (hS : p.extS = true) : p.extU = true := by
  simp only [Params.wellFormed, hS, Bool.and_eq_true, Bool.not_true, Bool.false_or] at hwf
  exact hwf.2

/-! ### The draws and the boundary -/

theorem LegalState.pastBoundary (h : LegalState s) : LegalState s.pastBoundary := { h with }

theorem LegalState.dropTrapInput (h : LegalState s) : LegalState s.dropTrapInput := { h with }

theorem LegalState.dropSretV (h : LegalState s) : LegalState s.dropSretV := { h with }

theorem priv_of_drawnFrom {s₀ : State} (hs : DrawnFrom s s₀) : s₀.priv = s.priv := by
  obtain rfl | rfl | rfl := hs <;> rfl

theorem LegalState.of_drawnFrom {s₀ : State} (h : LegalState s) (hs : DrawnFrom s s₀) : LegalState s₀ := by
  obtain rfl | rfl | rfl := hs <;> exact { h with }

/-! ### Traps -/

/-- Entry into M-mode records the mode it comes from in MPP, and enters a mode that always exists. -/
theorem LegalState.trapEntryM (h : LegalState s) (input : TrapInput) (cause : Cause) : LegalState (trapEntryM input cause s) :=
  { h with
    mpp := h.priv
    priv := m_mem_mppLegal _
    v := nofun
    mprv := fun _ => rfl }

/-- Entry into (H)S-mode comes from below M-mode, where MPRV is 0. -/
theorem LegalState.trapEntryS (h : LegalState s) (hm : s.priv ≠ .m) (hS : s.params.extS = true) (input : TrapInput) (cause : Cause) :
    LegalState (trapEntryS input cause s) :=
  { h with
    priv := s_mem_mppLegal hS
    v := nofun
    mprv := fun hmprv => absurd (h.mprv hmprv) hm }

theorem LegalState.trapEntryVs (h : LegalState s) (hm : s.priv ≠ .m) (hS : s.params.extS = true) (hH : s.params.extH = true)
    (input : TrapInput) (cause : Cause) : LegalState (trapEntryVs input cause s) :=
  { h with
    priv := s_mem_mppLegal hS
    v := fun _ => ⟨hH, by simp⟩
    mprv := fun hmprv => absurd (h.mprv hmprv) hm }

theorem LegalState.takeTrap (h : LegalState s) (cause : Cause) : LegalState (takeTrap cause s) := by
  obtain ht | ⟨hm, hS, ht⟩ | ⟨hm, hS, hH, -, ht⟩ := takeTrap_cases cause s <;> rw [ht]
  · exact h.dropTrapInput.trapEntryM _ cause
  · exact h.dropTrapInput.trapEntryS hm hS _ cause
  · exact h.dropTrapInput.trapEntryVs hm hS hH _ cause

/-- The gate of an interrupt handled in (H)S-mode is open only below M-mode where S-mode exists (60_exceptions.md R207, R233). -/
theorem below_m_of_sInterruptEnabled {i : Interrupt} (hhandler : i.handler = .s) (henabled : interruptEnabled s i = true) :
    s.priv ≠ .m ∧ s.params.extS = true := by
  simp only [interruptEnabled, hhandler, sInterruptsEnabled, Bool.and_eq_true, bne_iff_ne] at henabled
  obtain ⟨hS, hm, -⟩ := henabled
  exact ⟨hm, hS⟩

theorem LegalState.takeInterrupt (h : LegalState s) {i : Interrupt} (henabled : interruptEnabled s i = true) :
    LegalState (takeInterrupt i s) := by
  obtain ⟨-, ht⟩ | ⟨hhandler, ht⟩ := takeInterrupt_cases i s <;> rw [ht]
  · exact h.dropTrapInput.trapEntryM _ _
  · obtain ⟨hm, hS⟩ := below_m_of_sInterruptEnabled hhandler henabled
    exact h.dropTrapInput.trapEntryS hm hS _ _

/-! ### Returns -/

/-- `mret` enters the level MPP held and leaves there the least one there is; it keeps MPRV on a return to M-mode alone, and enters
V = 1 only below M-mode with the hypervisor feature set (41_trap_return.md R150, R153). -/
theorem LegalState.returnFromM (h : LegalState s) : LegalState (returnFromM s) :=
  { h with
    mpp := by
      cases hU : s.params.extU with
      | false => exact returnFromM_mpp_of_not_extU hU ▸ m_mem_mppLegal _
      | true => exact returnFromM_mpp_of_extU hU ▸ u_mem_mppLegal hU
    priv := h.mpp
    v := by
      rw [returnFromM_v]
      split
      · exact nofun
      · rename_i hguest
        rw [not_or, Bool.not_eq_false] at hguest
        exact fun _ => ⟨hguest.2, hguest.1⟩
    mprv := fun hmprv => by_contra fun hbelow => ne_true_of_eq_false (returnFromM_mprv_cleared (.inl hbelow)) hmprv }

/-- `sret` enters S or U, which both exist where S-mode does, and clears MPRV (41_trap_return.md R153, R155). -/
theorem LegalState.returnFromS (h : LegalState s) (hS : s.params.extS = true) {newV : Bool}
    (hnewV : newV = true → s.params.extH = true) : LegalState (returnFromS newV s) :=
  { h with
    priv := by
      rw [returnFromS_priv]
      split
      · exact s_mem_mppLegal hS
      · exact u_mem_mppLegal (Params.extU_of_extS h.params hS)
    v := fun hv => ⟨hnewV hv, by rw [returnFromS_priv]; split <;> simp⟩
    mprv := nofun }

/-! ### Writes of CSRs -/

/-- The legal set of a context-status field is not empty where the configuration's list is not. -/
theorem contextKind_rw_ne_nil {ext misaImplemented bitS bitX : Bool} {legal l : List (BitVec 2)} (hlegal : legal ≠ [])
    (h : contextKind ext misaImplemented bitS bitX legal = .rw l) : l ≠ [] :=
  contextKind_rw h ▸ hlegal

/-- Every value is legal for a field of type RW-H (10_state.md R30). -/
theorem mem_contextLegal_rwH (x : BitVec 2) : x ∈ contextLegal .rwH := by
  revert x
  decide

/-- A software write leaves a legal FS or VS legal (40_csr_access.md R131, R132). -/
theorem swWriteContext_mem {kind : ContextKind} {held : BitVec 2} (hne : ∀ l, kind = .rw l → l ≠ []) (hheld : held ∈ contextLegal kind)
    (written : BitVec 2) (index : Nat) : swWriteContext kind held written index ∈ contextLegal kind := by
  cases kind with
  | rwH => exact mem_contextLegal_rwH written
  | roZero | roSingle => exact hheld
  | rw legal => exact ((contextWrite_swWriteContext hne held written index).rw legal rfl).1

/-- What a write of `misa` settles FS or VS to is legal for the type it then has (10_state.md R26, D9; log 15). -/
theorem settledContext_mem {kind : ContextKind} (hne : ∀ l, kind = .rw l → l ≠ []) (held : BitVec 2) (index : Nat) :
    settledContext kind held index ∈ contextLegal kind := by
  cases kind with
  | rwH => exact mem_contextLegal_rwH held
  | roZero | roSingle => exact List.mem_singleton_self _
  | rw legal =>
    obtain ⟨-, -, -, hrw⟩ := settledField_settledContext (.rw legal) held index
    exact (hrw legal rfl).2 (hne legal rfl)

/-- A dirtied FS or VS is legal: hardware writes 3 only where every value is (43_fp_vector_status.md R192, R195). -/
theorem dirtied_mem {kind : ContextKind} {held : BitVec 2} (hheld : held ∈ contextLegal kind) : dirtied kind held ∈ contextLegal kind := by
  unfold dirtied
  split
  · rename_i hdirty
    exact hdirty.1 ▸ mem_contextLegal_rwH 3
  · exact hheld

/-- In a well-formed configuration an RW FS has some legal value. -/
theorem fsKind_ne_nil (hwf : s.params.wellFormed = true) (l : List (BitVec 2)) (hl : fsKind s = .rw l) : l ≠ [] :=
  contextKind_rw_ne_nil (Params.wellFormed_contextLegal hwf).1 hl

/-- In a well-formed configuration an RW VS has some legal value. -/
theorem vsKind_ne_nil (hwf : s.params.wellFormed = true) (l : List (BitVec 2)) (hl : vsKind s = .rw l) : l ≠ [] :=
  contextKind_rw_ne_nil (Params.wellFormed_contextLegal hwf).2 hl

/-- The software write of `mstatus`, which M-mode alone reaches, stores legal values (40_csr_access.md R126 to R132). -/
theorem LegalState.writeMstatus (h : LegalState s) (hm : s.priv = .m) (value : Word) :
    LegalState { s with mstatus := writeMstatus s value } :=
  { h with
    mpp := swWriteMpp_mem s value
    xl := xlLegal_of_mem_xlPairs h.xl (swWriteXl_mem h.xl value)
    tvm := fun (hmisa : misaS s = false) => (swWriteTvm_of_not_misaS hmisa value).trans (h.tvm hmisa)
    fs := swWriteContext_mem (fsKind_ne_nil h.params) h.fs _ _
    vs := swWriteContext_mem (vsKind_ne_nil h.params) h.vs _ _
    mprv := fun _ => hm }

/-- A write of `misa` changes the types of TVM, FS and VS, and these then hold what their new type asks for (10_state.md R26, D9). -/
theorem LegalState.writeMisa (h : LegalState s) (value : Word) : LegalState (writeMisa s value) :=
  { h with
    tvm := (settledAfterMisa_csrWrite s value).tvmZero
    fs := settledContext_mem (fsKind_ne_nil (s := Machine.writeMisa s value) h.params) _ _
    vs := settledContext_mem (vsKind_ne_nil (s := Machine.writeMisa s value) h.params) _ _ }

theorem LegalState.writeFcsr (h : LegalState s) (value : Word) : LegalState (writeFcsr s value) :=
  { h with fs := dirtied_mem h.fs }

theorem LegalState.csrWrite (h : LegalState s) {name : CsrName} (hm : name = .mstatus → s.priv = .m) (value : Word) :
    LegalState (csrWrite s name value) := by
  cases name with
  | mstatus => exact h.writeMstatus (hm rfl) value
  | misa => exact h.writeMisa value
  | fcsr => exact h.writeFcsr value
  | mie | mtval | sie | satp | hstatus | hgatp | vsstatus => exact { h with }

/-- A CSR access that executes leaves what its write leaves, with x0 and `pc` aside. -/
theorem LegalState.csrExecute (h : LegalState s) {name : CsrName} (hm : name = .mstatus → s.priv = .m) (op : CsrOp) (rd : RegNum)
    (source : CsrSource) : LegalState (csrExecute op rd name source s) := by
  obtain ⟨u, regs, hu, hx0, ht⟩ := csrExecute_eq op rd name source s
  have hwritten : LegalState u := by
    rw [hu]
    split
    · exact h.csrWrite hm _
    · exact h
  rw [ht]
  exact { hwritten with x0 := hx0.trans hwritten.x0 }

/-- The number of `mstatus` asks for level 3 (30_encoding.md R107). -/
theorem priv_of_mstatus_accessible {csr : CsrNum} {name : CsrName} (hname : csrOfNumber csr = some name)
    (hacc : csrAccessible s csr = true) (hmstatus : name = .mstatus) : s.priv = .m := by
  subst hmstatus
  rw [eq_csrNumber_of_csrOfNumber hname] at hacc
  exact priv_of_accessible_level3 (by decide) hacc

/-! ### Instructions, events and steps -/

theorem LegalState.wfiStep (h : LegalState s) : LegalState (wfiStep s) := by
  obtain ⟨-, ht⟩ | ht | ht := wfiStep_cases s <;> rw [ht]
  · exact (h.of_drawnFrom (.inr (.inr rfl))).takeTrap _
  · exact { h with }
  · exact { h with }

theorem LegalState.exec {i : Instr} {t : State} (h : LegalState s) (hexec : exec i s = .next t) : LegalState t := by
  cases exec_cases hexec with
  | trap s₀ hs ht => exact ht ▸ (h.of_drawnFrom hs).takeTrap _
  | csr op rd csr source name s₀ _ hname hs hacc ht =>
    have hm (hmstatus : name = .mstatus) : s₀.priv = .m :=
      (priv_of_drawnFrom hs).trans (priv_of_mstatus_accessible hname hacc hmstatus)
    exact ht ▸ (h.of_drawnFrom hs).csrExecute hm op rd source
  | mret _ _ ht => exact ht ▸ h.returnFromM
  | sret _ hS _ _ ht =>
    obtain ⟨hH, rfl⟩ | ⟨-, rfl⟩ := ht
    · exact h.dropSretV.returnFromS hS fun _ => hH
    · exact h.returnFromS hS nofun
  | wfi _ ht => obtain rfl | rfl := ht <;> exact { h with }
  | fence fence _ _ r1 r2 _ _ ht => exact ht ▸ { h with }

theorem LegalState.eventEffect {event : EnvEvent} {t : State} (h : LegalState s) (heffect : eventEffect event s = some t) :
    LegalState t := by
  obtain ⟨i, -, henabled, rfl⟩ | ⟨cause, rfl⟩ | ⟨mode, address, -, -, rfl⟩ | ⟨mode, cause, -, -, rfl⟩ := eventEffect_cases heffect
  · exact h.takeInterrupt henabled
  · exact h.takeTrap cause
  · cases mode <;> exact { h with }
  · cases mode <;> exact { h with }

theorem LegalState.step {t : State} (h : LegalState s) (hstep : step s = .next t) : LegalState t := by
  obtain ⟨event, rest, -, heffect⟩ | ⟨-, -, rfl⟩ | ⟨-, -, ⟨cause, -, rfl⟩ | ⟨w, i, -, -, hexec⟩⟩ := step_cases hstep
  · exact h.pastBoundary.eventEffect heffect
  · exact h.pastBoundary.wfiStep
  · exact h.pastBoundary.takeTrap cause
  · exact h.pastBoundary.exec hexec

end

/-- Settles O55: the clauses of a legal state are an invariant of every step. -/
theorem stepKeepsLegalStates : Obligations.StepKeepsLegalStates := fun _ _ hlegal hstep =>
  legal_iff.mpr ((legal_iff.mp hlegal).step hstep)

end Sys2Proof.Machine
end

section
/-! The obligation on what M-mode keeps to itself (10_state.md R22, R66; 60_exceptions.md R230, R232): a projection of the state that every
operation a step is made of keeps, unless it runs in M-mode or ends there. -/

namespace Sys2Proof.Machine

/-! ### The part of the state that is M-mode's -/

/-- The fields of `mstatus` that M-mode keeps to itself: the others are erased. -/
def Mstatus.machineFields (m : Mstatus) : Mstatus :=
  { m with mprv := false, fs := 0, vs := 0, spp := false, spie := false, sie := false }

/-- What M-mode keeps to itself: its fields of `mstatus`, its return address, cause and trap value, `misa`, `mie` and memory. -/
def State.machinePart (s : State) : Mstatus × Word × Cause × Word × Misa × Word × Memory :=
  (s.mstatus.machineFields, s.mRetAddr, s.mCause, s.mtval, s.misa, s.mie, s.mem)

theorem sameMachineFields_of_machineFields {m n : Mstatus} (h : n.machineFields = m.machineFields) : SameMachineFields m n := by
  have hfield {α : Type} (field : Mstatus → α) := congrArg field h
  exact ⟨hfield Mstatus.mpv, hfield Mstatus.gva, hfield Mstatus.sxl, hfield Mstatus.uxl, hfield Mstatus.tsr, hfield Mstatus.tw,
    hfield Mstatus.tvm, hfield Mstatus.mxr, hfield Mstatus.sum, hfield Mstatus.mpp, hfield Mstatus.mpie, hfield Mstatus.mie⟩

/-- From `s` to `t` M-mode was entered, or what M-mode keeps to itself is as it was. -/
def KeepsMachinePart (s t : State) : Prop := t.priv = .m ∨ t.machinePart = s.machinePart

theorem KeepsMachinePart.of_same {s s₀ t : State} (hs : s₀.machinePart = s.machinePart) (h : KeepsMachinePart s₀ t) :
    KeepsMachinePart s t :=
  h.imp_right (·.trans hs)

section
variable {s : State}

theorem machinePart_of_drawnFrom {s₀ : State} (hs : DrawnFrom s s₀) : s₀.machinePart = s.machinePart := by
  obtain rfl | rfl | rfl := hs <;> rfl

/-! ### Traps -/

/-- A trap enters M-mode, or records itself outside what M-mode keeps to itself (60_exceptions.md R214 to R216). -/
theorem keepsMachinePart_takeTrap (cause : Cause) (s : State) : KeepsMachinePart s (takeTrap cause s) := by
  obtain ht | ⟨-, -, ht⟩ | ⟨-, -, -, -, ht⟩ := takeTrap_cases cause s <;> rw [ht]
  · exact .inl rfl
  · exact .inr rfl
  · exact .inr rfl

theorem keepsMachinePart_takeInterrupt (i : Interrupt) (s : State) : KeepsMachinePart s (takeInterrupt i s) := by
  obtain ⟨-, ht⟩ | ⟨-, ht⟩ := takeInterrupt_cases i s <;> rw [ht]
  · exact .inl rfl
  · exact .inr rfl

/-! ### CSR accesses -/

/-- A write of a CSR whose number asks for less than level 3 leaves what M-mode keeps to itself: of `mstatus` it can change FS alone. -/
theorem machinePart_csrWrite {name : CsrName} (hlevel : csrLevel (csrNumber name) ≠ 3#2) (value : Word) :
    (csrWrite s name value).machinePart = s.machinePart := by
  cases name with
  | mstatus | misa | mie | mtval => exact absurd (by decide) hlevel
  | sie | satp | hstatus | hgatp | vsstatus | fcsr => rfl

theorem machinePart_csrExecute {name : CsrName} (hlevel : csrLevel (csrNumber name) ≠ 3#2) (op : CsrOp) (rd : RegNum)
    (source : CsrSource) : (csrExecute op rd name source s).machinePart = s.machinePart := by
  obtain ⟨regs, ht⟩ := csrExecute_eq_csrWritten op rd name source s
  rw [ht]
  exact csrWritten_induction (motive := fun u => u.machinePart = s.machinePart) rfl (machinePart_csrWrite hlevel) op source

/-- Below M-mode a CSR that is reached is none of level 3 (30_encoding.md R107). -/
theorem level_ne_3_of_accessible {csr : CsrNum} {name : CsrName} (hm : s.priv ≠ .m) (hname : csrOfNumber csr = some name)
    (hacc : csrAccessible s csr = true) : csrLevel (csrNumber name) ≠ 3#2 := by
  rw [← eq_csrNumber_of_csrOfNumber hname]
  exact fun hlevel => hm (priv_of_accessible_level3 hlevel hacc)

/-! ### Instructions, events and steps -/

theorem keepsMachinePart_wfiStep (s : State) : KeepsMachinePart s (wfiStep s) := by
  obtain ⟨-, ht⟩ | ht | ht := wfiStep_cases s <;> rw [ht]
  · exact (keepsMachinePart_takeTrap _ s.dropWfiDraw).of_same rfl
  · exact .inr rfl
  · exact .inr rfl

theorem keepsMachinePart_exec {i : Instr} {t : State} (hm : s.priv ≠ .m) (h : exec i s = .next t) : KeepsMachinePart s t := by
  cases exec_cases h with
  | trap s₀ hs ht => exact ht ▸ (keepsMachinePart_takeTrap _ s₀).of_same (machinePart_of_drawnFrom hs)
  | csr op rd csr source name s₀ _ hname hs hacc ht =>
    have hlevel := level_ne_3_of_accessible hm hname hacc
    exact .inr (ht ▸ (machinePart_csrExecute hlevel op rd source).trans (machinePart_of_drawnFrom hs))
  | mret _ hmret _ => exact absurd hmret hm
  | sret _ _ _ _ ht => obtain ⟨-, rfl⟩ | ⟨-, rfl⟩ := ht <;> exact .inr rfl
  | wfi _ ht => obtain rfl | rfl := ht <;> exact .inr rfl
  | fence fence _ _ r1 r2 _ _ ht => exact .inr (ht ▸ rfl)

/-- The environment sets the return address and the cause of M-mode for software of M-mode alone (log 7, log 8, log 40). -/
theorem keepsMachinePart_of_event {event : EnvEvent} {t : State} (hm : s.priv ≠ .m) (h : eventEffect event s = some t) :
    KeepsMachinePart s t := by
  obtain ⟨i, -, -, rfl⟩ | ⟨cause, rfl⟩ | ⟨mode, address, -, hreach, rfl⟩ | ⟨mode, cause, -, hreach, rfl⟩ := eventEffect_cases h
  · exact keepsMachinePart_takeInterrupt i s
  · exact keepsMachinePart_takeTrap cause s
  · cases mode with
    | m => exact absurd (recordReachable_m_iff.mp hreach) hm
    | s | vs => exact .inr rfl
  · cases mode with
    | m => exact absurd (recordReachable_m_iff.mp hreach) hm
    | s | vs => exact .inr rfl

theorem keepsMachinePart_step {t : State} (hm : s.priv ≠ .m) (h : step s = .next t) : KeepsMachinePart s t := by
  change KeepsMachinePart s.pastBoundary t
  obtain ⟨event, rest, -, heffect⟩ | ⟨-, -, rfl⟩ | ⟨-, -, ⟨cause, -, rfl⟩ | ⟨w, i, -, -, hexec⟩⟩ := step_cases h
  · exact keepsMachinePart_of_event hm heffect
  · exact keepsMachinePart_wfiStep _
  · exact keepsMachinePart_takeTrap cause _
  · exact keepsMachinePart_exec hm hexec

end

/-- Settles O59: the step did not end in M-mode, so it kept M-mode's part, which is read off. -/
theorem belowMachineModeNothingOfMachineModeChanges : Obligations.BelowMachineModeNothingOfMachineModeChanges := by
  intro s t hstep hs ht
  have hpart : t.machinePart = s.machinePart := (keepsMachinePart_step hs hstep).resolve_left ht
  simp only [State.machinePart, Prod.mk.injEq] at hpart
  obtain ⟨hfields, hretAddr, hcause, hmtval, hmisa, hmie, hmem⟩ := hpart
  exact ⟨sameMachineFields_of_machineFields hfields, hretAddr, hcause, hmtval, hmisa, hmie, fun a => by rw [hmem]⟩

end Sys2Proof.Machine
end

section
/-! The obligations on what is read back from memory (20_memory.md R80, R81, R84): a load of the bytes a store wrote, and a fetch of the word
placed at `pc`. -/

namespace Sys2Proof.Machine

/-! ### Bytes read back -/

/-- Bytes written are read back in their order: within the address space none of them lands on an earlier one (20_memory.md R84;
log 24). -/
theorem readBytes_writeBytes (m : Memory) (a : Word) {bytes : List Byte} (hlen : bytes.length ≤ 2 ^ 64) :
    readBytes (writeBytes m a bytes) a bytes.length = .ok bytes := by
  induction bytes generalizing m a with
  | nil => rfl
  | cons b bs ih =>
    have hrest : bs.length < 2 ^ 64 := hlen
    have hfirst : readByte (writeBytes m a (b :: bs)) a.toNat = some b := by
      rw [writeBytes, readByte_writeBytes_other, readByte_writeByte_same]
      intro k hk
      bv_omega
    exact readBytes_succ hfirst (ih _ _ hrest.le)

/-! ### A load after a store -/

/-- What a store that is done makes of the state: the value's bytes, in memory alone (20_memory.md R84). -/
theorem eq_of_memWrite_done {s t : State} {address : Word} {n : Nat} {page : Option Page} {value : Nat}
    (h : memWrite s address n page value = .done t) : t = { s with mem := writeBytes s.mem address (leBytes value n) } := by
  unfold memWrite at h
  split at h <;> cases h
  rw [inDataOrder_eq]

/-- A load that raises nothing gives the value of the bytes it reads (20_memory.md R80). -/
theorem memRead_of_readBytes {s : State} {address : Word} {n : Nat} {page : Option Page} {bytes : List Byte}
    (hpass : accessException s .load address n page = none) (hbytes : readBytes s.mem address n = .ok bytes) :
    memRead s address n page = .done (leValue bytes) := by
  simp [memRead, hpass, hbytes]

/-- Settles O54: the bytes stored are read back, and their value is the value stored, cut to their width. -/
theorem loadAfterStoreReadsTheValue : Obligations.LoadAfterStoreReadsTheValue := by
  intro s t address n pageW pageR value hn hstore hpass
  obtain rfl := eq_of_memWrite_done hstore
  have hlen : (leBytes value n).length = n := leBytes_length value n
  have hbytes : readBytes (writeBytes s.mem address (leBytes value n)) address n = .ok (leBytes value n) := by
    simpa only [hlen] using readBytes_writeBytes s.mem address (hlen.trans_le hn)
  refine ⟨?_, fun a ha => readByte_writeBytes_other _ _ _ (by rwa [hlen]), rfl⟩
  rw [memRead_of_readBytes hpass hbytes, leValue_leBytes]

/-! ### An instruction placed at `pc` -/

/-- The bytes of a word, as fetched, are the word (20_memory.md R81). -/
theorem fetchedWord_bytesOfWord (w : InsnWord) : fetchedWord (bytesOfWord w) = w := by
  simp only [bytesOfWord, fetchedWord, wordOfBytes]
  iterate 3 rw [BitVec.extractLsb'_append_extractLsb'_eq_extractLsb' (by rfl)]
  exact BitVec.extractLsb'_eq_self

/-- The word placed at `pc` is the one fetched there (20_memory.md R81; log 33). -/
theorem fetch_placeAtPc {s : State} (haligned : fetchMisaligned s = false) (w : InsnWord) : fetch (placeAtPc s w) = .word w := by
  have hbytes : readBytes (placeAtPc s w).mem (placeAtPc s w).pc 4 = .ok (bytesOfWord w) :=
    readBytes_writeBytes s.mem s.pc (bytes := bytesOfWord w) (by simp [bytesOfWord])
  have hfetch := fetch_of_readBytes (s := placeAtPc s w) haligned hbytes
  rwa [fetchedWord_bytesOfWord] at hfetch

/-- All bits of an instruction word are kept by `tableWord`. -/
theorem tableWord_toNat (w : InsnWord) : tableWord 32 w.toNat = w := by
  rw [tableWord, Nat.mod_eq_of_lt w.isLt, BitVec.ofNat_toNat, BitVec.setWidth_eq]

/-- Settles O7: nothing happens at the boundary, the word placed is fetched, and it decodes to the instruction. -/
theorem placedInstructionRunsNext : Obligations.PlacedInstructionRunsNext := by
  intro s i haligned
  rw [State.withFetchWord, tableWord_toNat]
  have hfetch : fetch (placeAtPc s (encode i)) = .word (encode i) := fetch_placeAtPc haligned (encode i)
  calc step (placeAtPc s (encode i))
      = runInstruction (placeAtPc s (encode i)).pastBoundary := step_of_quietBoundary rfl rfl
    _ = runInstruction (placeAtPc s (encode i)) := rfl
    _ = exec i (placeAtPc s (encode i)) := runInstruction_of_decode hfetch (decodeInvertsEncode i)

end Sys2Proof.Machine
end

section
/-! The obligations on where `wfi` and the fences execute, wait, or are trapped by TVM (42_wfi_tvm_fences.md R165 to R176). -/

namespace Sys2Proof.Machine

section
variable {s : State}

/-! ### wfi -/

/-- In M-mode, and in (H)S-mode with TW = 0, `wfi` may not trap (42_wfi_tvm_fences.md R166). -/
theorem wfiMayTrap_eq_false (h : s.priv = .m ∨ (s.priv = .s ∧ s.v = false ∧ s.mstatus.tw = false)) : wfiMayTrap s = false := by
  obtain hm | ⟨hs, hv, htw⟩ := h
  · simp [wfiMayTrap, hm]
  · simp [wfiMayTrap, hs, hv, htw]

/-- A draw to wait makes `wfi` wait, in every mode (42_wfi_tvm_fences.md R168; log 9). -/
theorem wfiStep_waits (hdraw : s.nextWfiDraw = .stall) : wfiStep s = { s.dropWfiDraw with wfiWaiting := true } := by
  simp [wfiStep, hdraw]

/-- A draw to complete completes `wfi`, and so does a draw of a trap where none may happen (42_wfi_tvm_fences.md R166, R168; log 9). -/
theorem wfiStep_completes (h : s.nextWfiDraw = .complete ∨ (s.nextWfiDraw = .trap ∧ wfiMayTrap s = false)) :
    wfiStep s = { s.dropWfiDraw with wfiWaiting := false }.advance := by
  obtain hdraw | ⟨hdraw, hmay⟩ := h
  · simp [wfiStep, hdraw]
  · simp [wfiStep, hdraw, hmay]

/-- Where `wfi` may not trap it waits or completes, whatever it draws (42_wfi_tvm_fences.md R166). -/
theorem wfiStep_of_not_mayTrap (h : wfiMayTrap s = false) :
    wfiStep s = { s.dropWfiDraw with wfiWaiting := true } ∨ wfiStep s = { s.dropWfiDraw with wfiWaiting := false }.advance :=
  (wfiStep_cases s).resolve_left fun ⟨hmay, _⟩ => ne_true_of_eq_false h hmay

/-- Where a `wfi` waits and the environment does nothing at the boundary, a step is a step of that `wfi` (10_state.md R69; log 9). -/
theorem step_of_waiting (hquiet : boundaryEffect s = none) (hwaiting : s.wfiWaiting = true) :
    step s = .next (wfiStep s.pastBoundary) := by
  simp [step, hquiet, hwaiting, execWfi]

/-! ### Fences -/

/-- A fence of the supervisor that TVM traps, in (H)S-mode with TVM = 1 (42_wfi_tvm_fences.md R169 to R171). -/
theorem supervisorFence_traps_of_tvm (hu : s.priv ≠ .u) (htrap : tvmTrap s = true) (fence : Fence) (rs1 rs2 : RegNum) :
    supervisorFence fence true rs1 rs2 s = .next (takeTrap .illegalInstruction s) := by
  unfold supervisorFence
  rw [if_neg hu, if_pos (by simp [htrap])]
  rfl

/-- A fence of the hypervisor that TVM traps, in (H)S-mode with TVM = 1 (42_wfi_tvm_fences.md R169, R172, R173). -/
theorem hypervisorFence_traps_of_tvm (hmode : ¬(s.priv = .u ∨ inVsMode s = true)) (htrap : tvmTrap s = true) (fence : Fence)
    (rs1 rs2 : RegNum) : hypervisorFence fence true rs1 rs2 s = .next (takeTrap .illegalInstruction s) := by
  unfold hypervisorFence
  rw [if_neg hmode, if_pos (by simp [htrap])]
  rfl

/-- A fence of the supervisor that no check stops executes (42_wfi_tvm_fences.md R170, R171, R175, R176). -/
theorem supervisorFence_executes {underTvm : Bool} (hu : s.priv ≠ .u) (htvm : underTvm = true → tvmTrap s = false)
    (hvtvm : underTvm = true → inVsMode s = true → s.hstatus.vtvm = false) (fence : Fence) (rs1 rs2 : RegNum) :
    supervisorFence fence underTvm rs1 rs2 s = .next (fenceExecute fence rs1 rs2 s) := by
  unfold supervisorFence
  rw [if_neg hu, if_neg (by simpa using htvm), if_neg (by simpa using hvtvm)]

/-- A fence of the hypervisor that no check stops executes (42_wfi_tvm_fences.md R172 to R174). -/
theorem hypervisorFence_executes {underTvm : Bool} (hmode : ¬(s.priv = .u ∨ inVsMode s = true))
    (htvm : underTvm = true → tvmTrap s = false) (fence : Fence) (rs1 rs2 : RegNum) :
    hypervisorFence fence underTvm rs1 rs2 s = .next (fenceExecute fence rs1 rs2 s) := by
  unfold hypervisorFence
  rw [if_neg hmode, if_neg (by simpa using htvm)]

end

/-! ### The obligations -/

/-- Settles O36: the draw completes `wfi`, its last case being a draw of a trap where R166 lets none happen. -/
theorem wfiCompletesWhenDrawn : Obligations.WfiCompletesWhenDrawn := by
  intro s draw rest hinputs hdraw
  have hnext : s.nextWfiDraw = draw := State.nextWfiDraw_cons hinputs
  have hcompletes : wfiStep s = { s.dropWfiDraw with wfiWaiting := false }.advance := by
    refine wfiStep_completes ?_
    rw [hnext]
    exact hdraw.imp_right fun ⟨htrap, hmode⟩ => ⟨htrap, wfiMayTrap_eq_false (hmode.imp_right fun ⟨htw, hs, hv⟩ => ⟨hs, hv, htw⟩)⟩
  rw [exec_wfi, hcompletes, State.dropWfiDraw_cons hinputs]
  rfl

/-- Settles O37: `wfi` may not trap, so it waits or completes, and neither touches the trap record. -/
theorem wfiNeverTrapsWhereTwLetsItWait : Obligations.WfiNeverTrapsWhereTwLetsItWait := by
  intro s hmode
  refine ⟨wfiStep s, exec_wfi s, ?_⟩
  obtain ht | ht := wfiStep_of_not_mayTrap (wfiMayTrap_eq_false hmode) <;> rw [ht]
  · exact ⟨rfl, ⟨rfl, rfl⟩, ⟨rfl, rfl, rfl, rfl, rfl, rfl⟩, rfl, fun _ => rfl, .inl ⟨rfl, rfl⟩⟩
  · exact ⟨rfl, ⟨rfl, rfl⟩, ⟨rfl, rfl, rfl, rfl, rfl, rfl⟩, rfl, fun _ => rfl, .inr ⟨rfl, rfl⟩⟩

/-- Settles O39: the draw makes `wfi` wait, and a waiting `wfi` is what the next step is. -/
theorem wfiWaitsUntilADrawEndsIt : Obligations.WfiWaitsUntilADrawEndsIt := by
  intro s rest hinputs
  refine ⟨?_, fun hwaiting hquiet => ?_⟩
  · rw [exec_wfi, wfiStep_waits (State.nextWfiDraw_cons hinputs), State.dropWfiDraw_cons hinputs]
  · have hpast : s.pastBoundary.wfiInputs = .stall :: rest := hinputs
    rw [step_of_waiting hquiet hwaiting, wfiStep_waits (State.nextWfiDraw_cons hpast), State.dropWfiDraw_cons hpast, ← hwaiting]
    rfl

/-- Settles O41: the mode allows each of the four, and TVM traps it. -/
theorem tvmTrapsTheFourFences : Obligations.TvmTrapsTheFourFences := by
  intro s rs1 rs2 htvm hp hv
  have hu : s.priv ≠ .u := by simp [hp]
  have hmode : ¬(s.priv = .u ∨ inVsMode s = true) := by simp [inVsMode, hp, hv]
  have htrap : tvmTrap s = true := tvmTrap_eq_true_iff.mpr ⟨htvm, hp, hv⟩
  exact ⟨supervisorFence_traps_of_tvm hu htrap .sfenceVma rs1 rs2, supervisorFence_traps_of_tvm hu htrap .sinvalVma rs1 rs2,
    hypervisorFence_traps_of_tvm hmode htrap .hfenceGvma rs1 rs2, hypervisorFence_traps_of_tvm hmode htrap .hinvalGvma rs1 rs2⟩

/-- Settles O40: by the family of the fence, each check it has passes, and its effect is in the translation state alone. -/
theorem fencesExecuteWhereNothingTrapsThem : Obligations.FencesExecuteWhereNothingTrapsThem := by
  intro s fence rs1 rs2 hu htvm hvs
  have hnoTvm (hunder : fenceUnderTvm fence = true) : tvmTrap s = false :=
    Bool.eq_false_iff.mpr fun htrap => htvm hunder (tvmTrap_eq_true_iff.mp htrap)
  obtain ⟨r1, r2, hfence⟩ := exec_fenceInstr fence rs1 rs2 s
  have hexec : exec (fenceInstr fence rs1 rs2) s = .next (fenceExecute fence r1 r2 s) := by
    rw [hfence]
    cases hhyp : fenceOfHypervisor fence with
    | true =>
      have hmode : ¬(s.priv = .u ∨ inVsMode s = true) := by
        rintro (hpu | hpvs)
        · exact hu hpu
        · obtain ⟨hp, hv⟩ := inVsMode_eq_true_iff.mp hpvs
          exact ne_true_of_eq_false (hvs hp hv).1 hhyp
      exact hypervisorFence_executes hmode hnoTvm fence r1 r2
    | false =>
      have hvtvm (hunder : fenceUnderTvm fence = true) (hpvs : inVsMode s = true) : s.hstatus.vtvm = false :=
        have ⟨hp, hv⟩ := inVsMode_eq_true_iff.mp hpvs
        (hvs hp hv).2 hunder
      exact supervisorFence_executes hu hnoTvm hvtvm fence r1 r2
  exact ⟨_, hexec, rfl, rfl, fun _ => rfl, rfl⟩

end Sys2Proof.Machine
end

section
/-! The obligations on `mstatus` alone: a value written back as read (40_csr_access.md R126), FS under the floating-point class
(43_fp_vector_status.md R191, R192, R198), and the values at reset (70_reset_and_hazards.md R241 to R246). -/

namespace Sys2Proof.Machine

/-! ### Writing back what was read -/

/-- Settles O20: the value agrees with what `mstatus` reads as in every bit, MIE and SIE among them. -/
theorem writingBackTheReadValueChangesNothing : Obligations.WritingBackTheReadValueChangesNothing := by
  intro s hlegal
  have hread := readMstatus_layout s.mstatus
  rw [writeMstatus_of_sameAboveImmediate hlegal fun _ _ => rfl, getLsbD_of_extract_bit hread.mie, getLsbD_of_extract_bit hread.sie]

/-! ### The floating-point class -/

/-- FS = 0 disables the floating-point class (43_fp_vector_status.md R191). -/
theorem classDisabled_of_fs_zero {c : InsnClass} {s : State} (hfp : c.isFp = true) (hfs : s.mstatus.fs = 0#2) :
    classDisabled c s = true := by
  simp [classDisabled, fpDisabled, hfp, hfs]

/-- FS records a write of floating-point state, whether or not vector state is written as well (43_fp_vector_status.md R192, R198). -/
theorem classWritten_fs (c : InsnClass) (s : State) :
    (classWritten c s).mstatus.fs = if c.writesFpState then fsDirtied s else s.mstatus.fs := by
  unfold classWritten
  cases c.writesFpState <;> cases c.writesVectorState <;> rfl

/-- What holds of a state, and after each of the two records is made in it, holds after an instruction of a class wrote its state. -/
theorem classWritten_induction {motive : State → Prop} {s : State} (keep : motive s) (fp : ∀ u, motive u → motive u.fpWritten)
    (vector : ∀ u, motive u → motive u.vectorWritten) (c : InsnClass) : motive (classWritten c s) := by
  have hafterFp : motive (if c.writesFpState then s.fpWritten else s) := by
    split
    · exact fp s keep
    · exact keep
  unfold classWritten
  dsimp only
  split
  · exact vector _ hafterFp
  · exact hafterFp

/-- What no record of a class changes: everything but FS, VS and `vsstatus` (43_fp_vector_status.md R192, R195; log 16). -/
structure ClassFrame (s t : State) : Prop where
  pc : t.pc = s.pc
  mode : SameMode s t
  mem : t.mem = s.mem
  mstatus : { t.mstatus with fs := s.mstatus.fs, vs := s.mstatus.vs } = s.mstatus

theorem classFrame_classWritten (c : InsnClass) (s : State) : ClassFrame s (classWritten c s) :=
  classWritten_induction (motive := ClassFrame s) ⟨rfl, ⟨rfl, rfl⟩, rfl, rfl⟩ (fun _ h => ⟨h.pc, h.mode, h.mem, h.mstatus⟩)
    (fun _ h => ⟨h.pc, h.mode, h.mem, h.mstatus⟩) c

/-- Settles O50: FS = 0 disables the class; an instruction that executes leaves in FS what `classWritten` does, and its frame. -/
theorem floatingPointClassFollowsFs : Obligations.FloatingPointClassFollowsFs := by
  intro s c
  refine ⟨fun hfp hfs => classStep_of_disabled (classDisabled_of_fs_zero hfp hfs), fun henabled => ?_⟩
  have hframe := classFrame_classWritten c s
  rw [classStep_of_enabled henabled]
  refine ⟨fun hwrites hon hkind => ?_, fun hkept => ?_, ?_, hframe.mode, fun a => ?_, hframe.mstatus⟩
  · rw [State.advance_mstatus, classWritten_fs, if_pos hwrites, fsDirtied, dirtied_of_ne_zero hon, if_pos hkind]
  · rw [State.advance_mstatus, classWritten_fs]
    obtain hnone | hkept := hkept
    · rw [if_neg (by simp [hnone])]
    · rw [fsDirtied, dirtied_of_kept hkept, ite_self]
  · rw [State.advance_pc, hframe.pc]
  · rw [State.advance_mem, hframe.mem]

/-! ### Reset -/

/-- Settles O57: the fixed values are those of `State.resetWith` by definition, M-mode's gate is closed by MIE = 0, and the two values
`mstatus` reads as are computed. -/
theorem resetValuesOfTheSpec : Obligations.ResetValuesOfTheSpec := by
  refine ⟨fun p d vector => ?_, by decide, by decide⟩
  have hgate (n : Nat) : interruptEnabled (State.resetWith p d vector) { handler := .m, number := n } = false := by
    rw [← Bool.not_eq_true, interruptEnabled_m_iff]
    exact not_or.mpr ⟨not_not.mpr rfl, Bool.false_ne_true⟩
  exact ⟨rfl, rfl, rfl, rfl, rfl, rfl, rfl, hgate, effectiveMode_of_mprv_clear rfl⟩

end Sys2Proof.Machine
end

section
/-! The obligation on what the gates hold right after an interrupt is taken (60_exceptions.md R206 to R208, R218). -/

namespace Sys2Proof.Machine

/-- The entry into M-mode clears MIE, and in M-mode both gates are closed then (60_exceptions.md R206, R207, R214). -/
theorem interruptEnabled_trapEntryM (input : TrapInput) (cause : Cause) (s : State) (i : Interrupt) :
    interruptEnabled (trapEntryM input cause s) i = false := by
  cases hhandler : i.handler with
  | m => simp [interruptEnabled, hhandler, mInterruptsEnabled]
  | s => simp [interruptEnabled, hhandler, sInterruptsEnabled]

/-- The entry into (H)S-mode clears SIE, which closes the gate of (H)S-mode, V being 0 (60_exceptions.md R207, R215). -/
theorem interruptEnabled_s_trapEntryS (input : TrapInput) (cause : Cause) (s : State) (k : Nat) :
    interruptEnabled (trapEntryS input cause s) { handler := .s, number := k } = false := by
  simp [interruptEnabled, sInterruptsEnabled]

/-- (H)S-mode is below M-mode, so that M-mode's gate is open there at every MIE (60_exceptions.md R206, R215). -/
theorem interruptEnabled_m_trapEntryS (input : TrapInput) (cause : Cause) (s : State) (k : Nat) :
    interruptEnabled (trapEntryS input cause s) { handler := .m, number := k } = true :=
  interruptEnabled_m_iff.mpr (.inl (by simp))

/-- Settles O11: an interrupt is the entry into its handler mode. -/
theorem interruptEntryDisablesItsOwnMode : Obligations.InterruptEntryDisablesItsOwnMode := fun _ _ _ =>
  ⟨interruptEnabled_trapEntryM _ _ _ _, interruptEnabled_trapEntryM _ _ _ _, interruptEnabled_s_trapEntryS _ _ _ _,
    interruptEnabled_m_trapEntryS _ _ _ _⟩

end Sys2Proof.Machine
end

section
/-! The obligation on the words that 95_test_vectors.md V-DEC lists. -/

namespace Sys2Proof

/-- Settles O4: an accepted word is the one its instruction encodes to, and the decoder computes the refusal of the others. -/
theorem sampleWordsDecodeAsListed : Obligations.SampleWordsDecodeAsListed :=
  ⟨decode_eq_ok_iff.mpr (by decide), decode_eq_ok_iff.mpr (by decide), decode_eq_ok_iff.mpr (by decide),
    decode_eq_ok_iff.mpr (by decide), decode_eq_ok_iff.mpr (by decide), decode_eq_ok_iff.mpr (by decide),
    by decide, by decide, by decide, by decide⟩

end Sys2Proof
end
